-- ==== Sys2Proof/Word.lean ====
section
/-! DEFINITION. The words of the CORE. Every quantity is unsigned (spec/00_scope.md R11). -/

namespace Sys2Proof

/-- A register value, a store byte, a response (R11: "a byte is 8 bits"). -/
abbrev Byte := BitVec 8

/-- A device register address, 0..15 (R7 `ADDR_W`). -/
abbrev Addr := BitVec 4

/-- A calibration value, 0..3 (R7 `NCAL`). -/
abbrev Cal := BitVec 2

/-- A host command word (R96, R97). -/
abbrev CmdWord := BitVec 16

/-- Index of a mirrored register, 0..8 (R7 `NREG`). -/
abbrev RegIdx := Fin 9

/-- A channel, 0..102 (R7 `N`). -/
abbrev Chan := Fin 103

end Sys2Proof
end

