-- ==== Sys2Proof/Syntax.lean ====
section
/-! DEFINITION. The thirteen host commands (spec/30_encoding.md R98, spec/opcode_table.json), and why a command word
is reserved (R101). -/

namespace Sys2Proof

/-- A host command with its operands (R96: "take the command as a value of an inductive type with the operands as
fields"). `WellFormed` says which operands have a meaning. -/
inductive Instr where
  /-- WRREG a, d (R122): `writeRegister(address, value)` -/
  | wrreg (a : Addr) (d : Byte)
  /-- RSTBUS (R124): `resetBus()` -/
  | rstbus
  /-- SET a, d (R142): `set(address, value)` -/
  | set (a : Addr) (d : Byte)
  /-- GET a (R143): `get(address)` -/
  | get (a : Addr)
  /-- SETBITS a, d (R144): `setBits` -/
  | setbits (a : Addr) (d : Byte)
  /-- CLRBITS a, d (R145): `clearBits` -/
  | clrbits (a : Addr) (d : Byte)
  /-- HASLOCK (R162): `hasLock()` -/
  | haslock
  /-- TUNE d (R170): `tuneTo(channel)`, any `d` -/
  | tune (d : Byte)
  /-- CALAPPLY v (R200): `applyCalibration(value)` -/
  | calapply (v : Cal)
  /-- CALRD d (R234): packed-byte lookup -/
  | calrd (d : Byte)
  /-- CALWR v, d (R235): packed-byte write -/
  | calwr (v : Cal) (d : Byte)
  /-- STINIT (R236): store validity check and reset -/
  | stinit
  /-- SETRDY f (R238): bring-up complete flag -/
  | setrdy (f : Bool)
deriving DecidableEq, Repr

/-- Why a command word is reserved (R101). -/
inductive Reserved where
  /-- `op` is 0x0, 0xE or 0xF -/
  | opcode
  /-- a must-be-zero field is nonzero -/
  | mbz
  /-- GET, SETBITS or CLRBITS with `a >= 9`: no mirror element -/
  | mirrorIndex
  /-- CALRD or CALWR with `d >= 103`: no channel -/
  | channel
deriving DecidableEq, Repr

end Sys2Proof
end

