-- ==== Sys2Proof/WellFormed.lean ====
section
/-! DEFINITION. Which commands have a meaning: the "further condition" column of spec/30_encoding.md R99. -/

namespace Sys2Proof

/-- A mirrored address: `a <= 8` (R99). -/
def mirrored (a : Addr) : Bool := decide (a.toNat < 9)

/-- A channel: `d <= 102` (R99). -/
def isChannel (d : Byte) : Bool := decide (d.toNat < 103)

/-- What the operands of a command must meet for it to have a meaning (R99, R101). The other operand ranges of R98
are those of the constructors' types. -/
def wellFormed : Instr → Bool
  | .wrreg _ _ => true
  | .rstbus => true
  | .set _ _ => true
  | .get a => mirrored a
  | .setbits a _ => mirrored a
  | .clrbits a _ => mirrored a
  | .haslock => true
  | .tune _ => true
  | .calapply _ => true
  | .calrd d => isChannel d
  | .calwr _ d => isChannel d
  | .stinit => true
  | .setrdy _ => true

end Sys2Proof
end

