-- ==== Sys2Proof/Decode.lean ====
section
/-! DEFINITION. The decoder and the encoder of command words: format C (spec/30_encoding.md R97) and the opcode map
(R98, R99), rejecting the reserved words of R101 by name. -/

namespace Sys2Proof

/-- `op`, bits [15:12] (R97). -/
def fieldOp (w : CmdWord) : BitVec 4 := w.extractLsb' 12 4

/-- `a`, bits [11:8] (R97). -/
def fieldA (w : CmdWord) : Addr := w.extractLsb' 8 4

/-- `d`, bits [7:0] (R97). -/
def fieldD (w : CmdWord) : Byte := w.extractLsb' 0 8

/-- A row's must-be-zero condition (R98), then its further condition (R99), then its command. -/
def accept (mbz : Bool) (further : Bool) (why : Reserved) (i : Instr) : Except Reserved Instr :=
  if mbz then (if further then .ok i else .error why) else .error .mbz

/-- The decoder: R98 row by row. -/
def decode (w : CmdWord) : Except Reserved Instr :=
  let a := fieldA w
  let d := fieldD w
  match (fieldOp w).toNat with
  | 0x1 => .ok (.wrreg a d)
  | 0x2 => accept (a == 0 && d == 0) true .mbz .rstbus
  | 0x3 => .ok (.set a d)
  | 0x4 => accept (d == 0) (mirrored a) .mirrorIndex (.get a)
  | 0x5 => accept true (mirrored a) .mirrorIndex (.setbits a d)
  | 0x6 => accept true (mirrored a) .mirrorIndex (.clrbits a d)
  | 0x7 => accept (a == 0 && d == 0) true .mbz .haslock
  | 0x8 => accept (a == 0) true .mbz (.tune d)
  | 0x9 => accept (a == 0 && d.extractLsb' 2 6 == 0) true .mbz (.calapply (d.extractLsb' 0 2))
  | 0xA => accept (a == 0) (isChannel d) .channel (.calrd d)
  | 0xB => accept (a.extractLsb' 2 2 == 0) (isChannel d) .channel (.calwr (a.extractLsb' 0 2) d)
  | 0xC => accept (a == 0 && d == 0) true .mbz .stinit
  | 0xD => accept (a == 0 && d.extractLsb' 1 7 == 0) true .mbz (.setrdy (d.getLsbD 0))
  | _ => .error .opcode

/-- The word of three fields: `op << 12 | a << 8 | d` (R104). -/
def word (op : BitVec 4) (a : Addr) (d : Byte) : CmdWord := op ++ a ++ d

/-- The encoder: R98 row by row, written form to word (R104). -/
def encode : Instr → CmdWord
  | .wrreg a d => word 0x1 a d
  | .rstbus => word 0x2 0 0
  | .set a d => word 0x3 a d
  | .get a => word 0x4 a 0
  | .setbits a d => word 0x5 a d
  | .clrbits a d => word 0x6 a d
  | .haslock => word 0x7 0 0
  | .tune d => word 0x8 0 d
  | .calapply v => word 0x9 0 (v.setWidth 8)
  | .calrd d => word 0xA 0 d
  | .calwr v d => word 0xB (v.setWidth 4) d
  | .stinit => word 0xC 0 0
  | .setrdy f => word 0xD 0 (BitVec.ofBool f |>.setWidth 8)

/-- `mask` of a command's row (R99). -/
def rowMask : Instr → CmdWord
  | .wrreg _ _ | .set _ _ | .setbits _ _ | .clrbits _ _ => 0xF000
  | .rstbus | .haslock | .stinit => 0xFFFF
  | .get _ => 0xF0FF
  | .tune _ | .calrd _ => 0xFF00
  | .calapply _ => 0xFFFC
  | .calwr _ _ => 0xFC00
  | .setrdy _ => 0xFFFE

/-- `match` of a command's row (R99). -/
def rowMatch : Instr → CmdWord
  | .wrreg _ _ => 0x1000
  | .rstbus => 0x2000
  | .set _ _ => 0x3000
  | .get _ => 0x4000
  | .setbits _ _ => 0x5000
  | .clrbits _ _ => 0x6000
  | .haslock => 0x7000
  | .tune _ => 0x8000
  | .calapply _ => 0x9000
  | .calrd _ => 0xA000
  | .calwr _ _ => 0xB000
  | .stinit => 0xC000
  | .setrdy _ => 0xD000

/-- The command word of an opcode-table row, its bits numbered as the table numbers them (bit 0 least significant, R11,
R97): what lies above `nbits` is zero. The port carries whole words, so there is no byte order to choose. -/
def tableWord (nbits w : Nat) : CmdWord := BitVec.ofNat 16 (w % 2 ^ nbits)

/-- The instruction the decoder reads from a table word; a command word has 16 bits (R97). -/
def decodeTableWord (nbits w : Nat) : Option Instr :=
  if nbits ≤ 16 then
    match decode (tableWord nbits w) with
    | .ok i => some i
    | .error _ => none
  else none

end Sys2Proof
end

