-- ==== Sys2Proof/Config.lean ====
section
/-! DEFINITION. What is fixed for one machine: the parameters the source fixes (spec/00_scope.md R7), the named
durations (R8), the OPEN parameters with their constraints (R9), and the free bit of the lock line (R161). -/

namespace Sys2Proof

/-! ## Parameters the source fixes (R7) -/

/-- `N_SAMPLES`: lock-line samples per query (R7). -/
def Config.nSamples : Nat := 50

/-- `MAJ`: a query is true iff the count of high samples exceeds this (R7). -/
def Config.maj : BitVec 6 := 25

/-- `SWEEP`: the order of the trial values of the search (R7, R207). -/
def Config.sweep : List Cal := [3, 2, 1, 0]

/-- `RST_ONES`: forced "1" bits in the bus-reset framing (R7). -/
def Config.rstOnes : Nat := 26

/-- `CAL_BYTES`: bytes of the packed calibration table (R7). -/
def Config.calBytes : Nat := 26

/-- `F_BASE`: frequency of channel 0 in units of 0.1 MHz (R7). -/
def Config.fBase : Nat := 875

/-- `F_STEP`: frequency step per channel in units of 0.1 MHz (R7). -/
def Config.fStep : Nat := 2

/-! ## Durations (R8) -/

/-- The three waits of the CORE (R297). A `DELAY` event carries the name; no rule makes a value depend on the
number (R338). -/
inductive Delay where
  | tSample   -- interval between samples
  | tApply    -- settle after a calibration register change
  | tSearch   -- settle of one search trial
deriving DecidableEq, Repr, Inhabited

/-- The nominal figure of a wait in microseconds (R8); read as "at least" (R338). -/
def Delay.nominal : Delay → Nat
  | .tSample => 2500
  | .tApply => 175000
  | .tSearch => 500000

/-! ## Register writes of the surrounding software (R268, R269) -/

/-- One register write of a wrapper operation, a host command SET, SETBITS or CLRBITS (R268, R269). The source gives neither
registers, bits nor values (N10): the operands are fixed numbers, and of the machine's state only the register's own mirrored value
can enter, through `setField` (the forms are the model's choice, log 25). -/
inductive RegWrite where
  /-- SET of one byte, at any of the sixteen addresses -/
  | set (a : Addr) (v : Byte)
  /-- SET of the mirrored value with the bits of `mask` replaced by those of `v` -/
  | setField (r : RegIdx) (mask v : Byte)
  | setBits (r : RegIdx) (v : Byte)
  | clrBits (r : RegIdx) (v : Byte)
deriving DecidableEq, Repr, Inhabited

/-- The byte register `r` holds after the write, from `b`. -/
def RegWrite.apply (w : RegWrite) (r : RegIdx) (b : Byte) : Byte :=
  match w with
  | .set a v => if a.toNat = r.val then v else b
  | .setField q mask v => if q = r then (b &&& ~~~mask) ||| (v &&& mask) else b
  | .setBits q v => if q = r then b ||| v else b
  | .clrBits q v => if q = r then b &&& ~~~v else b

/-- The bits of register `r` that the write may change. -/
def RegWrite.touched (w : RegWrite) (r : RegIdx) : Byte :=
  match w with
  | .set a _ => if a.toNat = r.val then 0xFF else 0
  | .setField q mask _ => if q = r then mask else 0
  | .setBits q v => if q = r then v else 0
  | .clrBits q v => if q = r then v else 0

/-- The register writes behind the wrapper operations the source only names (R268, R269). -/
structure HostWrites where
  online : List RegWrite
  offline : List RegWrite
  mute : List RegWrite
  unMute : List RegWrite
  attenuation : Vector (List RegWrite) 3   -- arguments 0..2
  txPower : Vector (List RegWrite) 3       -- arguments 1..3
deriving DecidableEq, Repr, Inhabited

/-! ## OPEN parameters (R9) -/

/-- The OPEN parameters of R9, as raw data. `Params.ok` says their constraints. -/
structure Params where
  /-- `REG_CP`, `CP_MASK`, `CP_FAST`, `CP_IDLE` -/
  regCp : RegIdx
  cpMask : Byte
  cpFast : Byte
  cpIdle : Byte
  /-- `REG_FLO`, `REG_FHI` -/
  regFlo : RegIdx
  regFhi : RegIdx
  /-- `REG_CAL` -/
  regCal : RegIdx
  /-- `REG_PWR`, `PWR_MASK` -/
  regPwr : RegIdx
  pwrMask : Byte
  /-- `R_POR[0..8]` -/
  rPor : Vector Byte 9
  /-- `CHAN_DIV[0..102]` (R34), "ascending frequency order": `Params.chanOk` (log 3) -/
  chanDiv : Vector (BitVec 16) 103
  /-- `B0`, `B1`, `B2` -/
  b0 : Nat
  b1 : Nat
  b2 : Nat
  /-- `MARKER_OFF`, `MARKER_VAL`, `CAL_BASE` -/
  markerOff : Nat
  markerVal : Byte
  calBase : Nat
  /-- What each store offset holds at the first power-up ever: arbitrary bytes (R38, U10). Its length is `STORE_SIZE`. -/
  storeInit : List Byte
  /-- The register writes of the wrapper operations (R268, R269; log 17, log 22, log 25). -/
  host : HostWrites
deriving DecidableEq, Repr, Inhabited

/-- `STORE_SIZE` (R9). -/
def Params.storeSize (p : Params) : Nat := p.storeInit.length

/-- What a store offset that nothing has written reads as (R38, R64, D23): arbitrary, fixed until written. -/
def Params.powerUpByte (p : Params) (off : Nat) : Byte := p.storeInit.getD off 0

/-- The bits of a register that the tuning engine writes (R24). -/
def Params.owned (p : Params) (r : RegIdx) : Byte :=
  if r = p.regCp then p.cpMask
  else if r = p.regFlo ∨ r = p.regFhi then 0xFF
  else if r = p.regCal then 0x03
  else 0

/-- A register write that touches no bit the tuning engine owns (R269: "on a register field the tuning engine does
not own"). -/
def Params.untuned (p : Params) (w : RegWrite) : Bool :=
  (List.finRange 9).all fun r => w.touched r &&& p.owned r == 0

/-- What register `r` holds after a list of writes, from `b`. -/
def regAfter (ws : List RegWrite) (r : RegIdx) (b : Byte) : Byte := ws.foldl (fun b w => w.apply r b) b

/-- The writes of each audio-path operation and argument (R269). -/
def HostWrites.audio (h : HostWrites) : List (List RegWrite) :=
  [h.mute, h.unMute] ++ h.attenuation.toList ++ h.txPower.toList

/-- What `REG_PWR` holds after a list of writes, from `b`. -/
def Params.pwrAfter (p : Params) (ws : List RegWrite) (b : Byte) : Byte := regAfter ws p.regPwr b

/-- The five register roles are distinct (R9). -/
def Params.rolesOk (p : Params) : Bool :=
  decide ([p.regCp, p.regFlo, p.regFhi, p.regCal, p.regPwr].Nodup)

/-- The masks and settings of the charge pump and of the power field (R9). -/
def Params.masksOk (p : Params) : Bool :=
  p.cpMask != 0 && p.cpFast &&& ~~~p.cpMask == 0 && p.cpIdle &&& ~~~p.cpMask == 0 && p.cpFast != p.cpIdle &&
  [1, 3, 7, 15, 31, 63, 127, 255].contains p.pwrMask

/-- The channel table stands in ascending frequency order (R9, R34). The spec gives no frequency to a divider, so this is what that
order says of the numbers: some relation of divider to frequency gives entry `c` the frequency of channel `c`, which is so exactly
where no two entries are equal (`Params.chanOk_iff` in Laws/Config.lean; log 3). -/
def Params.chanOk (p : Params) : Bool := decide (∀ i j : Chan, p.chanDiv[i.val] = p.chanDiv[j.val] → i = j)

/-- The default bands (R9, R67). -/
def Params.bandsOk (p : Params) : Bool :=
  decide (0 < p.b2) && decide (p.b2 ≤ p.b1) && decide (p.b1 ≤ p.b0) && decide (p.b0 ≤ 103)

/-- The store layout (R9, R62); that the marker lies inside the store is DEDUCED from R60 and R70 (log 2). -/
def Params.storeOk (p : Params) : Bool :=
  decide (27 ≤ p.storeSize) && decide (p.calBase + 25 < p.storeSize) && decide (p.markerOff < p.storeSize) &&
  decide (p.markerOff < p.calBase ∨ p.calBase + 25 < p.markerOff)

/-- The wrapper's writes: each audio-path operation is some register write, and none touches the tuning engine's bits (R269); whatever
`REG_PWR` held, `goOffline` leaves the powered-on predicate false (R268) and `goOnline` leaves it true (DEDUCED from R301; log 22). -/
def Params.hostOk (p : Params) : Bool :=
  p.host.audio.all (fun ws => !ws.isEmpty && ws.all p.untuned) &&
  (List.range 256).all fun b =>
    p.pwrAfter p.host.offline (BitVec.ofNat 8 b) &&& p.pwrMask == 0 &&
    p.pwrAfter p.host.online (BitVec.ofNat 8 b) &&& p.pwrMask != 0

/-- The constraints of R9, R268, R269 and R301 together. -/
def Params.ok (p : Params) : Bool :=
  p.rolesOk && p.masksOk && p.bandsOk && p.storeOk && p.hostOk && p.chanOk

/-! ## The reference configuration of the spec's examples (R10) -/

/-- `CFG_TEST` (R10), with the given power-up bytes in its store of 27: it is **no** claim about the hardware. It gives the examples
of the spec their numbers and shows that the constraints can be met; the machine is not built from it. R10 gives no register writes
of the surrounding software: those here are arbitrary ones that meet the constraints. -/
def Params.cfgTest (bytes : List Byte) : Params where
  regCp := 6
  cpMask := 0xFF
  cpFast := 0x1E
  cpIdle := 0x1A
  regFlo := 3
  regFhi := 4
  regCal := 8
  regPwr := 0
  pwrMask := 0x03
  rPor := #v[0x00, 0xB4, 0x05, 0x8A, 0x2E, 0x00, 0x1A, 0x00, 0x1B]
  chanDiv := .ofFn fun c => BitVec.ofNat 16 ((87804 + 200 * c.val) * 1000 / 8192)   -- floor((87.804 + 0.2 c) / 0.008192)
  b0 := 80
  b1 := 50
  b2 := 20
  markerOff := 0
  markerVal := 0xA5
  calBase := 1
  storeInit := bytes
  host :=
    { online := [.setBits 0 0x01]
      offline := [.clrBits 0 0x03]
      mute := [.setBits 1 0x01]
      unMute := [.clrBits 1 0x01]
      attenuation := #v[[.setField 1 0x30 0x00], [.setField 1 0x30 0x10], [.setField 1 0x30 0x20]]
      txPower := #v[[.setField 2 0x03 0x01], [.setField 2 0x03 0x02], [.setField 2 0x03 0x03]] }

/-- `STORE_SIZE` of `CFG_TEST` bytes of 0xFF, the store of program P1. -/
def Params.blankStore : List Byte := .replicate 27 0xFF

theorem Params.cfgTest_chanOk (bytes : List Byte) : (Params.cfgTest bytes).chanOk = true := by
  refine decide_eq_true fun i j h => Fin.ext ?_
  simp only [Params.cfgTest, Vector.getElem_ofFn] at h
  have hlt : ∀ c : Chan, (87804 + 200 * c.val) * 1000 / 8192 < 2 ^ 16 := fun c => by omega
  have := congrArg BitVec.toNat h
  rw [BitVec.toNat_ofNat, BitVec.toNat_ofNat, Nat.mod_eq_of_lt (hlt i), Nat.mod_eq_of_lt (hlt j)] at this
  omega

/-- The constraints can be met, with any 27 power-up bytes. -/
theorem Params.cfgTest_ok (bytes : List Byte) (h : bytes.length = 27) : (Params.cfgTest bytes).ok = true := by
  have hstore : (Params.cfgTest bytes).storeOk = true := by simp [Params.storeOk, Params.storeSize, Params.cfgTest, h]
  have hrest : (Params.cfgTest []).rolesOk = true ∧ (Params.cfgTest []).masksOk = true ∧ (Params.cfgTest []).bandsOk = true ∧
      (Params.cfgTest []).hostOk = true := by decide +kernel
  obtain ⟨hroles, hmasks, hbands, hhost⟩ := hrest
  simp only [Params.ok, hstore, Params.cfgTest_chanOk, Bool.and_eq_true]
  exact ⟨⟨⟨⟨⟨hroles, hmasks⟩, hbands⟩, trivial⟩, hhost⟩, trivial⟩

/-- A configuration `CFG` (R9): parameters that meet the constraints. The field defaults only show that there is one. -/
structure Config where
  params : Params := Params.cfgTest Params.blankStore
  ok : params.ok = true := by exact Params.cfgTest_ok _ rfl
deriving DecidableEq, Repr, Inhabited

/-- `CFG_TEST` (R10) as a configuration. No claim about the hardware. -/
def Config.cfgTest (bytes : List Byte) (h : bytes.length = 27) : Config := ⟨.cfgTest bytes, Params.cfgTest_ok bytes h⟩

/-- The configuration of THE machine: some configuration that meets the constraints, unknown to every proof (R9: a
model "proves nothing that depends on a particular value unless the claim names it"; log 1). -/
opaque Config.machine : Config

/-- The level of the lock-status line at the `n`-th sample, where `State.lockLine` does not give it: a free value (R161:
"takes every sampled bit as a free input"; log 8). -/
opaque Config.freeLockBit : Nat → Bool

end Sys2Proof
end

