-- ==== Sys2Proof/Machine/State.lean ====
section
/-! DEFINITION. The state of the machine (spec/10_state.md R20), its events (spec/00_scope.md R15), why a step can
stop, and the state after reset (R38). -/

namespace Sys2Proof.Machine

/-- An output line (R30). -/
inductive Line where
  | data | clk | latch
deriving DecidableEq, Repr

/-- The levels of the three output lines (R30). -/
structure Pins where
  data : Bool
  clk : Bool
  latch : Bool
deriving DecidableEq, Repr

/-- What an observer sees (R15). -/
inductive Event where
  /-- `PIN(line, level)` -/
  | pin (line : Line) (level : Bool)
  /-- `SAMPLE(bit)` -/
  | sample (bit : Bool)
  /-- `DELAY(d)` -/
  | delay (d : Delay)
  /-- `STRD(off, byte)` -/
  | strd (off : Nat) (b : Byte)
  /-- `STWR(off, byte)` -/
  | stwr (off : Nat) (b : Byte)
  /-- `RSP(byte)` -/
  | rsp (b : Byte)
deriving DecidableEq, Repr

/-- The states of the Channel Tuning Engine (R27, R173). -/
inductive TState where
  | idle | chargePumpHigh | frequencyProgrammed | calibrationApplied
  | lockCheck | lockGood | calibrationSearch | chargePumpLow
deriving DecidableEq, Repr

/-- The Tuning Session State (R29). `none` is the spec's own "no value": each field holds a value only inside a TUNE that
has written it (R29, R38; log 12). -/
structure Session where
  chan : Option Chan
  cal : Option Cal
  cp : Option Bool      -- true = high (fast), false = low (idle)
  lock : Option Bool    -- true = locked
deriving DecidableEq, Repr

/-- The session state outside a TUNE (R29: "all discarded"). -/
def Session.empty : Session := ⟨none, none, none, none⟩

/-- The written part of the persistent store: (offset, byte) pairs, offsets rising, no entry equal to what an unlisted
offset reads as. `Memory.wf` (Machine/Ops.lean) says so. -/
abbrev Memory := List Host.Cell

/-- The state (R20), the configuration it belongs to, and the model's own record of inputs and events. -/
structure State where
  /-- `CFG` (R9): constant, no step changes it (log 1) -/
  cfg : Config
  /-- `R[0..8]`, the mirror (R21) -/
  regs : Vector Byte 9
  /-- `READY` (R26) -/
  ready : Bool
  /-- `TSTATE` (R27) -/
  tstate : TState
  /-- `BUSY` (R28) -/
  busy : Bool
  /-- `S.chan`, `S.cal`, `S.cp`, `S.lock` (R29) -/
  session : Session
  /-- `DATA`, `CLK`, `LATCH` (R30) -/
  pins : Pins
  /-- the vote counter (R32); no value outside a lock query -/
  cnt : Option (BitVec 6)
  /-- the settle timer (R32, R297); no value unless a wait is in progress -/
  timer : Option Delay
  /-- `DEV[0..15]`, what the device last latched at each address; no value where it has received nothing since it was
  powered on (R33). The CORE never reads it. -/
  dev : Vector (Option Byte) 16
  /-- `ST`, the persistent store (R35) -/
  store : Memory
  /-- `CUR_CHAN`, of the surrounding software (R261); no value before an accepted `setChannel` -/
  curChan : Option Chan
  /-- input: the command words the host will present, next first (R96, R341; log 5) -/
  commands : List CmdWord
  /-- input: the levels the lock line will show at the coming samples, next first (R31, R161; log 8) -/
  lockLine : List Bool
  /-- how many samples have been taken, the counter of the free lock bit (log 8) -/
  drawn : Nat
  /-- the event trace (R15), oldest first (log 10) -/
  trace : List Event
deriving DecidableEq, Repr

/-- Why the machine stops with a fault. There is no such reason: "No command can fault" (R290). -/
inductive Fault
deriving DecidableEq, Repr

/-- Why the machine gives no next state. Each is safe: the model stops where the spec gives no meaning. -/
inductive Refusal where
  /-- raised by an arm of `exec` whose command has no meaning yet; none is left. Safe. -/
  | notModelled (mnemonic : String)
  /-- raised by `step` for a reserved command word, and by a meaning given operands that no defined word carries (R101: "a
  model refuses them"). Safe (log 7). -/
  | reserved (why : Reserved)
  /-- raised by `step` where a command word waits while `BUSY = 1`, where "the host has no move" (R28, R328, U15). Safe
  (log 6). -/
  | portBusy
  /-- raised by the wrapper's reads of `CUR_CHAN` while it holds no value (R261, U6). Safe. -/
  | noCurrentChannel
deriving DecidableEq, Repr

/-- What the device holds after its own power-on (R33): `R_POR` at the mirrored addresses, no value above. -/
def devPowerOn (c : Config) : Vector (Option Byte) 16 :=
  c.params.rPor.map some ++ (Vector.replicate 7 none : Vector (Option Byte) 7)

/-- The state when the CORE, its device and a store that nothing has written are powered on together (R38): no command
presented, no lock level fixed, nothing recorded. -/
def State.powerOn (c : Config) : State where
  cfg := c
  regs := c.params.rPor
  ready := false
  tstate := .idle
  busy := false
  session := .empty
  pins := ⟨false, false, false⟩
  cnt := none
  timer := none
  dev := devPowerOn c
  store := []
  curChan := none
  commands := []
  lockLine := []
  drawn := 0
  trace := []

/-- The machine right after reset (R38, R320), for the unknown configuration `Config.machine`. -/
def State.reset : State := State.powerOn Config.machine

end Sys2Proof.Machine
end

