-- ==== Sys2Proof/Machine/Operands.lean ====
section
/-! DEFINITION. Operand forms: the bits of a wire frame (spec/30_encoding.md R90), the address of a mirrored register,
the packed table's offset and shift (spec/20_memory.md R63), the composed register values (R95, R172) and the default
calibration table (R67). -/

namespace Sys2Proof.Machine

/-- The bits of a value, least significant first: the order on the wire (R69, R90). -/
def bitsLsb (n : Nat) (v : BitVec n) : List Bool := (List.range n).map v.getLsbD

/-- The twelve data bits of a frame in slot order `t0..t11` (R90): address, then value. -/
def frameBits (a : Addr) (v : Byte) : List Bool := bitsLsb 4 a ++ bitsLsb 8 v

/-- The device address of a mirrored register (R61: addresses 0..8 are the mirrored registers). -/
def addrOf (r : RegIdx) : Addr := BitVec.ofNat 4 r.val

/-- The mirror element of a device address, if it has one (R25, R61). -/
def mirrorIdx (a : Addr) : Option RegIdx :=
  if h : a.toNat < 9 then some ⟨a.toNat, h⟩ else none

/-- The channel a `d` operand names, if it is in range (R99, R171). -/
def chanOf (d : Byte) : Option Chan :=
  if h : d.toNat < 103 then some ⟨d.toNat, h⟩ else none

/-- `CalOff(c) = CAL_BASE + (c >> 2)` (R63). -/
def calOff (p : Params) (c : Chan) : Nat := p.calBase + (c.val >>> 2)

/-- `CalShift(c) = (c & 3) << 1` (R63). -/
def calShift (c : Chan) : Nat := (c.val &&& 3) <<< 1

/-- The 2-bit field of a channel in its packed byte: `(b >> CalShift(c)) & 3` (R65). -/
def calField (c : Chan) (b : Byte) : Cal := (b >>> calShift c).extractLsb' 0 2

/-- The packed byte with one channel's field replaced: `(b & ~(3 << CalShift(c))) | (v << CalShift(c))` (R66). -/
def calInsert (c : Chan) (v : Cal) (b : Byte) : Byte :=
  (b &&& ~~~((3 : Byte) <<< calShift c)) ||| (v.setWidth 8 <<< calShift c)

/-- `DefCal(c)` (R67), for any number: 103, the pad field, falls in the top band and gives 0. -/
def defCal (p : Params) (c : Nat) : Cal :=
  if p.b0 ≤ c then 0 else if p.b1 ≤ c then 1 else if p.b2 ≤ c then 2 else 3

/-- `DefByte(k) = DefCal(4k) | DefCal(4k+1) << 2 | DefCal(4k+2) << 4 | DefCal(4k+3) << 6` (R67). -/
def defByte (p : Params) (k : Nat) : Byte :=
  (defCal p (4 * k)).setWidth 8 ||| (defCal p (4 * k + 1)).setWidth 8 <<< 2 |||
  (defCal p (4 * k + 2)).setWidth 8 <<< 4 ||| (defCal p (4 * k + 3)).setWidth 8 <<< 6

/-- The low byte of a divider (R94). -/
def divLow (div : BitVec 16) : Byte := div.extractLsb' 0 8

/-- The high byte of a divider (R94). -/
def divHigh (div : BitVec 16) : Byte := div.extractLsb' 8 8

/-- `R[REG_CP]` with the charge-pump bits replaced: `(r & ~CP_MASK) | setting` (R172, D8). -/
def withChargePump (p : Params) (setting r : Byte) : Byte := (r &&& ~~~p.cpMask) ||| setting

/-- `R[REG_CAL]` with the calibration field replaced: `(r & 0xFC) | v` (R95). -/
def withCalField (v : Cal) (r : Byte) : Byte := (r &&& 0xFC) ||| v.setWidth 8

/-- `zext_8` of a bit, the response of HASLOCK (R100, R162). -/
def boolByte (b : Bool) : Byte := if b then 1 else 0

end Sys2Proof.Machine
end

