-- ==== Sys2Proof/Machine/Flags.lean ====
section
/-! DEFINITION. What plays the part of flags (spec/10_state.md R36): the predicates computed from the mirror, the vote
of the lock detector (spec/42_lock_detector.md R162, R163) and the encoding of `TSTATE` (R27). The CORE has no
condition-code register and no carry or overflow. -/

namespace Sys2Proof.Machine

/-- `R[i]` (R12). -/
def State.reg (s : State) (i : RegIdx) : Byte := s.regs[i.val]

/-- The device is powered on: `(R[REG_PWR] & PWR_MASK) != 0` (R36, R174). -/
def State.poweredOn (s : State) : Bool :=
  s.reg s.cfg.params.regPwr &&& s.cfg.params.pwrMask != 0

/-- The active calibration value, `R[REG_CAL][1:0]` (R95). -/
def State.activeCal (s : State) : Cal := (s.reg s.cfg.params.regCal).extractLsb' 0 2

/-- Calibration value `v` is active: `R[REG_CAL][1:0] = v` (R36). -/
def State.calActive (s : State) (v : Cal) : Bool := s.activeCal == v

/-- The vote: strictly more than 25 high samples (R162, R163). -/
def voteOf (cnt : BitVec 6) : Bool := Config.maj < cnt

/-- `cnt + SampleLock()` (R162). -/
def countSample (cnt : BitVec 6) (b : Bool) : BitVec 6 := cnt + (BitVec.ofBool b).setWidth 6

/-- The 3-bit encoding of `TSTATE` (R27). -/
def TState.code : TState → BitVec 3
  | .idle => 0
  | .chargePumpHigh => 1
  | .frequencyProgrammed => 2
  | .calibrationApplied => 3
  | .lockCheck => 4
  | .lockGood => 5
  | .calibrationSearch => 6
  | .chargePumpLow => 7

end Sys2Proof.Machine
end

