-- ==== Sys2Proof/Machine/Ops.lean ====
section
/-! DEFINITION. The shared operations: the store (spec/20_memory.md R62 to R67), the pins and frames (spec/40_wire_driver.md
R121, R125), the mirror (spec/41_register_model.md R141), the lock line and its vote (spec/42_lock_detector.md R161,
R162), waits and responses (spec/00_scope.md R14). The hardware takes no exception (spec/60_exceptions.md R290, R296), so
there is no operation that enters or leaves one. -/

namespace Sys2Proof.Machine

/-! ## One home for each field that operations write -/

/-- Append one event to the trace (R15). -/
def State.emit (e : Event) (s : State) : State := { s with trace := s.trace ++ [e] }

/-- `R[i] <- v` (R12). Only `setReg` calls it (R22). -/
def State.putMirror (i : RegIdx) (v : Byte) (s : State) : State := { s with regs := s.regs.set i.val v }

/-- `DEV[a] <- v` (R33). Only `wireWrite` calls it. -/
def State.putDev (a : Addr) (v : Byte) (s : State) : State := { s with dev := s.dev.set a.toNat (some v) }

/-- `READY <- f` (R26). -/
def State.putReady (f : Bool) (s : State) : State := { s with ready := f }

/-- `TSTATE <- t` (R27). -/
def State.putTState (t : TState) (s : State) : State := { s with tstate := t }

/-- Write the session state (R29). -/
def State.putSession (x : Session) (s : State) : State := { s with session := x }

/-- `BUSY <- f` (R28). -/
def State.putBusy (f : Bool) (s : State) : State := { s with busy := f }

/-- Write or discard the vote counter (R32). -/
def State.putCnt (c : Option (BitVec 6)) (s : State) : State := { s with cnt := c }

/-- Start or clear the settle timer (R32, R297). -/
def State.putTimer (d : Option Delay) (s : State) : State := { s with timer := d }

/-- `CUR_CHAN <- c` (R261). Only the wrapper calls it. -/
def State.putCurChan (c : Chan) (s : State) : State := { s with curChan := some c }

/-! ## The persistent store as plain data -/

/-- What a list of cells holds at an offset, `dflt` giving what is not listed. -/
def Memory.read (dflt : Nat → Byte) : Memory → Nat → Byte
  | [], a => dflt a
  | c :: m, a => if c.1 = a then c.2 else Memory.read dflt m a

/-- List a cell at its place, replacing what was listed there. -/
def Memory.insert (a : Nat) (b : Byte) : Memory → Memory
  | [] => [(a, b)]
  | c :: m => if a < c.1 then (a, b) :: c :: m else if c.1 = a then (a, b) :: m else c :: Memory.insert a b m

/-- List nothing at an offset. -/
def Memory.erase (a : Nat) : Memory → Memory
  | [] => []
  | c :: m => if c.1 = a then m else c :: Memory.erase a m

/-- Write one byte, keeping the canonical form: a byte equal to what an unlisted offset reads as is not listed. -/
def Memory.write (dflt : Nat → Byte) (m : Memory) (a : Nat) (b : Byte) : Memory :=
  if b = dflt a then Memory.erase a m else Memory.insert a b m

/-- The canonical form: offsets strictly rising and inside a store of `size` bytes, no entry equal to what an unlisted
offset reads as. -/
abbrev Memory.wf (dflt : Nat → Byte) (size : Nat) (m : Memory) : Prop :=
  m.Pairwise (fun x y => x.1 < y.1) ∧ ∀ c ∈ m, c.1 < size ∧ c.2 ≠ dflt c.1

/-- `ST[off]` (R35): the byte of the last write, or the power-up byte (R64, D23). -/
def State.storeByte (s : State) (off : Nat) : Byte := Memory.read s.cfg.params.powerUpByte s.store off

/-- `ST[off] <- b`, without its event. -/
def State.putStore (off : Nat) (b : Byte) (s : State) : State :=
  { s with store := Memory.write s.cfg.params.powerUpByte s.store off b }

/-- `MemRead(off, 1)` (R64): the byte, and its `STRD` event. -/
def memRead (off : Nat) (s : State) : Byte × State :=
  (s.storeByte off, s.emit (.strd off (s.storeByte off)))

/-- `MemWrite(off, 1, b)` (R64): the write, and its `STWR` event. -/
def memWrite (off : Nat) (b : Byte) (s : State) : State := (s.putStore off b).emit (.stwr off b)

/-- `CalRead(c)` (R65). -/
def calRead (c : Chan) (s : State) : Cal × State :=
  match memRead (calOff s.cfg.params c) s with
  | (b, t) => (calField c b, t)

/-- `CalWrite(c, v)` (R66): one read, one write. -/
def calWrite (c : Chan) (v : Cal) (s : State) : State :=
  match memRead (calOff s.cfg.params c) s with
  | (b, t) => memWrite (calOff s.cfg.params c) (calInsert c v b) t

/-- The table writes of `StReset` from byte `k`, `n` of them, ascending (R237). -/
def writeDefaults : Nat → Nat → State → State
  | 0, _, s => s
  | n + 1, k, s => writeDefaults n (k + 1) (memWrite (s.cfg.params.calBase + k) (defByte s.cfg.params k) s)

/-- `StReset()` (R237): the marker first, then every packed byte. -/
def stReset (s : State) : State :=
  writeDefaults Config.calBytes 0 (memWrite s.cfg.params.markerOff s.cfg.params.markerVal s)

/-! ## Pins and frames -/

/-- The levels after driving one line. -/
def Pins.drive (line : Line) (level : Bool) (p : Pins) : Pins :=
  match line with
  | .data => { p with data := level }
  | .clk => { p with clk := level }
  | .latch => { p with latch := level }

/-- `PinWrite(line, level)` (R14): the level, and its `PIN` event even where it does not change (R15). -/
def pinWrite (line : Line) (level : Bool) (s : State) : State :=
  { s with pins := s.pins.drive line level }.emit (.pin line level)

/-- Several pin writes, in order. -/
def pinWrites : List (Line × Bool) → State → State
  | [], s => s
  | w :: ws, s => pinWrites ws (pinWrite w.1 w.2 s)

/-- One bit slot: the bit, then a clock strobe (R91). -/
def slot (b : Bool) : List (Line × Bool) := [(.data, b), (.clk, true), (.clk, false)]

/-- `WireWrite(a, v)` (R121): twelve slots, then the latch strobe, at whose rise the device has the frame. -/
def wireWrite (a : Addr) (v : Byte) (s : State) : State :=
  pinWrite .latch false <| State.putDev a v <| pinWrite .latch true <| pinWrites ((frameBits a v).flatMap slot) s

/-- `FRAME(a, v)` (R15, R121): the 38 events of one frame. -/
def frame (a : Addr) (v : Byte) : List Event :=
  (frameBits a v).flatMap (fun b => [.pin .data b, .pin .clk true, .pin .clk false]) ++
  [.pin .latch true, .pin .latch false]

/-- `StartCond()` (R125). -/
def startCond : List (Line × Bool) := [(.data, true), (.clk, true), (.data, false), (.clk, false)]

/-- `OneBit()` (R125). -/
def oneBit : List (Line × Bool) := [(.data, true), (.clk, true), (.clk, false)]

/-- `StopCond()` (R125). -/
def stopCond : List (Line × Bool) := [(.data, false), (.clk, true), (.data, true), (.clk, false)]

/-- The symbols `START, ONE x 26, RSTART, STOP` (R92, R124) as pin writes (R125; log 14). -/
def busReset : List (Line × Bool) :=
  startCond ++ (List.replicate Config.rstOnes oneBit).flatten ++ startCond ++ stopCond

/-- `Set(a, v)` (R141): the frame, then the mirror where the address has an element. -/
def setReg (a : Addr) (v : Byte) (s : State) : State :=
  match mirrorIdx a with
  | some i => (wireWrite a v s).putMirror i v
  | none => wireWrite a v s

/-! ## Waits, samples, responses -/

/-- The armed timer runs out: its `DELAY` event, and it holds no value (R297). -/
def State.expire (s : State) : State :=
  match s.timer with
  | some d => (s.emit (.delay d)).putTimer none
  | none => s

/-- `Wait(d)` (R14, R297): the one-shot timer is started and awaited; nothing else happens meanwhile (R74). -/
def wait (d : Delay) (s : State) : State := (s.putTimer (some d)).expire

/-- The level of the lock line at the next sample (R161): what the environment's list says, else free. -/
def State.lockLevel (s : State) : Bool :=
  match s.lockLine with
  | b :: _ => b
  | [] => Config.freeLockBit s.drawn

/-- `SampleLock()` (R14, R161): the bit, and its `SAMPLE` event. -/
def sampleLock (s : State) : Bool × State :=
  (s.lockLevel, { s with lockLine := s.lockLine.tail, drawn := s.drawn + 1 }.emit (.sample s.lockLevel))

/-- `n` iterations of the query's loop (R162): count a sample, then wait. -/
def sampleLoop : Nat → BitVec 6 → State → BitVec 6 × State
  | 0, cnt, s => (cnt, s)
  | n + 1, cnt, s =>
    match sampleLock s with
    | (b, t) => sampleLoop n (countSample cnt b) (wait .tSample (t.putCnt (some (countSample cnt b))))

/-- `HasLock()` (R162): the counter is cleared, 50 samples counted, the vote taken once, the counter discarded (R32). -/
def hasLock (s : State) : Bool × State :=
  match sampleLoop Config.nSamples 0 (s.putCnt (some 0)) with
  | (cnt, t) => (voteOf cnt, t.putCnt none)

/-- `Rsp(v)` (R14, R100). -/
def respond (v : Byte) (s : State) : State := s.emit (.rsp v)

end Sys2Proof.Machine
end

