-- ==== Sys2Proof/Machine/LockDetector.lean ====
section
/-! DEFINITION. The command of the Lock Detector: HASLOCK (spec/42_lock_detector.md R162). -/

namespace Sys2Proof.Machine

/-- HASLOCK (R162): 50 samples, one vote, the response 0x01 or 0x00. -/
def execHaslock (s : State) : Host.Outcome State Fault Refusal :=
  .next (respond (boolByte (hasLock s).1) (hasLock s).2)

end Sys2Proof.Machine
end

