-- ==== Sys2Proof/Machine/PersistentStore.lean ====
section
/-! DEFINITION. The store commands and the bring-up flag: CALRD, CALWR, STINIT, SETRDY (spec/45_persistent_store.md R234
to R238). A number that is no channel is refused where the spec reserves it (R101). -/

namespace Sys2Proof.Machine

/-- CALRD d (R234). -/
def execCalrd (d : Byte) (s : State) : Host.Outcome State Fault Refusal :=
  match chanOf d with
  | some c => .next (respond ((calRead c s).1.setWidth 8) (calRead c s).2)
  | none => .refused (.reserved .channel)

/-- CALWR v, d (R235). -/
def execCalwr (v : Cal) (d : Byte) (s : State) : Host.Outcome State Fault Refusal :=
  match chanOf d with
  | some c => .next (calWrite c v s)
  | none => .refused (.reserved .channel)

/-- The validity check (R68, R236): one read of the marker, and the reset procedure where it does not match. -/
def stInit (s : State) : State :=
  match memRead s.cfg.params.markerOff s with
  | (m, t) => if m = s.cfg.params.markerVal then t else stReset t

/-- STINIT (R236). -/
def execStinit (s : State) : Host.Outcome State Fault Refusal :=
  .next (stInit s)

/-- SETRDY f (R238). -/
def execSetrdy (f : Bool) (s : State) : Host.Outcome State Fault Refusal :=
  .next (s.putReady f)

end Sys2Proof.Machine
end

