-- ==== Sys2Proof/Machine/RegisterModel.lean ====
section
/-! DEFINITION. The commands of the Register Model: SET, GET, SETBITS, CLRBITS (spec/41_register_model.md R142 to
R145). An address without a mirror element is refused where the spec reserves it (R101). -/

namespace Sys2Proof.Machine

/-- SET a, d (R142). -/
def execSet (a : Addr) (d : Byte) (s : State) : Host.Outcome State Fault Refusal :=
  .next (setReg a d s)

/-- GET a (R143): the response is the mirrored value. -/
def execGet (a : Addr) (s : State) : Host.Outcome State Fault Refusal :=
  match mirrorIdx a with
  | some i => .next (respond (s.reg i) s)
  | none => .refused (.reserved .mirrorIndex)

/-- SETBITS a, d (R144): `Set(a, R[a] | d)`. -/
def execSetbits (a : Addr) (d : Byte) (s : State) : Host.Outcome State Fault Refusal :=
  match mirrorIdx a with
  | some i => .next (setReg a (s.reg i ||| d) s)
  | none => .refused (.reserved .mirrorIndex)

/-- CLRBITS a, d (R145): `Set(a, R[a] & ~d)`. -/
def execClrbits (a : Addr) (d : Byte) (s : State) : Host.Outcome State Fault Refusal :=
  match mirrorIdx a with
  | some i => .next (setReg a (s.reg i &&& ~~~d) s)
  | none => .refused (.reserved .mirrorIndex)

end Sys2Proof.Machine
end

