-- ==== Sys2Proof/Machine/Calibration.lean ====
section
/-! DEFINITION. Calibration apply and Calibration Search (spec/44_calibration.md R200 to R207). -/

namespace Sys2Proof.Machine

/-- `ApplyCal(v)` (R201): nothing where `v` is active; else the register, upper bits kept, then the settle. -/
def applyCal (v : Cal) (s : State) : State :=
  if s.calActive v then s
  else
    let r := s.cfg.params.regCal
    wait .tApply (setReg (addrOf r) (withCalField v (s.reg r)) s)

/-- CALAPPLY v (R200). -/
def execCalapply (v : Cal) (s : State) : Host.Outcome State Fault Refusal :=
  .next (applyCal v s)

/-- `S.lock <- HasLock()` (R172, R203). -/
def lockQuery (s : State) : State :=
  match hasLock s with
  | (b, t) => t.putSession { t.session with lock := some b }

/-- What a trial does before its decision (R203, R204): apply, settle always, then vote. -/
def trial (v : Cal) (s : State) : State := lockQuery (wait .tSearch (applyCal v s))

/-- What the first successful trial commits (R203, R205): the winning value, to `S.cal` and to the table. -/
def commit (c : Chan) (v : Cal) (s : State) : State :=
  calWrite c v (s.putSession { s.session with cal := some v })

/-- `CalSearch(c)` over the trial values still to come (R203): first success wins; after the last failure nothing more is
done (R206). -/
def calSearch (c : Chan) : List Cal → State → State
  | [], s => s
  | v :: vs, s =>
    if (trial v s).session.lock = some true then commit c v (trial v s) else calSearch c vs (trial v s)

end Sys2Proof.Machine
end

