-- ==== Sys2Proof/Machine/TuningEngine.lean ====
section
/-! DEFINITION. The Channel Tuning Engine: TUNE by its seven steps (spec/43_tuning_engine.md R171, R172), and beside it
the state machine the same rules describe (R173), one transition at a time. -/

namespace Sys2Proof.Machine

/-- `Set(REG_CP, (R[REG_CP] & ~CP_MASK) | setting)` (R172 steps 3 and 7): always sent (D8). -/
def setChargePump (setting : Byte) (s : State) : State :=
  let r := s.cfg.params.regCp
  setReg (addrOf r) (withChargePump s.cfg.params setting (s.reg r)) s

/-- Step 2 (R172): `S.chan` and `S.cal`; one store read. -/
def tuneLookUp (c : Chan) (s : State) : State :=
  match calRead c (s.putSession { s.session with chan := some c }) with
  | (v, t) => t.putSession { t.session with cal := some v }

/-- Step 3 (R172): charge pump to "fast settle". -/
def tuneRaise (s : State) : State :=
  let t := setChargePump s.cfg.params.cpFast s
  (t.putSession { t.session with cp := some true }).putTState .chargePumpHigh

/-- Step 4 (R172): the divider, low byte then high byte. -/
def tuneProgram (c : Chan) (s : State) : State :=
  let div := s.cfg.params.chanDiv[c.val]
  let lo := setReg (addrOf s.cfg.params.regFlo) (divLow div) s
  (setReg (addrOf lo.cfg.params.regFhi) (divHigh div) lo).putTState .frequencyProgrammed

/-- Step 5 (R172): the looked-up calibration value. -/
def tuneApply (v : Cal) (s : State) : State := (applyCal v s).putTState .calibrationApplied

/-- The vote of step 6 (R172), `TSTATE` being `LockCheck` meanwhile, and the state its result leads to (R173). -/
def tuneVote (s : State) : State :=
  let t := lockQuery s
  t.putTState (if t.session.lock = some true then .lockGood else .calibrationSearch)

/-- The search of step 6 (R172, R176), entered once where `S.lock` is not 1. -/
def tuneSearch (c : Chan) (s : State) : State :=
  if s.session.lock = some true then s else calSearch c Config.sweep s

/-- Step 6 (R172, R174): only when powered on. -/
def tuneCheck (c : Chan) (s : State) : State :=
  if s.poweredOn then tuneSearch c (tuneVote (s.putTState .lockCheck)) else s

/-- Step 7 (R172): charge pump back to "idle/low-power". -/
def tuneLower (s : State) : State :=
  let t := setChargePump s.cfg.params.cpIdle s
  (t.putSession { t.session with cp := some false }).putTState .chargePumpLow

/-- Back to `Idle` (R172); the session state is discarded (R29; log 16). -/
def tuneDone (s : State) : State := (s.putTState .idle).putSession .empty

/-- `Tune(c)` after its guard (R172); the value step 5 applies is the one step 2 put in `S.cal`. -/
def tuneAccepted (c : Chan) (s : State) : State :=
  tuneDone <| tuneLower <| tuneCheck c <| tuneApply (calRead c s).1 <| tuneProgram c <| tuneRaise <| tuneLookUp c s

/-- `Tune(d)` (R171, R172): a silent no-op unless `READY = 1` and `d` is a channel. -/
def tune (d : Byte) (s : State) : State :=
  match chanOf d with
  | some c => if s.ready then tuneAccepted c s else s
  | none => s

/-- TUNE d (R170). -/
def execTune (d : Byte) (s : State) : Host.Outcome State Fault Refusal :=
  .next (tune d s)

/-! ## The state machine of R173 -/

/-- The transition out of `Idle` that an accepted TUNE takes (R173). -/
def tuneEnter (c : Chan) (s : State) : State := tuneRaise (tuneLookUp c s)

/-- One transition of R173 from any other state; `Idle` waits for a command. The channel and the calibration value are
read from the session state. -/
def tuneAdvance (s : State) : State :=
  match s.session.chan, s.session.cal with
  | some c, some v =>
    match s.tstate with
    | .idle => s
    | .chargePumpHigh => tuneProgram c s
    | .frequencyProgrammed => tuneApply v s
    | .calibrationApplied => if s.poweredOn then s.putTState .lockCheck else tuneLower s
    | .lockCheck => tuneVote s
    | .lockGood => tuneLower s
    | .calibrationSearch => tuneLower (calSearch c Config.sweep s)
    | .chargePumpLow => tuneDone s
  | _, _ => s

/-- `n` transitions. -/
def tuneRun : Nat → State → State
  | 0, s => s
  | n + 1, s => tuneRun n (tuneAdvance s)

end Sys2Proof.Machine
end

