-- ==== Sys2Proof/Machine/WireDriver.lean ====
section
/-! DEFINITION. The commands of the Wire Protocol Driver: WRREG and RSTBUS (spec/40_wire_driver.md R122, R124). -/

namespace Sys2Proof.Machine

/-- WRREG a, d (R122): one frame; the mirror is not written, for any `a`. -/
def execWrreg (a : Addr) (d : Byte) (s : State) : Host.Outcome State Fault Refusal :=
  .next (wireWrite a d s)

/-- RSTBUS (R124): the bus-reset framing; it writes the pins only. -/
def execRstbus (s : State) : Host.Outcome State Fault Refusal :=
  .next (pinWrites busReset s)

end Sys2Proof.Machine
end

