-- ==== Sys2Proof/Machine/Dispatch.lean ====
section
/-! DEFINITION. From a command to its meaning: one arm per constructor (spec/30_encoding.md R98). -/

namespace Sys2Proof.Machine

def exec (i : Instr) (s : State) : Host.Outcome State Fault Refusal :=
  match i with
  | .wrreg a d => Sys2Proof.Machine.execWrreg a d s
  | .rstbus => Sys2Proof.Machine.execRstbus s
  | .set a d => Sys2Proof.Machine.execSet a d s
  | .get a => Sys2Proof.Machine.execGet a s
  | .setbits a d => Sys2Proof.Machine.execSetbits a d s
  | .clrbits a d => Sys2Proof.Machine.execClrbits a d s
  | .haslock => Sys2Proof.Machine.execHaslock s
  | .tune d => Sys2Proof.Machine.execTune d s
  | .calapply v => Sys2Proof.Machine.execCalapply v s
  | .calrd d => Sys2Proof.Machine.execCalrd d s
  | .calwr v d => Sys2Proof.Machine.execCalwr v d s
  | .stinit => Sys2Proof.Machine.execStinit s
  | .setrdy f => Sys2Proof.Machine.execSetrdy f s

end Sys2Proof.Machine
end

