-- ==== Sys2Proof/Machine/Step.lean ====
section
/-! DEFINITION. One step: the CORE takes the next command word the host presents and executes it to completion
(spec/00_scope.md R17, spec/10_state.md R28, spec/30_encoding.md R96). There is no program counter and no fetch (R27, R77). -/

namespace Sys2Proof.Machine

/-- Execute one command between the rise and the fall of `BUSY` (R28, R96). It does not test `BUSY`: `step` does, before it. The operations
of the surrounding software call it directly, so that one called while `BUSY = 1`, where the host has no move (U15, R328), runs and
lowers `BUSY` (DESIGN CHOICE, log 6). -/
def serve (i : Instr) (s : State) : Host.Outcome State Fault Refusal :=
  match exec i (s.putBusy true) with
  | .next t => .next (t.putBusy false)
  | .fault r => .fault r
  | .refused r => .refused r

/-- One step. With no command presented the CORE stays idle (R323). A word that waits while `BUSY = 1` is no move of the
host (R328; log 6). A reserved word is refused before any state is touched (R101, R294). -/
def step (s : State) : Host.Outcome State Fault Refusal :=
  match s.commands with
  | [] => .next s
  | w :: rest =>
    if s.busy then .refused .portBusy
    else
      match decode w with
      | .ok i => serve i { s with commands := rest }
      | .error why => .refused (.reserved why)

/-- `s` with a command word presented next and the port free: what the host's move amounts to (R28, R96; log 5). -/
def State.withFetchWord (s : State) (nbits w : Nat) : State :=
  { s with commands := tableWord nbits w :: s.commands, busy := false }

end Sys2Proof.Machine
end

