-- ==== Sys2Proof/Machine/Environment.lean ====
section
/-! DEFINITION. What can happen to the machine from outside, between steps: reset of the CORE (spec/70_reset_and_hazards.md
R320, R321), a reset of the device that the CORE does not share (R331), power loss (R336). `step` takes none of them. To
say what a cut-off command leaves behind, events are replayed: frames into the device (R90, R91), `STWR` events into the
store (R78). -/

namespace Sys2Proof.Machine

/-- Reset of the CORE (R38, R320, R321): every element of the CORE at its reset value; the device and the store keep
theirs; nothing is sent. The environment's inputs and the record stay (log 18). -/
def coreReset (s : State) : State :=
  { State.powerOn s.cfg with
    dev := s.dev, store := s.store, commands := s.commands, lockLine := s.lockLine, drawn := s.drawn, trace := s.trace }

/-- The device is reset or power cycled out of band (R331): the CORE does not notice. -/
def deviceReset (s : State) : State := { s with dev := devPowerOn s.cfg }

/-! ## Replaying events -/

/-- The unsigned number of a list of bits, least significant first. -/
def natOfBits : List Bool → Nat
  | [] => 0
  | b :: bs => b.toNat + 2 * natOfBits bs

/-- What stands on the far side of the wire: line levels, the bits clocked in since the last latch (oldest first), and
what was latched. That it takes the last twelve bits is DEDUCED from R90 and R91 (log 20). -/
structure Receiver where
  pins : Pins
  shift : List Bool
  dev : Vector (Option Byte) 16
deriving DecidableEq, Repr

/-- Latch the last twelve bits: the address, then the value (R90); fewer than twelve latch nothing. -/
def Receiver.latch (r : Receiver) : Receiver :=
  if r.shift.length < 12 then { r with shift := [] }
  else
    let bits := r.shift.drop (r.shift.length - 12)
    { r with
      shift := []
      dev := r.dev.set (BitVec.ofNat 4 (natOfBits (bits.take 4))).toNat (some (BitVec.ofNat 8 (natOfBits (bits.drop 4)))) }

/-- One event at the receiver: a rising clock takes the data bit, a rising latch ends the transfer (R91). -/
def Receiver.event (e : Event) (r : Receiver) : Receiver :=
  match e with
  | .pin line level =>
    let moved := { r with pins := r.pins.drive line level }
    match line, level with
    | .clk, true => if r.pins.clk then moved else { moved with shift := r.shift ++ [r.pins.data] }
    | .latch, true => if r.pins.latch then moved else moved.latch
    | _, _ => moved
  | _ => r

/-- Events in order at the receiver. -/
def Receiver.events : List Event → Receiver → Receiver
  | [], r => r
  | e :: es, r => Receiver.events es (r.event e)

/-- The store after the `STWR` events of a list, in order (R78). -/
def replayStore (dflt : Nat → Byte) : List Event → Memory → Memory
  | [], m => m
  | .stwr off b :: es, m => replayStore dflt es (Memory.write dflt m off b)
  | _ :: es, m => replayStore dflt es m

/-- How many samples a list of events took. -/
def sampleCount : List Event → Nat
  | [] => 0
  | .sample _ :: es => sampleCount es + 1
  | _ :: es => sampleCount es

/-- Power is lost after the first `n` events of command `i` (R336): those events and no others have happened; the CORE then
resets; the device keeps what it latched, or loses it too (`deviceToo`). -/
def powerLoss (deviceToo : Bool) (i : Instr) (n : Nat) (s : State) : Host.Outcome State Fault Refusal :=
  match exec i s with
  | .next t =>
    let evs := (t.trace.drop s.trace.length).take n
    let k := sampleCount evs
    let cut : State :=
      { s with
        store := replayStore s.cfg.params.powerUpByte evs s.store
        dev := (Receiver.events evs ⟨s.pins, [], s.dev⟩).dev
        lockLine := s.lockLine.drop k
        drawn := s.drawn + k
        trace := s.trace ++ evs }
    .next (coreReset (if deviceToo then deviceReset cut else cut))
  | .fault r => .fault r
  | .refused r => .refused r

end Sys2Proof.Machine
end

