-- ==== Sys2Proof/Machine/Wrapper.lean ====
section
/-! DEFINITION. The pseudo-operations of the surrounding software (spec/46_host_wrappers.md R260 to R270) and the bring-up
sequence (spec/70_reset_and_hazards.md R326), as sequences of host commands, and a run (R341). They have no command word (R105). The
register writes the source does not give are `Params.host` (log 17, log 25). No operation looks at `BUSY` (log 6). -/

namespace Sys2Proof.Machine

/-- Go on from a next state. -/
def andThen (o : Host.Outcome State Fault Refusal) (k : State → Host.Outcome State Fault Refusal) :
    Host.Outcome State Fault Refusal :=
  match o with
  | .next s => k s
  | .fault r => .fault r
  | .refused r => .refused r

/-- Issue commands one after another, each to completion (R17, R341). `BUSY` is not tested: the host issues a command only while it is 0
(R28), and a list issued from a state with `BUSY = 1` runs all the same (DESIGN CHOICE, log 6). -/
def issueAll : List Instr → State → Host.Outcome State Fault Refusal
  | [], s => .next s
  | i :: is, s => andThen (serve i s) (issueAll is)

/-- `n` steps, one after another. -/
def runSteps : Nat → State → Host.Outcome State Fault Refusal
  | 0, s => .next s
  | n + 1, s => andThen (step s) (runSteps n)

/-- A run (spec/70_reset_and_hazards.md R341): the host presents the words of a finite list one after another, each to completion;
the samples are those `s` holds for it. -/
def run (ws : List CmdWord) (s : State) : Host.Outcome State Fault Refusal :=
  runSteps ws.length { s with commands := ws }

/-- `setChannel(n)` (R262): out-of-range ignored; `CUR_CHAN` follows an accepted TUNE only. -/
def setChannel (n : Nat) (s : State) : Host.Outcome State Fault Refusal :=
  if h : n < 103 then
    andThen (serve (.tune (BitVec.ofNat 8 n)) s) fun t => .next (if t.ready then t.putCurChan ⟨n, h⟩ else t)
  else .next s

/-- The channel of a frequency in units of 0.1 MHz (R263): unsigned division, remainder dropped. -/
def channelOf (f : Nat) : Nat := (f - Config.fBase) / Config.fStep

/-- `setFrequency(f)` (R263). -/
def setFrequency (f : Nat) (s : State) : Host.Outcome State Fault Refusal :=
  if f < Config.fBase then .next s else setChannel (channelOf f) s

/-- The frequency of a channel in units of 0.1 MHz (R34, R264). -/
def frequencyOf (c : Chan) : Nat := Config.fBase + Config.fStep * c.val

/-- `getFrequency()` (R264); refused while `CUR_CHAN` holds no value (R261, U6). -/
def getFrequency (s : State) : Except Refusal Nat :=
  match s.curChan with
  | some c => .ok (frequencyOf c)
  | none => .error .noCurrentChannel

/-- `channelUp()` (R265): clamped, no command at the top. -/
def channelUp (s : State) : Host.Outcome State Fault Refusal :=
  match s.curChan with
  | some c => if c.val < 102 then setChannel (c.val + 1) s else .next s
  | none => .refused .noCurrentChannel

/-- `channelDown()` (R265): clamped, no command at 0. -/
def channelDown (s : State) : Host.Outcome State Fault Refusal :=
  match s.curChan with
  | some c => if 0 < c.val then setChannel (c.val - 1) s else .next s
  | none => .refused .noCurrentChannel

/-- Nine SETs of given values, ascending: R326 says that this order satisfies every rule, the spec fixes none (log 17). -/
def pushAll (vals : Vector Byte 9) : List Instr :=
  (List.finRange 9).map fun i => .set (addrOf i) vals[i.val]

/-- The full re-push (R268, R331): all nine registers from the mirror, `SET i, R[i]`. R146 has the host obtain the nine values by `GET i`;
that they are taken from the mirror here and no GET is issued, so that no `RSP` appears, is the model's choice (DESIGN CHOICE, log 24). -/
def rePush (s : State) : Host.Outcome State Fault Refusal := issueAll (pushAll s.regs) s

/-- The command of one register write (R269). The value of a `setField` is composed from the mirror, without a GET (log 24). -/
def RegWrite.command (w : RegWrite) (s : State) : Instr :=
  match w with
  | .set a v => .set a v
  | .setField r mask v => .set (addrOf r) ((s.reg r &&& ~~~mask) ||| (v &&& mask))
  | .setBits r v => .setbits (addrOf r) v
  | .clrBits r v => .clrbits (addrOf r) v

/-- Register writes one after another (R268, R269). -/
def issueWrites : List RegWrite → State → Host.Outcome State Fault Refusal
  | [], s => .next s
  | w :: ws, s => andThen (serve (RegWrite.command w s) s) (issueWrites ws)

/-- `goOnline` (R268, R301): the bits it sets, which the source does not give (N10) and `Params.host` leaves open, then the re-push of
all nine registers. That the bits are set by register writes of their own, and before the re-push, is the model's choice (log 22). -/
def goOnline (s : State) : Host.Outcome State Fault Refusal := andThen (issueWrites s.cfg.params.host.online s) rePush

/-- `goOffline` (R268). -/
def goOffline (s : State) : Host.Outcome State Fault Refusal := issueWrites s.cfg.params.host.offline s

/-- `mute` (R269). -/
def mute (s : State) : Host.Outcome State Fault Refusal := issueWrites s.cfg.params.host.mute s

/-- `unMute` (R269). -/
def unMute (s : State) : Host.Outcome State Fault Refusal := issueWrites s.cfg.params.host.unMute s

/-- `setInputAttenuation(n)`, `n` in 0..2, else ignored (R269). -/
def setInputAttenuation (n : Nat) (s : State) : Host.Outcome State Fault Refusal :=
  if h : n < 3 then issueWrites s.cfg.params.host.attenuation[n] s else .next s

/-- `setTXPower(n)`, `n` in 1..3, else ignored (R269). -/
def setTXPower (n : Nat) (s : State) : Host.Outcome State Fault Refusal :=
  if h : 1 ≤ n ∧ n ≤ 3 then issueWrites s.cfg.params.host.txPower[n - 1] s else .next s

/-- The bring-up commands (R326) with the values pushed and the device commands the source does not give (N8, N9). Step 4 of R326
gives the device commands (SETs to 9..15) no place among the nine register SETs: that all of them come after the nine is the model's
choice (DESIGN CHOICE, log 23). -/
def bringUpCommands (vals : Vector Byte 9) (device : List (Addr × Byte)) : List Instr :=
  [.rstbus, .stinit] ++ pushAll vals ++ device.map (fun x => .set x.1 x.2) ++ [.setrdy true]

/-- Bring-up (R267, R326). -/
def bringUp (vals : Vector Byte 9) (device : List (Addr × Byte)) (s : State) : Host.Outcome State Fault Refusal :=
  issueAll (bringUpCommands vals device) s

end Sys2Proof.Machine
end

