-- ==== Sys2Proof/Safety.lean ====
section
/-! DEFINITION. The terms claims use: the invariants of the machine between commands, the samples a query will see, and
what of a trace is counted. -/

namespace Sys2Proof.Machine

/-- What holds whenever a command may start: no command in progress (R28), the tuning engine `Idle` with no session state
(R27, R29), no vote counter and no timer (R32), `CLK = 0` and `LATCH = 0` (R30, R126). -/
abbrev State.Quiet (s : State) : Prop :=
  s.busy = false ∧ s.tstate = .idle ∧ s.session = .empty ∧ s.cnt = none ∧ s.timer = none ∧
  s.pins.clk = false ∧ s.pins.latch = false

/-- The store is in its canonical form and inside its size (R60, R70). -/
abbrev State.StoreWf (s : State) : Prop := Memory.wf s.cfg.params.powerUpByte s.cfg.params.storeSize s.store

/-- The mirror invariant (R23): `R[i] = DEV[i]` for i in 0..8. -/
abbrev State.MirrorTrue (s : State) : Prop := ∀ i : RegIdx, s.dev[i.val]'(by omega) = some (s.reg i)

/-- The table is valid (R68). -/
abbrev State.StoreValid (s : State) : Prop := s.storeByte s.cfg.params.markerOff = s.cfg.params.markerVal

/-- The calibration value the store holds for a channel (R65). -/
def State.storedCal (s : State) (c : Chan) : Cal := calField c (s.storeByte (calOff s.cfg.params c))

/-- The bit the lock line will show at the `k`-th sample from now (R161). -/
def State.lockBit (s : State) (k : Nat) : Bool := s.lockLine.getD k (Config.freeLockBit (s.drawn + k))

/-- The next `n` samples, first one first (R161). -/
def State.samples (s : State) (n : Nat) : List Bool := (List.range n).map s.lockBit

/-- More than half of 50 samples are high (R162, R163). -/
def majority (bits : List Bool) : Bool := decide (25 < bits.count true)

/-- The samples of the `k`-th lock query from now: 50 each, none taken in between (R162). -/
def State.querySamples (s : State) (k : Nat) : List Bool := (s.samples (50 * (k + 1))).drop (50 * k)

/-- The result of the `k`-th lock query from now (R162). -/
def State.vote (s : State) (k : Nat) : Bool := majority (s.querySamples k)

/-- The value a search wins with, its four trials being the queries `k`, `k + 1`, ... from now (R203): the first success. -/
def State.winner (s : State) (k : Nat) : Option Cal :=
  if s.vote k then some 3 else if s.vote (k + 1) then some 2 else if s.vote (k + 2) then some 1
  else if s.vote (k + 3) then some 0 else none

/-- How many trials a search takes that ends so: one where 3 wins, four where 0 wins or none does (R203, R205, R206). -/
def trialsOf : Option Cal → Nat
  | some v => 4 - v.toNat
  | none => 4

/-- `VOTE`: the events of one query that sees these samples (R162). -/
def voteEvents (bits : List Bool) : List Event := bits.flatMap fun b => [.sample b, .delay .tSample]

/-- The events of one trial of value `v` that finds `b` in the calibration register and sees these samples (R203, R204): the apply, if
`v` is not active, the settle always, the vote. -/
def trialEvents (r : RegIdx) (b : Byte) (v : Cal) (bits : List Bool) : List Event :=
  (if b.setWidth 2 = v then [] else frame (addrOf r) ((b &&& 0xFC) ||| v.setWidth 8) ++ [.delay .tApply]) ++
  [.delay .tSearch] ++ voteEvents bits

/-- How many store writes a trace holds. -/
def storeWrites : List Event → Nat
  | [] => 0
  | .stwr _ _ :: es => storeWrites es + 1
  | _ :: es => storeWrites es

/-- The responses in a list of events, in order (R100). -/
def responses : List Event → List Byte
  | [] => []
  | .rsp b :: es => b :: responses es
  | _ :: es => responses es

/-- The bits sampled in a list of events, in order (R161). -/
def sampled : List Event → List Bool
  | [] => []
  | .sample b :: es => b :: sampled es
  | _ :: es => sampled es

/-- The nominal delay of a trace in microseconds (R339). -/
def delayTotal : List Event → Nat
  | [] => 0
  | .delay d :: es => d.nominal + delayTotal es
  | _ :: es => delayTotal es

/-- The events a next state added to the trace. -/
def State.since (t s : State) : List Event := t.trace.drop s.trace.length

/-- A command that may be issued without breaking the mirror (R23, R332): no WRREG below address 9. -/
def keepsMirror : Instr → Bool
  | .wrreg a _ => !mirrored a
  | _ => true

end Sys2Proof.Machine
end

