-- ==== Sys2Proof/Certificates/Slice0/Obligations.lean ====
section
/-! DEFINITION. The statements about the model. Each docstring names the rule of spec/ it formalises; where a clause rests on
a decision the spec marks as its own (D<n> of spec/92_eei_decisions.md) or on the model's choice (log n), it says so. -/

open Sys2Proof Sys2Proof.Machine

/-! ## Encoding. The command word is the spec's own decision D1. -/

/-- Decoding the word of a well-formed command gives the command back, at every operand value (R98, R104; D1). -/
def Obligations.DecodeInvertsEncode : Prop :=
  ∀ i : Instr, wellFormed i = true → decode (encode i) = .ok i

/-- A word that decodes is the word of a well-formed command: each word has one meaning (R97 to R99; D1). -/
def Obligations.EncodeInvertsDecode : Prop :=
  ∀ (w : CmdWord) (i : Instr), decode w = .ok i → wellFormed i = true ∧ encode i = w

/-- Mask, match and further condition of each of the thirteen rows (R99; D1). -/
def Obligations.WordSelectsItsRow : Prop :=
  ∀ w : CmdWord,
    ((∃ a d, decode w = .ok (.wrreg a d)) ↔ w &&& 0xF000 = 0x1000) ∧
    (decode w = .ok .rstbus ↔ w &&& 0xFFFF = 0x2000) ∧
    ((∃ a d, decode w = .ok (.set a d)) ↔ w &&& 0xF000 = 0x3000) ∧
    ((∃ a, decode w = .ok (.get a)) ↔ w &&& 0xF0FF = 0x4000 ∧ (w >>> 8).toNat % 16 ≤ 8) ∧
    ((∃ a d, decode w = .ok (.setbits a d)) ↔ w &&& 0xF000 = 0x5000 ∧ (w >>> 8).toNat % 16 ≤ 8) ∧
    ((∃ a d, decode w = .ok (.clrbits a d)) ↔ w &&& 0xF000 = 0x6000 ∧ (w >>> 8).toNat % 16 ≤ 8) ∧
    (decode w = .ok .haslock ↔ w &&& 0xFFFF = 0x7000) ∧
    ((∃ d, decode w = .ok (.tune d)) ↔ w &&& 0xFF00 = 0x8000) ∧
    ((∃ v, decode w = .ok (.calapply v)) ↔ w &&& 0xFFFC = 0x9000) ∧
    ((∃ d, decode w = .ok (.calrd d)) ↔ w &&& 0xFF00 = 0xA000 ∧ w.toNat % 256 ≤ 102) ∧
    ((∃ v d, decode w = .ok (.calwr v d)) ↔ w &&& 0xFC00 = 0xB000 ∧ w.toNat % 256 ≤ 102) ∧
    (decode w = .ok .stinit ↔ w &&& 0xFFFF = 0xC000) ∧
    ((∃ f, decode w = .ok (.setrdy f)) ↔ w &&& 0xFFFE = 0xD000)

/-- The reserved words are exactly those R101 lists (D14). -/
def Obligations.ReservedWordsRejected : Prop :=
  ∀ w : CmdWord,
    let op := w.toNat / 4096
    let a := w.toNat / 256 % 16
    let d := w.toNat % 256
    (∀ i, decode w ≠ .ok i) ↔
      (op = 0x0 ∨ op = 0xE ∨ op = 0xF) ∨
      ((op = 0x2 ∨ op = 0x7 ∨ op = 0xC) ∧ (a ≠ 0 ∨ d ≠ 0)) ∨
      (op = 0x4 ∧ d ≠ 0) ∨
      ((op = 0x8 ∨ op = 0x9 ∨ op = 0xA ∨ op = 0xD) ∧ a ≠ 0) ∨
      (op = 0x9 ∧ 4 ≤ d) ∨ (op = 0xD ∧ 2 ≤ d) ∨ (op = 0xB ∧ 4 ≤ a) ∨
      ((op = 0x4 ∨ op = 0x5 ∨ op = 0x6) ∧ 9 ≤ a) ∨
      ((op = 0xA ∨ op = 0xB) ∧ 103 ≤ d)

/-- The words R104 and the command rules write out (D1). -/
def Obligations.WrittenWordsDecode : Prop :=
  decode 0x338A = .ok (.set 3 0x8A) ∧ decode 0x800A = .ok (.tune 10) ∧ decode 0xB265 = .ok (.calwr 2 101) ∧
  decode 0x2000 = .ok .rstbus ∧ decode 0x1E05 = .ok (.wrreg 14 0x05) ∧ decode 0x4000 = .ok (.get 0) ∧
  decode 0x5004 = .ok (.setbits 0 0x04) ∧ decode 0x6003 = .ok (.clrbits 0 0x03) ∧ decode 0x7000 = .ok .haslock ∧
  decode 0x9002 = .ok (.calapply 2) ∧ decode 0xA065 = .ok (.calrd 101) ∧ decode 0xC000 = .ok .stinit ∧
  decode 0xD001 = .ok (.setrdy true)

/-! ## The step -/

/-- When the word the host presents decodes to a command, a step removes the word, raises `BUSY`, executes that command and
lowers `BUSY` (R28, R96; the list of words is the model's, log 5). -/
def Obligations.StepRunsDecodedCommand : Prop :=
  ∀ (s : State) (w : CmdWord) (rest : List CmdWord) (i : Instr),
    s.commands = w :: rest → s.busy = false → decode w = .ok i →
    step s =
      match exec i { s with commands := rest, busy := true } with
      | .next t => .next { t with busy := false }
      | .fault r => .fault r
      | .refused r => .refused r

/-- A reserved word is refused by its reason, before any state is touched (R101, R294; log 7). -/
def Obligations.StepRefusesReservedWord : Prop :=
  ∀ (s : State) (w : CmdWord) (rest : List CmdWord) (why : Reserved),
    s.commands = w :: rest → s.busy = false → decode w = .error why → step s = .refused (.reserved why)

/-- With no command presented nothing happens: a step from an empty list of words answers the same state. R323 says it of the CORE
after reset; the list of words, and that a step with an empty one idles, are the model's choice (log 5). -/
def Obligations.StepWithoutCommandIdles : Prop :=
  ∀ s : State, s.commands = [] → step s = .next s

/-- R290: a defined command has exactly one kind of outcome, the next state; no command faults; a command is refused only where
its word is reserved (`wellFormed` is the further condition of R99). -/
def Obligations.DefinedCommandsComplete : Prop :=
  (∀ (i : Instr) (s : State), wellFormed i = true → ∃ t, exec i s = .next t) ∧
  (∀ (i : Instr) (s : State) (r : Fault), exec i s ≠ .fault r) ∧
  (∀ (i : Instr) (s : State) (r : Refusal), exec i s = .refused r → ∀ w : CmdWord, decode w ≠ .ok i)

/-! ## Wire Protocol Driver -/

/-- R90, R91: slot `ti` of a frame carries `F[i]`, `F = zext_12(a) | zext_12(v) << 4`, followed by a clock strobe; then one
latch strobe; 38 events in all. -/
def Obligations.FrameSlotsCarryF : Prop :=
  ∀ (a : Addr) (v : Byte),
    let F : BitVec 12 := a.setWidth 12 ||| (v.setWidth 12 <<< 4)
    (frame a v).length = 38 ∧
    (∀ i : Fin 12, ((frame a v).drop (3 * i.val)).take 3 =
      [.pin .data (F.getLsbD i.val), .pin .clk true, .pin .clk false]) ∧
    (frame a v).drop 36 = [.pin .latch true, .pin .latch false]

/-- R121: `WireWrite(a, v)` appends exactly the frame, writes the pins and `DEV[a]` and nothing else, and leaves `DATA = v[7]`,
`CLK = 0`, `LATCH = 0`. -/
def Obligations.WireWriteEmitsOneFrame : Prop :=
  ∀ (a : Addr) (v : Byte) (s : State),
    wireWrite a v s =
      { s with
        pins := ⟨v.getLsbD 7, false, false⟩
        dev := s.dev.set a.toNat (some v)
        trace := s.trace ++
          ([a.getLsbD 0, a.getLsbD 1, a.getLsbD 2, a.getLsbD 3, v.getLsbD 0, v.getLsbD 1, v.getLsbD 2, v.getLsbD 3,
            v.getLsbD 4, v.getLsbD 5, v.getLsbD 6, v.getLsbD 7].flatMap
              fun b => [.pin .data b, .pin .clk true, .pin .clk false]) ++
          [.pin .latch true, .pin .latch false] }

/-- WRREG completes for every operand: its word (D1), one frame, no mirror write, no response (R122). -/
def Obligations.WrregSendsFrameOnly : Prop :=
  ∀ (a : Addr) (d : Byte) (s : State),
    decode (0x1000 ||| (a.setWidth 16 <<< 8) ||| d.setWidth 16) = .ok (.wrreg a d) ∧
    exec (.wrreg a d) s = .next
      { s with
        pins := ⟨d.getLsbD 7, false, false⟩
        dev := s.dev.set a.toNat (some d)
        trace := s.trace ++ frame a d }

/-- RSTBUS completes: the symbols START, ONE x 26, RSTART, STOP (R92, R124) in the pin-level form of R125 (D4); pins and trace
only, `LATCH` never driven. -/
def Obligations.RstbusEmitsBusReset : Prop :=
  ∀ s : State,
    exec .rstbus s = .next
      { s with
        pins := ⟨true, false, s.pins.latch⟩
        trace := s.trace ++
          [.pin .data true, .pin .clk true, .pin .data false, .pin .clk false] ++
          (List.replicate 26 [Event.pin .data true, .pin .clk true, .pin .clk false]).flatten ++
          [.pin .data true, .pin .clk true, .pin .data false, .pin .clk false] ++
          [.pin .data false, .pin .clk true, .pin .data true, .pin .clk false] }

/-! ## Register Model -/

/-- R141: `Set(a, v)` sends one frame, equal or not, and updates the mirror if and only if `a < 9`; it writes the pins, `DEV[a]`, and
`R[a]` when `a < 9`, and nothing else. (The equality does not show the order of the two.) -/
def Obligations.SetWritesThroughAndMirrors : Prop :=
  ∀ (a : Addr) (v : Byte) (s : State),
    setReg a v s =
      { s with
        regs := if h : a.toNat < 9 then s.regs.set a.toNat v else s.regs
        pins := ⟨v.getLsbD 7, false, false⟩
        dev := s.dev.set a.toNat (some v)
        trace := s.trace ++ frame a v }

/-- SET completes for every operand: its word (D1) and `Set(a, d)`; an address in 9..15 leaves the mirror alone (R142). -/
def Obligations.SetCommandResult : Prop :=
  ∀ (a : Addr) (d : Byte) (s : State),
    decode (0x3000 ||| (a.setWidth 16 <<< 8) ||| d.setWidth 16) = .ok (.set a d) ∧
    exec (.set a d) s = .next
      { s with
        regs := if h : a.toNat < 9 then s.regs.set a.toNat d else s.regs
        pins := ⟨d.getLsbD 7, false, false⟩
        dev := s.dev.set a.toNat (some d)
        trace := s.trace ++ frame a d }

/-- GET completes for `a <= 8`: its word (D1), the single event `RSP(R[a])`, nothing else (R143). -/
def Obligations.GetAnswersTheMirror : Prop :=
  ∀ (a : Addr) (s : State) (h : a.toNat < 9),
    decode (0x4000 ||| (a.setWidth 16 <<< 8)) = .ok (.get a) ∧
    exec (.get a) s = .next { s with trace := s.trace ++ [.rsp s.regs[a.toNat]] }

/-- SETBITS completes for `a <= 8`: its word (D1) and one write-through of `R[a] | d` (R144). -/
def Obligations.SetbitsResult : Prop :=
  ∀ (a : Addr) (d : Byte) (s : State) (h : a.toNat < 9),
    decode (0x5000 ||| (a.setWidth 16 <<< 8) ||| d.setWidth 16) = .ok (.setbits a d) ∧
    exec (.setbits a d) s = .next
      { s with
        regs := s.regs.set a.toNat (s.regs[a.toNat] ||| d)
        pins := ⟨(s.regs[a.toNat] ||| d).getLsbD 7, false, false⟩
        dev := s.dev.set a.toNat (some (s.regs[a.toNat] ||| d))
        trace := s.trace ++ frame a (s.regs[a.toNat] ||| d) }

/-- CLRBITS completes for `a <= 8`: its word (D1) and one write-through of `R[a] & ~d` (R145). -/
def Obligations.ClrbitsResult : Prop :=
  ∀ (a : Addr) (d : Byte) (s : State) (h : a.toNat < 9),
    decode (0x6000 ||| (a.setWidth 16 <<< 8) ||| d.setWidth 16) = .ok (.clrbits a d) ∧
    exec (.clrbits a d) s = .next
      { s with
        regs := s.regs.set a.toNat (s.regs[a.toNat] &&& ~~~d)
        pins := ⟨(s.regs[a.toNat] &&& ~~~d).getLsbD 7, false, false⟩
        dev := s.dev.set a.toNat (some (s.regs[a.toNat] &&& ~~~d))
        trace := s.trace ++ frame a (s.regs[a.toNat] &&& ~~~d) }

/-- Operands with no mirror element or no channel are refused by name: GET, SETBITS, CLRBITS at `a >= 9`, CALRD, CALWR at
`d >= 103` (R101; D14, log 7). -/
def Obligations.OutOfRangeOperandsRefused : Prop :=
  (∀ (a : Addr) (d : Byte) (s : State), 9 ≤ a.toNat →
    exec (.get a) s = .refused (.reserved .mirrorIndex) ∧
    exec (.setbits a d) s = .refused (.reserved .mirrorIndex) ∧
    exec (.clrbits a d) s = .refused (.reserved .mirrorIndex)) ∧
  (∀ (v : Cal) (d : Byte) (s : State), 103 ≤ d.toNat →
    exec (.calrd d) s = .refused (.reserved .channel) ∧
    exec (.calwr v d) s = .refused (.reserved .channel))

/-! ## Lock Detector -/

/-- HASLOCK completes: 50 samples, each followed by its wait (D6); the response 0x01 iff more than 25 are high;
no other effect (R162). -/
def Obligations.HaslockVotes : Prop :=
  ∀ s : State,
    exec .haslock s = .next
      { s with
        cnt := none
        timer := none
        lockLine := s.lockLine.drop 50
        drawn := s.drawn + 50
        trace := s.trace ++ ((s.samples 50).flatMap fun b => [.sample b, .delay .tSample]) ++
          [.rsp (if 25 < (s.samples 50).count true then 0x01 else 0x00)] }

/-- R161: whatever the registers hold, each of the 2^50 sample sequences may occur in a query, and every one is then recorded
bit by bit. -/
def Obligations.AnySampleSequenceMayOccur : Prop :=
  ∀ (s : State) (bits : List Bool), bits.length = 50 →
    ∃ t, exec .haslock { s with lockLine := bits } = .next t ∧
      sampled (t.since s) = bits ∧
      t.regs = s.regs ∧ t.dev = s.dev ∧ t.store = s.store ∧ t.pins = s.pins

/-- The vote depends on the count of high samples only: the order does not matter, and a tie of 25 is false (R163). -/
def Obligations.VoteIgnoresOrder : Prop :=
  ∀ s t : State, (s.samples 50).Perm (t.samples 50) →
    (hasLock s).1 = (hasLock t).1 ∧ ((s.samples 50).count true = 25 → (hasLock s).1 = false)

/-! ## Channel Tuning Engine -/

/-- R171: with `READY = 0` or `d >= 103`, TUNE does nothing at all. -/
def Obligations.TuneRejectedIsNoOp : Prop :=
  ∀ (d : Byte) (s : State), s.ready = false ∨ 103 ≤ d.toNat → exec (.tune d) s = .next s

/-- The seven steps of R172 and the state machine of R173 are the same: an accepted TUNE is the entry transition followed by
transitions until `Idle` (D16). -/
def Obligations.TuneEqualsStateMachine : Prop :=
  ∀ (d : Byte) (s : State) (h : d.toNat < 103), s.ready = true →
    exec (.tune d) s = .next (tuneRun 6 (tuneEnter ⟨d.toNat, h⟩ s))

/-- The states an accepted TUNE passes through in its three cases (R173; the placing is D16). -/
def Obligations.TuneVisitsItsStates : Prop :=
  ∀ (c : Chan) (s : State),
    let visited := (List.range 7).map fun n => (tuneRun n (tuneEnter c s)).tstate
    visited =
      if s.poweredOn = false then
        [.chargePumpHigh, .frequencyProgrammed, .calibrationApplied, .chargePumpLow, .idle, .idle, .idle]
      else if s.vote 0 then
        [.chargePumpHigh, .frequencyProgrammed, .calibrationApplied, .lockCheck, .lockGood, .chargePumpLow, .idle]
      else
        [.chargePumpHigh, .frequencyProgrammed, .calibrationApplied, .lockCheck, .calibrationSearch, .chargePumpLow, .idle]

/-- R174: an accepted TUNE with the device powered off completes; its events are one table read, the charge-pump frame, the two
divider frames, a calibration frame and settle only where the stored value is not active, and the charge-pump frame: no sample,
no search, no store write. -/
def Obligations.TunePoweredOffOnlyPrestages : Prop :=
  ∀ (d : Byte) (s : State) (h : d.toNat < 103), s.ready = true → s.poweredOn = false →
    let p := s.cfg.params
    let c : Chan := ⟨d.toNat, h⟩
    let off := p.calBase + d.toNat / 4
    ∃ t, exec (.tune d) s = .next t ∧
      t.trace = s.trace ++ [.strd off (s.storeByte off)] ++
        frame (addrOf p.regCp) ((s.reg p.regCp &&& ~~~p.cpMask) ||| p.cpFast) ++
        frame (addrOf p.regFlo) (p.chanDiv[c.val].setWidth 8) ++
        frame (addrOf p.regFhi) ((p.chanDiv[c.val] >>> 8).setWidth 8) ++
        (if s.activeCal = s.storedCal c then []
         else frame (addrOf p.regCal) ((s.reg p.regCal &&& 0xFC) ||| (s.storedCal c).setWidth 8) ++ [.delay .tApply]) ++
        frame (addrOf p.regCp) ((s.reg p.regCp &&& ~~~p.cpMask) ||| p.cpIdle) ∧
      t.store = s.store ∧ t.lockLine = s.lockLine ∧ t.drawn = s.drawn

/-- R175: an accepted TUNE of a powered-on device whose first query has more than 25 high samples completes; between the events of
steps 2 to 5 and the frame of step 7 are the 50 samples and their waits only: no store write, no search settle. -/
def Obligations.TuneLockGoodNeverSearches : Prop :=
  ∀ (d : Byte) (s : State) (h : d.toNat < 103), s.ready = true → s.poweredOn = true → 25 < (s.samples 50).count true →
    let p := s.cfg.params
    let c : Chan := ⟨d.toNat, h⟩
    let off := p.calBase + d.toNat / 4
    ∃ t, exec (.tune d) s = .next t ∧
      t.trace = s.trace ++ [.strd off (s.storeByte off)] ++
        frame (addrOf p.regCp) ((s.reg p.regCp &&& ~~~p.cpMask) ||| p.cpFast) ++
        frame (addrOf p.regFlo) (p.chanDiv[c.val].setWidth 8) ++
        frame (addrOf p.regFhi) ((p.chanDiv[c.val] >>> 8).setWidth 8) ++
        (if s.activeCal = s.storedCal c then []
         else frame (addrOf p.regCal) ((s.reg p.regCal &&& 0xFC) ||| (s.storedCal c).setWidth 8) ++ [.delay .tApply]) ++
        ((s.samples 50).flatMap fun b => [.sample b, .delay .tSample]) ++
        frame (addrOf p.regCp) ((s.reg p.regCp &&& ~~~p.cpMask) ||| p.cpIdle) ∧
      storeWrites (t.since s) = 0 ∧ Event.delay .tSearch ∉ t.since s ∧ t.store = s.store ∧ t.drawn = s.drawn + 50

/-- R206: when the first query and all four trials of an accepted TUNE fail, value 0 is active, the table is as it was, no store
write has happened, and nothing is reported. -/
def Obligations.TuneAllTrialsFail : Prop :=
  ∀ (d : Byte) (s : State), d.toNat < 103 → s.ready = true → s.poweredOn = true → (∀ k < 5, s.vote k = false) →
    ∃ t, exec (.tune d) s = .next t ∧ t.activeCal = 0 ∧ t.store = s.store ∧ storeWrites (t.since s) = 0 ∧
      (∀ b, Event.rsp b ∉ t.since s) ∧ t.drawn = s.drawn + 250

/-- The whole next state of an accepted TUNE of channel `c`, its events included, in every case (R172, R174 to R176, R178, R203 to
R206). Registers: the divider, the charge pump, the calibration field (the stored value, the winner or 0). Events: one table read, the
fast charge-pump frame, the two divider frames, a calibration frame and settle where the stored value was not active; where powered
on, the first query; where that failed, the trials up to the first success or all four, each with its own samples, and after a success
one `STRD` and one `STWR` of the packed byte with the field of `c` replaced and every other bit, the pad bits of byte 25 included, as it
was (R66); last the idle charge-pump frame. Samples: none, 50, or 50 (k + 1) for k trials. (Bytes:
D8, D10; sampling loop: D6; commit: D15; `TSTATE`, `S`: D16; place of the read: D25.) -/
def Obligations.TuneOutcome : Prop :=
  ∀ (d : Byte) (s : State) (h : d.toNat < 103), s.ready = true → s.StoreWf →
    let p := s.cfg.params
    let c : Chan := ⟨d.toNat, h⟩
    let off := p.calBase + d.toNat / 4
    let searched : Bool := s.poweredOn && !s.vote 0
    let won : Option Cal := if searched then s.winner 1 else none
    let trials : Nat := if searched then trialsOf won else 0
    let queries : Nat := if s.poweredOn then trials + 1 else 0
    let held (v : Cal) : Byte := (s.reg p.regCal &&& 0xFC) ||| v.setWidth 8
    let active (v : Cal) : Bool := decide (s.activeCal = v)
    let old : Byte := s.storeByte off
    let new (v : Cal) : Byte := (old &&& ~~~((3 : Byte) <<< (2 * (d.toNat % 4)))) ||| (v.setWidth 8 <<< (2 * (d.toNat % 4)))
    ∃ t, exec (.tune d) s = .next t ∧
      t = { s with
            regs := t.regs
            dev := t.dev
            store := t.store
            tstate := .idle
            session := .empty
            pins := ⟨(t.reg p.regCp).getLsbD 7, false, false⟩
            cnt := if s.poweredOn then none else s.cnt
            timer := if s.poweredOn || !active (s.storedCal c) then none else s.timer
            lockLine := s.lockLine.drop (50 * queries)
            drawn := s.drawn + 50 * queries
            trace := s.trace ++ [.strd off old] ++
              frame (addrOf p.regCp) ((s.reg p.regCp &&& ~~~p.cpMask) ||| p.cpFast) ++
              frame (addrOf p.regFlo) (p.chanDiv[c.val].setWidth 8) ++
              frame (addrOf p.regFhi) ((p.chanDiv[c.val] >>> 8).setWidth 8) ++
              (if active (s.storedCal c) then [] else frame (addrOf p.regCal) (held (s.storedCal c)) ++ [.delay .tApply]) ++
              (if s.poweredOn then voteEvents (s.querySamples 0) else []) ++
              ((List.range trials).flatMap fun j =>
                trialEvents p.regCal (held (if j = 0 then s.storedCal c else BitVec.ofNat 2 (4 - j))) (BitVec.ofNat 2 (3 - j))
                  (s.querySamples (j + 1))) ++
              (match won with
                | some v => [.strd off old, .stwr off (new v)]
                | none => []) ++
              frame (addrOf p.regCp) ((s.reg p.regCp &&& ~~~p.cpMask) ||| p.cpIdle) } ∧
      t.reg p.regFlo = p.chanDiv[c.val].setWidth 8 ∧
      t.reg p.regFhi = (p.chanDiv[c.val] >>> 8).setWidth 8 ∧
      t.reg p.regCp &&& p.cpMask = p.cpIdle ∧
      t.reg p.regCp &&& ~~~p.cpMask = s.reg p.regCp &&& ~~~p.cpMask ∧
      (t.reg p.regCal) >>> 2 = (s.reg p.regCal) >>> 2 ∧
      t.activeCal = (if searched then won.getD 0 else s.storedCal c) ∧
      (∀ i, i ≠ p.regCp → i ≠ p.regFlo → i ≠ p.regFhi → i ≠ p.regCal → t.reg i = s.reg i) ∧
      t.dev[p.regCp.val] = some (t.reg p.regCp) ∧
      t.dev[p.regFlo.val] = some (t.reg p.regFlo) ∧
      t.dev[p.regFhi.val] = some (t.reg p.regFhi) ∧
      t.dev[p.regCal.val] =
        (if active (s.storedCal c) && (!searched || (s.storedCal c == 3 && won == some 3)) then s.dev[p.regCal.val]
         else some (t.reg p.regCal)) ∧
      (∀ a : Fin 16, a.val ≠ p.regCp.val → a.val ≠ p.regFlo.val → a.val ≠ p.regFhi.val → a.val ≠ p.regCal.val →
        t.dev[a.val] = s.dev[a.val]) ∧
      (∀ c', t.storedCal c' = if c' = c then won.getD (s.storedCal c) else s.storedCal c') ∧
      t.storeByte off = (match won with | some v => new v | none => old) ∧
      (∀ a, a ≠ off → t.storeByte a = s.storeByte a)

/-- One trial of the search (R203, R204): apply (nothing where the value is active), settle always, then 50 samples; its value is
then active. -/
def Obligations.TrialSettlesThenVotes : Prop :=
  ∀ (v : Cal) (s : State),
    let p := s.cfg.params
    (trial v s).trace = s.trace ++
      (if s.activeCal = v then []
       else frame (addrOf p.regCal) ((s.reg p.regCal &&& 0xFC) ||| v.setWidth 8) ++ [.delay .tApply]) ++
      [.delay .tSearch] ++ ((s.samples 50).flatMap fun b => [.sample b, .delay .tSample]) ∧
    (trial v s).activeCal = v ∧
    (trial v s).session.lock = some (decide (25 < (s.samples 50).count true)) ∧
    (trial v s).store = s.store

/-- A TUNE never holds the CORE longer than 3500 ms of nominal delay (R179, R208; the figures are D5). -/
def Obligations.TuneDelayBounded : Prop :=
  ∀ (d : Byte) (s : State), ∃ t, exec (.tune d) s = .next t ∧ delayTotal (t.since s) ≤ 3500000

/-! ## Calibration -/

/-- R201: `ApplyCal(v)`, reached through CALAPPLY, does nothing where `v` is active; else one frame with the upper bits kept,
then one settle. Completes for every value. -/
def Obligations.CalapplyResult : Prop :=
  ∀ (v : Cal) (s : State),
    let r := s.cfg.params.regCal
    let b := (s.reg r &&& 0xFC) ||| v.setWidth 8
    exec (.calapply v) s = .next
      (if (s.reg r).setWidth 2 = v then s
       else
        { s with
          regs := s.regs.set r.val b
          pins := ⟨b.getLsbD 7, false, false⟩
          timer := none
          dev := s.dev.set r.val (some b)
          trace := s.trace ++ frame (addrOf r) b ++ [.delay .tApply] })

/-- R202: two CALAPPLYs of one value are one frame and one settle, or none where it was active; a SET, SETBITS or CLRBITS that
changed the field in between is seen, a WRREG to `REG_CAL` is not. -/
def Obligations.CalapplyIdempotent : Prop :=
  ∀ (v : Cal) (s t : State), exec (.calapply v) s = .next t →
    let r := s.cfg.params.regCal
    let sent (b : Byte) : List Event := frame (addrOf r) ((b &&& 0xFC) ||| v.setWidth 8) ++ [.delay .tApply]
    exec (.calapply v) t = .next t ∧
    (s.activeCal = v → t = s) ∧ (s.activeCal ≠ v → t.since s = sent (s.reg r)) ∧
    (∀ (b x : Byte) (i : Instr) (u : State),
      (i = .set (addrOf r) b ∧ x = b) ∨ (i = .setbits (addrOf r) b ∧ x = t.reg r ||| b) ∨
        (i = .clrbits (addrOf r) b ∧ x = t.reg r &&& ~~~b) →
      exec i t = .next u → x.setWidth 2 ≠ v → ∃ w, exec (.calapply v) u = .next w ∧ w.since u = sent x) ∧
    (∀ (b : Byte) (u : State), exec (.wrreg (addrOf r) b) t = .next u → exec (.calapply v) u = .next u)

/-! ## Persistent store -/

/-- R65: `CalRead(c)` is one store read and the 2-bit field of the channel in its packed byte. -/
def Obligations.CalReadTakesOneTransaction : Prop :=
  ∀ (c : Chan) (s : State),
    let off := s.cfg.params.calBase + c.val / 4
    calRead c s =
      ((s.storeByte off >>> (2 * (c.val % 4))).setWidth 2, { s with trace := s.trace ++ [.strd off (s.storeByte off)] })

/-- CALRD completes for a channel: its word (D1), one `STRD`, then the response; nothing written (R234). -/
def Obligations.CalrdResult : Prop :=
  ∀ (d : Byte) (s : State), d.toNat < 103 →
    let off := s.cfg.params.calBase + d.toNat / 4
    decode (0xA000 ||| d.setWidth 16) = .ok (.calrd d) ∧
    exec (.calrd d) s = .next
      { s with trace := s.trace ++ [.strd off (s.storeByte off), .rsp ((s.storeByte off >>> (2 * (d.toNat % 4))) &&& 3)] }

/-- CALWR completes for a channel: its word (D1), one `STRD`, one `STWR` even of the same byte (D15); the stored byte is the one
at `CAL_BASE + (d >> 2)` with one field replaced; every other byte and every register is unchanged (R235). -/
def Obligations.CalwrResult : Prop :=
  ∀ (v : Cal) (d : Byte) (s : State) (h : d.toNat < 103), s.StoreWf →
    let off := calOff s.cfg.params ⟨d.toNat, h⟩
    let b := (s.storeByte off &&& ~~~((3 : Byte) <<< (2 * (d.toNat % 4)))) ||| (v.setWidth 8 <<< (2 * (d.toNat % 4)))
    decode (0xB000 ||| (v.setWidth 16 <<< 8) ||| d.setWidth 16) = .ok (.calwr v d) ∧
    ∃ t, exec (.calwr v d) s = .next t ∧ off = s.cfg.params.calBase + d.toNat / 4 ∧ t.storeByte off = b ∧
      (∀ a, a ≠ off → t.storeByte a = s.storeByte a) ∧
      t = { s with store := t.store, trace := s.trace ++ [.strd off (s.storeByte off), .stwr off b] }

/-- R239: after CALWR v, c the channel reads `v`, every other channel reads what it did, the marker and the pad bits of byte 25 are
unchanged. -/
def Obligations.CalwrRoundTrip : Prop :=
  ∀ (v : Cal) (c : Chan) (s : State), s.StoreWf →
    ∃ t, exec (.calwr v (BitVec.ofNat 8 c.val)) s = .next t ∧
      (∀ c' : Chan, t.storedCal c' = if c' = c then v else s.storedCal c') ∧
      t.storeByte s.cfg.params.markerOff = s.storeByte s.cfg.params.markerOff ∧
      (t.storeByte (s.cfg.params.calBase + 25)) >>> 6 = (s.storeByte (s.cfg.params.calBase + 25)) >>> 6

/-- STINIT on a valid marker completes with one read and no write (R236). -/
def Obligations.StinitTrustsValidMarker : Prop :=
  ∀ s : State, s.StoreValid →
    exec .stinit s = .next { s with trace := s.trace ++ [.strd s.cfg.params.markerOff s.cfg.params.markerVal] }

/-- STINIT on a mismatched marker completes with the full reset (R236, R237): one read, the marker, then the 26 bytes in ascending
order (D11); afterwards the marker is valid and every channel has the default of its band (R67): 0 from `B0` on, 1 from `B1`, 2 from
`B2`, else 3; channel 0 has 3; the pad bits of byte 25 are 0 (D11); no other offset has changed. -/
def Obligations.StinitResetsInvalidStore : Prop :=
  ∀ s : State, s.StoreWf → ¬ s.StoreValid →
    let p := s.cfg.params
    let band (n : Nat) : Cal :=   -- for n = 103, the pad field of byte 25, this is 0, since `B0` is at most 103
      if p.b0 ≤ n then 0 else if p.b1 ≤ n then 1 else if p.b2 ≤ n then 2 else 3
    let byte (k : Nat) : Byte :=
      (band (4 * k)).setWidth 8 ||| (band (4 * k + 1)).setWidth 8 <<< 2 ||| (band (4 * k + 2)).setWidth 8 <<< 4 |||
      (band (4 * k + 3)).setWidth 8 <<< 6
    ∃ t, exec .stinit s = .next t ∧ t.StoreValid ∧
      (∀ c : Chan, t.storedCal c = band c.val) ∧ t.storedCal 0 = 3 ∧
      (∀ k < 26, t.storeByte (p.calBase + k) = byte k) ∧ (t.storeByte (p.calBase + 25)) >>> 6 = 0 ∧
      (∀ off, off ≠ p.markerOff → off < p.calBase ∨ p.calBase + 25 < off → t.storeByte off = s.storeByte off) ∧
      t = { s with
            store := t.store
            trace := s.trace ++ [.strd p.markerOff (s.storeByte p.markerOff), .stwr p.markerOff p.markerVal] ++
              (List.range 26).map fun k => .stwr (p.calBase + k) (byte k) }

/-- SETRDY completes: its word (D1), and `READY` alone (R238; D13). -/
def Obligations.SetrdyResult : Prop :=
  ∀ (f : Bool) (s : State),
    decode (0xD000 ||| (BitVec.ofBool f).setWidth 16) = .ok (.setrdy f) ∧
    exec (.setrdy f) s = .next { s with ready := f }

/-! ## Rules of the whole machine -/

/-- `READY` is written by SETRDY and by nothing else (R26). -/
def Obligations.ReadyWrittenOnlyBySetrdy : Prop :=
  ∀ (i : Instr) (s t : State), exec i s = .next t → t.ready ≠ s.ready → ∃ f, i = .setrdy f

/-- R22: a register changes only through `Set`, in SET, SETBITS, CLRBITS, CALAPPLY and TUNE; a command that changes a mirrored
register leaves the device holding the same value there. -/
def Obligations.MirrorChangesOnlyThroughSet : Prop :=
  ∀ (i : Instr) (s t : State) (r : RegIdx), exec i s = .next t → t.reg r ≠ s.reg r →
    ((∃ a d, i = .set a d) ∨ (∃ a d, i = .setbits a d) ∨ (∃ a d, i = .clrbits a d) ∨ (∃ v, i = .calapply v) ∨
      (∃ d, i = .tune d)) ∧
    t.dev[r.val]'(by omega) = some (t.reg r)

/-- The CORE touches no store offset but the marker and the 26 table bytes (R62), CALWR and TUNE only the byte of their channel, and
every command that stores nothing leaves every byte as it was. -/
def Obligations.StoreFrame : Prop :=
  ∀ (i : Instr) (s t : State), exec i s = .next t → ∀ off,
    (off ≠ s.cfg.params.markerOff → off < s.cfg.params.calBase ∨ s.cfg.params.calBase + 25 < off →
      t.storeByte off = s.storeByte off) ∧
    (∀ v d c, i = .calwr v d → chanOf d = some c → off ≠ calOff s.cfg.params c → t.storeByte off = s.storeByte off) ∧
    (∀ d c, i = .tune d → chanOf d = some c → off ≠ calOff s.cfg.params c → t.storeByte off = s.storeByte off) ∧
    ((∀ v d, i ≠ .calwr v d) → (∀ d, i ≠ .tune d) → i ≠ .stinit → t.storeByte off = s.storeByte off)

/-- The trace is a record: no step rewrites it (R15, R73). -/
def Obligations.TraceOnlyGrows : Prop :=
  ∀ s t : State, step s = .next t → ∃ evs, t.trace = s.trace ++ evs

/-- A response is the last event of GET, HASLOCK and CALRD, there is exactly one, and no other command responds (R100; D24). -/
def Obligations.ResponseIsLastEvent : Prop :=
  ∀ (i : Instr) (s t : State), exec i s = .next t →
    let responds := (∃ a, i = .get a) ∨ i = .haslock ∨ (∃ d, i = .calrd d)
    (responds → ∃ b, responses (t.since s) = [b] ∧ (t.since s).getLast? = some (.rsp b)) ∧
    (¬ responds → responses (t.since s) = [])

/-- What a command leaves in the store is what its `STWR` events say, in their order (R64, R78). -/
def Obligations.StoreIsReplayOfTrace : Prop :=
  ∀ (i : Instr) (s t : State), exec i s = .next t →
    t.store = replayStore s.cfg.params.powerUpByte (t.since s) s.store

/-- A receiver that shifts a bit in at each rising clock and latches twelve at a rising latch, fed with the pin events of any
command, holds what `DEV` says (R33, R90, R91, R121; the receiver is log 20). -/
def Obligations.DeviceIsReplayOfPins : Prop :=
  ∀ (i : Instr) (s t : State) (pending : List Bool), s.pins.clk = false → s.pins.latch = false → exec i s = .next t →
    (Receiver.events (t.since s) ⟨s.pins, pending, s.dev⟩).dev = t.dev ∧
    (Receiver.events (t.since s) ⟨s.pins, pending, s.dev⟩).pins = t.pins

/-- Between commands the CORE is idle: `BUSY = 0`, `TSTATE` `Idle`, no session state, no counter, no timer, `CLK = 0`, `LATCH = 0`
(R27 to R30, R32, R126). Every step keeps it. -/
def Obligations.StepKeepsQuiet : Prop :=
  ∀ s t : State, s.Quiet → step s = .next t → t.Quiet

/-- The store keeps its canonical form and stays inside its size, at every step. The canonical form is the model's (log 9, DESIGN
CHOICE); that the marker's write stays inside rests on `MARKER_OFF < STORE_SIZE` (log 2, DEDUCED from R60 and R70). -/
def Obligations.StepKeepsStoreCanonical : Prop :=
  ∀ s t : State, s.StoreWf → step s = .next t → t.StoreWf

/-- R23: `R[i] = DEV[i]` for every `i` in 0..8 is kept by every step whose command is not a WRREG below address 9. -/
def Obligations.StepKeepsMirrorTrue : Prop :=
  ∀ s t : State, s.MirrorTrue → (∀ w i, s.commands.head? = some w → decode w = .ok i → keepsMirror i = true) →
    step s = .next t → t.MirrorTrue

/-- The invariants hold right after reset (R38); the mirror's, because the device is powered on together with the CORE (R324; that
`State.reset` is this case is log 11). -/
def Obligations.ResetMeetsInvariants : Prop :=
  State.reset.Quiet ∧ State.reset.StoreWf ∧ State.reset.MirrorTrue ∧ State.reset.ready = false

/-- No step changes the configuration (R9, R34) or the wrapper's `CUR_CHAN` (R261). -/
def Obligations.StepKeepsConfiguration : Prop :=
  ∀ s t : State, step s = .next t → t.cfg = s.cfg ∧ t.curChan = s.curChan

/-! ## Reset, bring-up, the surrounding software, power loss -/

/-- R320, R321: reset of the CORE gives every element its reset value, keeps the store and the device, and sends nothing. -/
def Obligations.CoreResetKeepsDeviceAndStore : Prop :=
  ∀ s : State,
    (coreReset s).regs = s.cfg.params.rPor ∧ (coreReset s).ready = false ∧ (coreReset s).tstate = .idle ∧
    (coreReset s).busy = false ∧ (coreReset s).pins = ⟨false, false, false⟩ ∧ (coreReset s).session = .empty ∧
    (coreReset s).cnt = none ∧ (coreReset s).timer = none ∧ (coreReset s).curChan = none ∧
    (coreReset s).store = s.store ∧ (coreReset s).dev = s.dev ∧ (coreReset s).trace = s.trace

/-- After a reset that CORE and device do not share the mirror may be false (R39, R331). The re-push makes it true again: nine frames
of the mirror, which it leaves as it was (R268; their ascending order is log 17, that no GET is issued for their values log 24).
`goOnline` does so too and leaves the device powered on (R301), the mirror being what its register writes made of it; that it writes
bits before the re-push, and nothing else, is log 22, the forms of the writes log 25. (`BUSY` is not looked at: log 6.) -/
def Obligations.GoOnlineRestoresMirror : Prop :=
  (∃ s : State, s.MirrorTrue ∧ ¬ (coreReset s).MirrorTrue) ∧
  (∀ s : State, ∃ t, rePush s = .next t ∧ t.MirrorTrue ∧ t.regs = s.regs ∧
    t.trace = s.trace ++ (List.finRange 9).flatMap fun i => frame (addrOf i) (s.reg i)) ∧
  (∀ s : State, ∃ t, goOnline s = .next t ∧ t.MirrorTrue ∧ t.poweredOn = true ∧
    ∀ r, t.reg r = regAfter s.cfg.params.host.online r (s.reg r))

/-- `goOffline` completes and leaves the powered-on predicate false (R268; its writes are a parameter, log 17 and
log 25; `BUSY` is not looked at: log 6). -/
def Obligations.GoOfflinePowersOff : Prop :=
  ∀ s : State, ∃ t, goOffline s = .next t ∧ t.poweredOn = false

/-- Bring-up (R326) completes from any state, and then TUNE is accepted, the store is valid, the mirror is true and holds the values
pushed; the device commands it may contain are to addresses 9..15. (Sequence: D13; the order of the nine: log 17; the device commands
after them: log 23; `BUSY` is not looked at: log 6.) -/
def Obligations.BringUpEstablishesPremises : Prop :=
  ∀ (vals : Vector Byte 9) (device : List (Addr × Byte)) (s : State), s.StoreWf → (∀ x ∈ device, 9 ≤ x.1.toNat) →
    ∃ t, bringUp vals device s = .next t ∧ t.ready = true ∧ t.StoreValid ∧ t.MirrorTrue ∧ t.regs = vals

/-- The channel operations (R261 to R266; D17, D18). `setChannel(n)` of a channel issues TUNE n; with `READY = 1` it then writes
`CUR_CHAN`, so that `getFrequency()` returns `875 + 2n`; with `READY = 0` it writes nothing. `setFrequency` of that frequency, or of the
odd one above it, does the same. `channelUp` and `channelDown` away from the ends are `setChannel` of the neighbour. While `CUR_CHAN`
holds no value, the three that read it are refused. (Every served command ends with `BUSY = 0`; that one is
served whatever `BUSY` was is log 6.) -/
def Obligations.ChannelOperations : Prop :=
  (∀ (n : Nat) (s : State) (h : n < 103), s.ready = true →
    ∃ u t, serve (.tune (BitVec.ofNat 8 n)) s = .next u ∧ t = { u with curChan := some ⟨n, h⟩ } ∧
      setChannel n s = .next t ∧ getFrequency t = .ok (875 + 2 * n) ∧
      setFrequency (875 + 2 * n) s = .next t ∧ setFrequency (876 + 2 * n) s = .next t) ∧
  (∀ (n : Nat) (s : State), n < 103 → s.ready = false →
    setChannel n s = .next { s with busy := false } ∧
    setFrequency (875 + 2 * n) s = .next { s with busy := false } ∧
    setFrequency (876 + 2 * n) s = .next { s with busy := false }) ∧
  (∀ (c : Chan) (s : State), s.ready = true → s.curChan = some c →
    (c.val < 102 → ∃ t, channelUp s = .next t ∧ setChannel (c.val + 1) s = .next t ∧ getFrequency t = .ok (877 + 2 * c.val)) ∧
    (0 < c.val → ∃ t, channelDown s = .next t ∧ setChannel (c.val - 1) s = .next t ∧ getFrequency t = .ok (873 + 2 * c.val))) ∧
  (∀ (c : Chan) (s : State), s.ready = false → s.curChan = some c →
    (c.val < 102 → channelUp s = .next { s with busy := false }) ∧
    (0 < c.val → channelDown s = .next { s with busy := false })) ∧
  (∀ s : State, s.curChan = none →
    getFrequency s = .error .noCurrentChannel ∧ channelUp s = .refused .noCurrentChannel ∧
    channelDown s = .refused .noCurrentChannel)

/-- Out-of-range and clamped wrapper calls do nothing: `setChannel` of 103 or more, a frequency below 875 or above channel 102,
`channelUp` at 102, `channelDown` at 0, `setInputAttenuation` of 3 or more, `setTXPower` of 0 or of 4 or more (R260, R262, R263, R265,
R269; D17, D18). -/
def Obligations.WrapperClampsAreNoOps : Prop :=
  (∀ (n : Nat) (s : State), 103 ≤ n → setChannel n s = .next s) ∧
  (∀ (f : Nat) (s : State), f < 875 ∨ 1081 ≤ f → setFrequency f s = .next s) ∧
  (∀ s : State, s.curChan = some 102 → channelUp s = .next s) ∧
  (∀ s : State, s.curChan = some 0 → channelDown s = .next s) ∧
  (∀ (n : Nat) (s : State), 3 ≤ n → setInputAttenuation n s = .next s) ∧
  (∀ (n : Nat) (s : State), n = 0 ∨ 4 ≤ n → setTXPower n s = .next s)

/-- Power loss during a TUNE leaves the table as it was or with the one committed byte, never a mixture (R78, R336; D19). -/
def Obligations.PowerLossDuringTuneIsAtomic : Prop :=
  ∀ (deviceToo : Bool) (d : Byte) (n : Nat) (s : State),
    ∃ t u, powerLoss deviceToo (.tune d) n s = .next t ∧ exec (.tune d) s = .next u ∧
      (t.store = s.store ∨ t.store = u.store)

/-- The store reset is not atomic: from a mismatched marker, power loss inside it can leave a valid marker over a table that is not the
default one (R334). -/
def Obligations.StoreResetIsNotAtomic : Prop :=
  ∃ (n : Nat) (s t : State) (c : Chan), s.StoreWf ∧ ¬ s.StoreValid ∧ powerLoss false .stinit n s = .next t ∧ t.StoreValid ∧
    t.storedCal c ≠ defCal t.cfg.params c.val
end

