-- ==== Sys2Proof/Laws/State.lean ====
section
/-! SUPPORT. One lemma per field per primitive update (Machine/Ops.lean), true by rfl, so that no later proof unfolds a
record update. -/

namespace Sys2Proof.Machine

section
variable (e : Event) (s : State)
@[simp] theorem State.emit_cfg : (s.emit e).cfg = s.cfg := rfl
@[simp] theorem State.emit_regs : (s.emit e).regs = s.regs := rfl
@[simp] theorem State.emit_ready : (s.emit e).ready = s.ready := rfl
@[simp] theorem State.emit_tstate : (s.emit e).tstate = s.tstate := rfl
@[simp] theorem State.emit_busy : (s.emit e).busy = s.busy := rfl
@[simp] theorem State.emit_session : (s.emit e).session = s.session := rfl
@[simp] theorem State.emit_pins : (s.emit e).pins = s.pins := rfl
@[simp] theorem State.emit_cnt : (s.emit e).cnt = s.cnt := rfl
@[simp] theorem State.emit_timer : (s.emit e).timer = s.timer := rfl
@[simp] theorem State.emit_dev : (s.emit e).dev = s.dev := rfl
@[simp] theorem State.emit_store : (s.emit e).store = s.store := rfl
@[simp] theorem State.emit_curChan : (s.emit e).curChan = s.curChan := rfl
@[simp] theorem State.emit_commands : (s.emit e).commands = s.commands := rfl
@[simp] theorem State.emit_lockLine : (s.emit e).lockLine = s.lockLine := rfl
@[simp] theorem State.emit_drawn : (s.emit e).drawn = s.drawn := rfl
@[simp] theorem State.emit_trace : (s.emit e).trace = s.trace ++ [e] := rfl
end

section
variable (i : RegIdx) (v : Byte) (s : State)
@[simp] theorem State.putMirror_cfg : (s.putMirror i v).cfg = s.cfg := rfl
@[simp] theorem State.putMirror_regs : (s.putMirror i v).regs = s.regs.set i.val v := rfl
@[simp] theorem State.putMirror_ready : (s.putMirror i v).ready = s.ready := rfl
@[simp] theorem State.putMirror_tstate : (s.putMirror i v).tstate = s.tstate := rfl
@[simp] theorem State.putMirror_busy : (s.putMirror i v).busy = s.busy := rfl
@[simp] theorem State.putMirror_session : (s.putMirror i v).session = s.session := rfl
@[simp] theorem State.putMirror_pins : (s.putMirror i v).pins = s.pins := rfl
@[simp] theorem State.putMirror_cnt : (s.putMirror i v).cnt = s.cnt := rfl
@[simp] theorem State.putMirror_timer : (s.putMirror i v).timer = s.timer := rfl
@[simp] theorem State.putMirror_dev : (s.putMirror i v).dev = s.dev := rfl
@[simp] theorem State.putMirror_store : (s.putMirror i v).store = s.store := rfl
@[simp] theorem State.putMirror_curChan : (s.putMirror i v).curChan = s.curChan := rfl
@[simp] theorem State.putMirror_commands : (s.putMirror i v).commands = s.commands := rfl
@[simp] theorem State.putMirror_lockLine : (s.putMirror i v).lockLine = s.lockLine := rfl
@[simp] theorem State.putMirror_drawn : (s.putMirror i v).drawn = s.drawn := rfl
@[simp] theorem State.putMirror_trace : (s.putMirror i v).trace = s.trace := rfl
end

section
variable (a : Addr) (v : Byte) (s : State)
@[simp] theorem State.putDev_cfg : (s.putDev a v).cfg = s.cfg := rfl
@[simp] theorem State.putDev_regs : (s.putDev a v).regs = s.regs := rfl
@[simp] theorem State.putDev_ready : (s.putDev a v).ready = s.ready := rfl
@[simp] theorem State.putDev_tstate : (s.putDev a v).tstate = s.tstate := rfl
@[simp] theorem State.putDev_busy : (s.putDev a v).busy = s.busy := rfl
@[simp] theorem State.putDev_session : (s.putDev a v).session = s.session := rfl
@[simp] theorem State.putDev_pins : (s.putDev a v).pins = s.pins := rfl
@[simp] theorem State.putDev_cnt : (s.putDev a v).cnt = s.cnt := rfl
@[simp] theorem State.putDev_timer : (s.putDev a v).timer = s.timer := rfl
@[simp] theorem State.putDev_dev : (s.putDev a v).dev = s.dev.set a.toNat (some v) := rfl
@[simp] theorem State.putDev_store : (s.putDev a v).store = s.store := rfl
@[simp] theorem State.putDev_curChan : (s.putDev a v).curChan = s.curChan := rfl
@[simp] theorem State.putDev_commands : (s.putDev a v).commands = s.commands := rfl
@[simp] theorem State.putDev_lockLine : (s.putDev a v).lockLine = s.lockLine := rfl
@[simp] theorem State.putDev_drawn : (s.putDev a v).drawn = s.drawn := rfl
@[simp] theorem State.putDev_trace : (s.putDev a v).trace = s.trace := rfl
end

section
variable (f : Bool) (s : State)
@[simp] theorem State.putReady_cfg : (s.putReady f).cfg = s.cfg := rfl
@[simp] theorem State.putReady_regs : (s.putReady f).regs = s.regs := rfl
@[simp] theorem State.putReady_ready : (s.putReady f).ready = f := rfl
@[simp] theorem State.putReady_tstate : (s.putReady f).tstate = s.tstate := rfl
@[simp] theorem State.putReady_busy : (s.putReady f).busy = s.busy := rfl
@[simp] theorem State.putReady_session : (s.putReady f).session = s.session := rfl
@[simp] theorem State.putReady_pins : (s.putReady f).pins = s.pins := rfl
@[simp] theorem State.putReady_cnt : (s.putReady f).cnt = s.cnt := rfl
@[simp] theorem State.putReady_timer : (s.putReady f).timer = s.timer := rfl
@[simp] theorem State.putReady_dev : (s.putReady f).dev = s.dev := rfl
@[simp] theorem State.putReady_store : (s.putReady f).store = s.store := rfl
@[simp] theorem State.putReady_curChan : (s.putReady f).curChan = s.curChan := rfl
@[simp] theorem State.putReady_commands : (s.putReady f).commands = s.commands := rfl
@[simp] theorem State.putReady_lockLine : (s.putReady f).lockLine = s.lockLine := rfl
@[simp] theorem State.putReady_drawn : (s.putReady f).drawn = s.drawn := rfl
@[simp] theorem State.putReady_trace : (s.putReady f).trace = s.trace := rfl
end

section
variable (t : TState) (s : State)
@[simp] theorem State.putTState_cfg : (s.putTState t).cfg = s.cfg := rfl
@[simp] theorem State.putTState_regs : (s.putTState t).regs = s.regs := rfl
@[simp] theorem State.putTState_ready : (s.putTState t).ready = s.ready := rfl
@[simp] theorem State.putTState_tstate : (s.putTState t).tstate = t := rfl
@[simp] theorem State.putTState_busy : (s.putTState t).busy = s.busy := rfl
@[simp] theorem State.putTState_session : (s.putTState t).session = s.session := rfl
@[simp] theorem State.putTState_pins : (s.putTState t).pins = s.pins := rfl
@[simp] theorem State.putTState_cnt : (s.putTState t).cnt = s.cnt := rfl
@[simp] theorem State.putTState_timer : (s.putTState t).timer = s.timer := rfl
@[simp] theorem State.putTState_dev : (s.putTState t).dev = s.dev := rfl
@[simp] theorem State.putTState_store : (s.putTState t).store = s.store := rfl
@[simp] theorem State.putTState_curChan : (s.putTState t).curChan = s.curChan := rfl
@[simp] theorem State.putTState_commands : (s.putTState t).commands = s.commands := rfl
@[simp] theorem State.putTState_lockLine : (s.putTState t).lockLine = s.lockLine := rfl
@[simp] theorem State.putTState_drawn : (s.putTState t).drawn = s.drawn := rfl
@[simp] theorem State.putTState_trace : (s.putTState t).trace = s.trace := rfl
end

section
variable (x : Session) (s : State)
@[simp] theorem State.putSession_cfg : (s.putSession x).cfg = s.cfg := rfl
@[simp] theorem State.putSession_regs : (s.putSession x).regs = s.regs := rfl
@[simp] theorem State.putSession_ready : (s.putSession x).ready = s.ready := rfl
@[simp] theorem State.putSession_tstate : (s.putSession x).tstate = s.tstate := rfl
@[simp] theorem State.putSession_busy : (s.putSession x).busy = s.busy := rfl
@[simp] theorem State.putSession_session : (s.putSession x).session = x := rfl
@[simp] theorem State.putSession_pins : (s.putSession x).pins = s.pins := rfl
@[simp] theorem State.putSession_cnt : (s.putSession x).cnt = s.cnt := rfl
@[simp] theorem State.putSession_timer : (s.putSession x).timer = s.timer := rfl
@[simp] theorem State.putSession_dev : (s.putSession x).dev = s.dev := rfl
@[simp] theorem State.putSession_store : (s.putSession x).store = s.store := rfl
@[simp] theorem State.putSession_curChan : (s.putSession x).curChan = s.curChan := rfl
@[simp] theorem State.putSession_commands : (s.putSession x).commands = s.commands := rfl
@[simp] theorem State.putSession_lockLine : (s.putSession x).lockLine = s.lockLine := rfl
@[simp] theorem State.putSession_drawn : (s.putSession x).drawn = s.drawn := rfl
@[simp] theorem State.putSession_trace : (s.putSession x).trace = s.trace := rfl
end

section
variable (f : Bool) (s : State)
@[simp] theorem State.putBusy_cfg : (s.putBusy f).cfg = s.cfg := rfl
@[simp] theorem State.putBusy_regs : (s.putBusy f).regs = s.regs := rfl
@[simp] theorem State.putBusy_ready : (s.putBusy f).ready = s.ready := rfl
@[simp] theorem State.putBusy_tstate : (s.putBusy f).tstate = s.tstate := rfl
@[simp] theorem State.putBusy_busy : (s.putBusy f).busy = f := rfl
@[simp] theorem State.putBusy_session : (s.putBusy f).session = s.session := rfl
@[simp] theorem State.putBusy_pins : (s.putBusy f).pins = s.pins := rfl
@[simp] theorem State.putBusy_cnt : (s.putBusy f).cnt = s.cnt := rfl
@[simp] theorem State.putBusy_timer : (s.putBusy f).timer = s.timer := rfl
@[simp] theorem State.putBusy_dev : (s.putBusy f).dev = s.dev := rfl
@[simp] theorem State.putBusy_store : (s.putBusy f).store = s.store := rfl
@[simp] theorem State.putBusy_curChan : (s.putBusy f).curChan = s.curChan := rfl
@[simp] theorem State.putBusy_commands : (s.putBusy f).commands = s.commands := rfl
@[simp] theorem State.putBusy_lockLine : (s.putBusy f).lockLine = s.lockLine := rfl
@[simp] theorem State.putBusy_drawn : (s.putBusy f).drawn = s.drawn := rfl
@[simp] theorem State.putBusy_trace : (s.putBusy f).trace = s.trace := rfl
end

section
variable (c : Option (BitVec 6)) (s : State)
@[simp] theorem State.putCnt_cfg : (s.putCnt c).cfg = s.cfg := rfl
@[simp] theorem State.putCnt_regs : (s.putCnt c).regs = s.regs := rfl
@[simp] theorem State.putCnt_ready : (s.putCnt c).ready = s.ready := rfl
@[simp] theorem State.putCnt_tstate : (s.putCnt c).tstate = s.tstate := rfl
@[simp] theorem State.putCnt_busy : (s.putCnt c).busy = s.busy := rfl
@[simp] theorem State.putCnt_session : (s.putCnt c).session = s.session := rfl
@[simp] theorem State.putCnt_pins : (s.putCnt c).pins = s.pins := rfl
@[simp] theorem State.putCnt_cnt : (s.putCnt c).cnt = c := rfl
@[simp] theorem State.putCnt_timer : (s.putCnt c).timer = s.timer := rfl
@[simp] theorem State.putCnt_dev : (s.putCnt c).dev = s.dev := rfl
@[simp] theorem State.putCnt_store : (s.putCnt c).store = s.store := rfl
@[simp] theorem State.putCnt_curChan : (s.putCnt c).curChan = s.curChan := rfl
@[simp] theorem State.putCnt_commands : (s.putCnt c).commands = s.commands := rfl
@[simp] theorem State.putCnt_lockLine : (s.putCnt c).lockLine = s.lockLine := rfl
@[simp] theorem State.putCnt_drawn : (s.putCnt c).drawn = s.drawn := rfl
@[simp] theorem State.putCnt_trace : (s.putCnt c).trace = s.trace := rfl
end

section
variable (d : Option Delay) (s : State)
@[simp] theorem State.putTimer_cfg : (s.putTimer d).cfg = s.cfg := rfl
@[simp] theorem State.putTimer_regs : (s.putTimer d).regs = s.regs := rfl
@[simp] theorem State.putTimer_ready : (s.putTimer d).ready = s.ready := rfl
@[simp] theorem State.putTimer_tstate : (s.putTimer d).tstate = s.tstate := rfl
@[simp] theorem State.putTimer_busy : (s.putTimer d).busy = s.busy := rfl
@[simp] theorem State.putTimer_session : (s.putTimer d).session = s.session := rfl
@[simp] theorem State.putTimer_pins : (s.putTimer d).pins = s.pins := rfl
@[simp] theorem State.putTimer_cnt : (s.putTimer d).cnt = s.cnt := rfl
@[simp] theorem State.putTimer_timer : (s.putTimer d).timer = d := rfl
@[simp] theorem State.putTimer_dev : (s.putTimer d).dev = s.dev := rfl
@[simp] theorem State.putTimer_store : (s.putTimer d).store = s.store := rfl
@[simp] theorem State.putTimer_curChan : (s.putTimer d).curChan = s.curChan := rfl
@[simp] theorem State.putTimer_commands : (s.putTimer d).commands = s.commands := rfl
@[simp] theorem State.putTimer_lockLine : (s.putTimer d).lockLine = s.lockLine := rfl
@[simp] theorem State.putTimer_drawn : (s.putTimer d).drawn = s.drawn := rfl
@[simp] theorem State.putTimer_trace : (s.putTimer d).trace = s.trace := rfl
end

section
variable (c : Chan) (s : State)
@[simp] theorem State.putCurChan_cfg : (s.putCurChan c).cfg = s.cfg := rfl
@[simp] theorem State.putCurChan_regs : (s.putCurChan c).regs = s.regs := rfl
@[simp] theorem State.putCurChan_ready : (s.putCurChan c).ready = s.ready := rfl
@[simp] theorem State.putCurChan_tstate : (s.putCurChan c).tstate = s.tstate := rfl
@[simp] theorem State.putCurChan_busy : (s.putCurChan c).busy = s.busy := rfl
@[simp] theorem State.putCurChan_session : (s.putCurChan c).session = s.session := rfl
@[simp] theorem State.putCurChan_pins : (s.putCurChan c).pins = s.pins := rfl
@[simp] theorem State.putCurChan_cnt : (s.putCurChan c).cnt = s.cnt := rfl
@[simp] theorem State.putCurChan_timer : (s.putCurChan c).timer = s.timer := rfl
@[simp] theorem State.putCurChan_dev : (s.putCurChan c).dev = s.dev := rfl
@[simp] theorem State.putCurChan_store : (s.putCurChan c).store = s.store := rfl
@[simp] theorem State.putCurChan_curChan : (s.putCurChan c).curChan = some c := rfl
@[simp] theorem State.putCurChan_commands : (s.putCurChan c).commands = s.commands := rfl
@[simp] theorem State.putCurChan_lockLine : (s.putCurChan c).lockLine = s.lockLine := rfl
@[simp] theorem State.putCurChan_drawn : (s.putCurChan c).drawn = s.drawn := rfl
@[simp] theorem State.putCurChan_trace : (s.putCurChan c).trace = s.trace := rfl
end

section
variable (off : Nat) (b : Byte) (s : State)
@[simp] theorem State.putStore_cfg : (s.putStore off b).cfg = s.cfg := rfl
@[simp] theorem State.putStore_regs : (s.putStore off b).regs = s.regs := rfl
@[simp] theorem State.putStore_ready : (s.putStore off b).ready = s.ready := rfl
@[simp] theorem State.putStore_tstate : (s.putStore off b).tstate = s.tstate := rfl
@[simp] theorem State.putStore_busy : (s.putStore off b).busy = s.busy := rfl
@[simp] theorem State.putStore_session : (s.putStore off b).session = s.session := rfl
@[simp] theorem State.putStore_pins : (s.putStore off b).pins = s.pins := rfl
@[simp] theorem State.putStore_cnt : (s.putStore off b).cnt = s.cnt := rfl
@[simp] theorem State.putStore_timer : (s.putStore off b).timer = s.timer := rfl
@[simp] theorem State.putStore_dev : (s.putStore off b).dev = s.dev := rfl
@[simp] theorem State.putStore_store : (s.putStore off b).store = Memory.write s.cfg.params.powerUpByte s.store off b := rfl
@[simp] theorem State.putStore_curChan : (s.putStore off b).curChan = s.curChan := rfl
@[simp] theorem State.putStore_commands : (s.putStore off b).commands = s.commands := rfl
@[simp] theorem State.putStore_lockLine : (s.putStore off b).lockLine = s.lockLine := rfl
@[simp] theorem State.putStore_drawn : (s.putStore off b).drawn = s.drawn := rfl
@[simp] theorem State.putStore_trace : (s.putStore off b).trace = s.trace := rfl
end

section
variable (line : Line) (level : Bool) (s : State)
@[simp] theorem pinWrite_cfg : (pinWrite line level s).cfg = s.cfg := rfl
@[simp] theorem pinWrite_regs : (pinWrite line level s).regs = s.regs := rfl
@[simp] theorem pinWrite_ready : (pinWrite line level s).ready = s.ready := rfl
@[simp] theorem pinWrite_tstate : (pinWrite line level s).tstate = s.tstate := rfl
@[simp] theorem pinWrite_busy : (pinWrite line level s).busy = s.busy := rfl
@[simp] theorem pinWrite_session : (pinWrite line level s).session = s.session := rfl
@[simp] theorem pinWrite_pins : (pinWrite line level s).pins = s.pins.drive line level := rfl
@[simp] theorem pinWrite_cnt : (pinWrite line level s).cnt = s.cnt := rfl
@[simp] theorem pinWrite_timer : (pinWrite line level s).timer = s.timer := rfl
@[simp] theorem pinWrite_dev : (pinWrite line level s).dev = s.dev := rfl
@[simp] theorem pinWrite_store : (pinWrite line level s).store = s.store := rfl
@[simp] theorem pinWrite_curChan : (pinWrite line level s).curChan = s.curChan := rfl
@[simp] theorem pinWrite_commands : (pinWrite line level s).commands = s.commands := rfl
@[simp] theorem pinWrite_lockLine : (pinWrite line level s).lockLine = s.lockLine := rfl
@[simp] theorem pinWrite_drawn : (pinWrite line level s).drawn = s.drawn := rfl
@[simp] theorem pinWrite_trace : (pinWrite line level s).trace = s.trace ++ [.pin line level] := rfl
end

section
variable (s : State)
@[simp] theorem sampleLock_cfg : (sampleLock s).2.cfg = s.cfg := rfl
@[simp] theorem sampleLock_regs : (sampleLock s).2.regs = s.regs := rfl
@[simp] theorem sampleLock_ready : (sampleLock s).2.ready = s.ready := rfl
@[simp] theorem sampleLock_tstate : (sampleLock s).2.tstate = s.tstate := rfl
@[simp] theorem sampleLock_busy : (sampleLock s).2.busy = s.busy := rfl
@[simp] theorem sampleLock_session : (sampleLock s).2.session = s.session := rfl
@[simp] theorem sampleLock_pins : (sampleLock s).2.pins = s.pins := rfl
@[simp] theorem sampleLock_cnt : (sampleLock s).2.cnt = s.cnt := rfl
@[simp] theorem sampleLock_timer : (sampleLock s).2.timer = s.timer := rfl
@[simp] theorem sampleLock_dev : (sampleLock s).2.dev = s.dev := rfl
@[simp] theorem sampleLock_store : (sampleLock s).2.store = s.store := rfl
@[simp] theorem sampleLock_curChan : (sampleLock s).2.curChan = s.curChan := rfl
@[simp] theorem sampleLock_commands : (sampleLock s).2.commands = s.commands := rfl
@[simp] theorem sampleLock_lockLine : (sampleLock s).2.lockLine = s.lockLine.tail := rfl
@[simp] theorem sampleLock_drawn : (sampleLock s).2.drawn = s.drawn + 1 := rfl
@[simp] theorem sampleLock_trace : (sampleLock s).2.trace = s.trace ++ [.sample s.lockLevel] := rfl
end

section
variable (d : Delay) (s : State)
@[simp] theorem wait_cfg : (wait d s).cfg = s.cfg := rfl
@[simp] theorem wait_regs : (wait d s).regs = s.regs := rfl
@[simp] theorem wait_ready : (wait d s).ready = s.ready := rfl
@[simp] theorem wait_tstate : (wait d s).tstate = s.tstate := rfl
@[simp] theorem wait_busy : (wait d s).busy = s.busy := rfl
@[simp] theorem wait_session : (wait d s).session = s.session := rfl
@[simp] theorem wait_pins : (wait d s).pins = s.pins := rfl
@[simp] theorem wait_cnt : (wait d s).cnt = s.cnt := rfl
@[simp] theorem wait_timer : (wait d s).timer = none := rfl
@[simp] theorem wait_dev : (wait d s).dev = s.dev := rfl
@[simp] theorem wait_store : (wait d s).store = s.store := rfl
@[simp] theorem wait_curChan : (wait d s).curChan = s.curChan := rfl
@[simp] theorem wait_commands : (wait d s).commands = s.commands := rfl
@[simp] theorem wait_lockLine : (wait d s).lockLine = s.lockLine := rfl
@[simp] theorem wait_drawn : (wait d s).drawn = s.drawn := rfl
@[simp] theorem wait_trace : (wait d s).trace = s.trace ++ [.delay d] := rfl
end

section
variable (off : Nat) (s : State)
@[simp] theorem memRead_cfg : (memRead off s).2.cfg = s.cfg := rfl
@[simp] theorem memRead_regs : (memRead off s).2.regs = s.regs := rfl
@[simp] theorem memRead_ready : (memRead off s).2.ready = s.ready := rfl
@[simp] theorem memRead_tstate : (memRead off s).2.tstate = s.tstate := rfl
@[simp] theorem memRead_busy : (memRead off s).2.busy = s.busy := rfl
@[simp] theorem memRead_session : (memRead off s).2.session = s.session := rfl
@[simp] theorem memRead_pins : (memRead off s).2.pins = s.pins := rfl
@[simp] theorem memRead_cnt : (memRead off s).2.cnt = s.cnt := rfl
@[simp] theorem memRead_timer : (memRead off s).2.timer = s.timer := rfl
@[simp] theorem memRead_dev : (memRead off s).2.dev = s.dev := rfl
@[simp] theorem memRead_store : (memRead off s).2.store = s.store := rfl
@[simp] theorem memRead_curChan : (memRead off s).2.curChan = s.curChan := rfl
@[simp] theorem memRead_commands : (memRead off s).2.commands = s.commands := rfl
@[simp] theorem memRead_lockLine : (memRead off s).2.lockLine = s.lockLine := rfl
@[simp] theorem memRead_drawn : (memRead off s).2.drawn = s.drawn := rfl
@[simp] theorem memRead_trace : (memRead off s).2.trace = s.trace ++ [.strd off (s.storeByte off)] := rfl
@[simp] theorem memRead_value : (memRead off s).1 = s.storeByte off := rfl
end

section
variable (off : Nat) (b : Byte) (s : State)
@[simp] theorem memWrite_cfg : (memWrite off b s).cfg = s.cfg := rfl
@[simp] theorem memWrite_regs : (memWrite off b s).regs = s.regs := rfl
@[simp] theorem memWrite_ready : (memWrite off b s).ready = s.ready := rfl
@[simp] theorem memWrite_tstate : (memWrite off b s).tstate = s.tstate := rfl
@[simp] theorem memWrite_busy : (memWrite off b s).busy = s.busy := rfl
@[simp] theorem memWrite_session : (memWrite off b s).session = s.session := rfl
@[simp] theorem memWrite_pins : (memWrite off b s).pins = s.pins := rfl
@[simp] theorem memWrite_cnt : (memWrite off b s).cnt = s.cnt := rfl
@[simp] theorem memWrite_timer : (memWrite off b s).timer = s.timer := rfl
@[simp] theorem memWrite_dev : (memWrite off b s).dev = s.dev := rfl
@[simp] theorem memWrite_store : (memWrite off b s).store = Memory.write s.cfg.params.powerUpByte s.store off b := rfl
@[simp] theorem memWrite_curChan : (memWrite off b s).curChan = s.curChan := rfl
@[simp] theorem memWrite_commands : (memWrite off b s).commands = s.commands := rfl
@[simp] theorem memWrite_lockLine : (memWrite off b s).lockLine = s.lockLine := rfl
@[simp] theorem memWrite_drawn : (memWrite off b s).drawn = s.drawn := rfl
@[simp] theorem memWrite_trace : (memWrite off b s).trace = s.trace ++ [.stwr off b] := rfl
end

end Sys2Proof.Machine
end

