-- ==== Sys2Proof/Laws/Lock.lean ====
section
/-! SUPPORT. What a lock query can do, said once (spec/42_lock_detector.md R161 to R163): it sees the coming samples, takes
all of them, and votes on their count. -/

namespace Sys2Proof.Machine

theorem State.lockLevel_eq (s : State) : s.lockLevel = s.lockBit 0 := by
  unfold State.lockLevel State.lockBit
  cases s.lockLine <;> rfl

/-- After one sample the next one stands where the second stood. -/
theorem State.lockBit_tail (s t : State) (hl : t.lockLine = s.lockLine.tail) (hd : t.drawn = s.drawn + 1) (k : Nat) :
    t.lockBit k = s.lockBit (k + 1) := by
  unfold State.lockBit
  rw [hl, hd, Nat.add_assoc, Nat.add_comm 1 k]
  cases s.lockLine <;> simp

theorem State.samples_succ (s : State) (n : Nat) :
    s.samples (n + 1) = s.lockBit 0 :: (List.range n).map fun k => s.lockBit (k + 1) := by
  simp [State.samples, List.range_succ_eq_map]

theorem State.samples_length (s : State) (n : Nat) : (s.samples n).length = n := by simp [State.samples]

/-- The counter after counting bits. -/
def countBits (cnt : BitVec 6) (bits : List Bool) : BitVec 6 := bits.foldl countSample cnt

/-- The loop counts the coming samples, takes them, and appends their events (R162). -/
theorem sampleLoop_eq (n : Nat) (cnt : BitVec 6) (s : State) (hs : s.timer = none) (hc : s.cnt = some cnt) :
    sampleLoop n cnt s =
      (countBits cnt (s.samples n),
        { s with
          cnt := some (countBits cnt (s.samples n))
          lockLine := s.lockLine.drop n
          drawn := s.drawn + n
          trace := s.trace ++ voteEvents (s.samples n) }) := by
  induction n generalizing cnt s with
  | zero => cases s; simp_all [sampleLoop, State.samples, countBits, voteEvents]
  | succ n ih =>
    have hbits : ∀ t : State, t.lockLine = s.lockLine.tail → t.drawn = s.drawn + 1 →
        t.samples n = (List.range n).map fun k => s.lockBit (k + 1) := fun t hl hd =>
      List.map_congr_left fun k _ => State.lockBit_tail s t hl hd k
    simp only [sampleLoop, sampleLock]
    rw [ih _ _ (by rfl) (by rfl), hbits _ rfl rfl, State.samples_succ, State.lockLevel_eq]
    simp [countBits, voteEvents, wait, State.expire, State.putTimer, State.putCnt, State.emit, hs, Nat.add_assoc,
      Nat.add_comm 1 n]

/-- Six bits are enough: 50 samples count exactly. -/
theorem countBits_toNat (bits : List Bool) (cnt : BitVec 6) (h : cnt.toNat + bits.length < 64) :
    (countBits cnt bits).toNat = cnt.toNat + bits.count true := by
  induction bits generalizing cnt with
  | nil => simp [countBits]
  | cons b bits ih =>
    simp only [List.length_cons] at h
    have h1 : (countSample cnt b).toNat = cnt.toNat + b.toNat := by
      cases b <;> simp [countSample] ; omega
    have := ih (countSample cnt b) (by rw [h1]; cases b <;> simp <;> omega)
    simp only [countBits, List.foldl_cons] at this ⊢
    rw [this, h1]
    cases b <;> simp [Nat.add_assoc, Nat.add_comm]

/-- The vote on the counter is the majority of the samples (R163). -/
theorem voteOf_countBits (bits : List Bool) (h : bits.length = 50) : voteOf (countBits 0 bits) = majority bits := by
  have hc : (countBits 0 bits).toNat = bits.count true := by
    simpa using countBits_toNat bits 0 (by simp [h])
  refine decide_eq_decide.mpr ?_
  rw [BitVec.lt_def, hc]
  rfl

/-- A query that takes a sample does not see what the timer held before. -/
theorem sampleLoop_timer (n : Nat) (cnt : BitVec 6) (s : State) :
    sampleLoop (n + 1) cnt s = sampleLoop (n + 1) cnt (s.putTimer none) := by
  simp only [sampleLoop]
  rfl

/-- A lock query (R162): its result is the majority of the next 50 samples; it takes exactly those, appends their 50 pairs of
events, leaves no counter and no timer, and touches nothing else. -/
theorem hasLock_eq (s : State) :
    hasLock s =
      (majority (s.samples 50),
        { s with
          cnt := none
          timer := none
          lockLine := s.lockLine.drop 50
          drawn := s.drawn + 50
          trace := s.trace ++ voteEvents (s.samples 50) }) := by
  have hsame : ((s.putCnt (some 0)).putTimer none).samples 50 = s.samples 50 :=
    List.map_congr_left fun k _ => rfl
  have hloop := sampleLoop_eq 50 0 ((s.putCnt (some 0)).putTimer none) (by simp) (by simp)
  rw [hsame, ← sampleLoop_timer] at hloop
  simp only [hasLock, Config.nSamples, hloop, voteOf_countBits _ (s.samples_length 50)]
  simp [State.putCnt, State.putTimer]

section
variable (s : State)
@[simp] theorem hasLock_cfg : (hasLock s).2.cfg = s.cfg := by rw [hasLock_eq]
@[simp] theorem hasLock_regs : (hasLock s).2.regs = s.regs := by rw [hasLock_eq]
@[simp] theorem hasLock_ready : (hasLock s).2.ready = s.ready := by rw [hasLock_eq]
@[simp] theorem hasLock_tstate : (hasLock s).2.tstate = s.tstate := by rw [hasLock_eq]
@[simp] theorem hasLock_busy : (hasLock s).2.busy = s.busy := by rw [hasLock_eq]
@[simp] theorem hasLock_session : (hasLock s).2.session = s.session := by rw [hasLock_eq]
@[simp] theorem hasLock_pins : (hasLock s).2.pins = s.pins := by rw [hasLock_eq]
@[simp] theorem hasLock_cnt : (hasLock s).2.cnt = none := by rw [hasLock_eq]
@[simp] theorem hasLock_timer : (hasLock s).2.timer = none := by rw [hasLock_eq]
@[simp] theorem hasLock_dev : (hasLock s).2.dev = s.dev := by rw [hasLock_eq]
@[simp] theorem hasLock_store : (hasLock s).2.store = s.store := by rw [hasLock_eq]
@[simp] theorem hasLock_curChan : (hasLock s).2.curChan = s.curChan := by rw [hasLock_eq]
@[simp] theorem hasLock_commands : (hasLock s).2.commands = s.commands := by rw [hasLock_eq]
@[simp] theorem hasLock_lockLine : (hasLock s).2.lockLine = s.lockLine.drop 50 := by rw [hasLock_eq]
@[simp] theorem hasLock_drawn : (hasLock s).2.drawn = s.drawn + 50 := by rw [hasLock_eq]
@[simp] theorem hasLock_trace : (hasLock s).2.trace = s.trace ++ voteEvents (s.samples 50) := by rw [hasLock_eq]
@[simp] theorem hasLock_result : (hasLock s).1 = majority (s.samples 50) := by rw [hasLock_eq]
end

end Sys2Proof.Machine
end

