-- ==== Sys2Proof/Laws/Config.lean ====
section
/-! SUPPORT. The constraints of R9 as facts about a configuration. -/

namespace Sys2Proof.Machine

variable (c : Config)

theorem Config.parts : c.params.rolesOk = true ∧ c.params.masksOk = true ∧ c.params.bandsOk = true ∧
    c.params.storeOk = true ∧ c.params.hostOk = true ∧ c.params.chanOk = true := by
  have h := c.ok
  simp only [Params.ok, Bool.and_eq_true] at h
  exact ⟨h.1.1.1.1.1, h.1.1.1.1.2, h.1.1.1.2, h.1.1.2, h.1.2, h.2⟩

/-- What the order of the channel table says (R34): some relation of divider to frequency, not given by the spec, gives entry `c` the
frequency of channel `c`, so that the entries ascend by a fixed step. -/
theorem Params.chanOk_iff (p : Params) :
    p.chanOk = true ↔ ∃ freq : BitVec 16 → Nat, ∀ c : Chan, freq p.chanDiv[c.val] = Config.fBase + Config.fStep * c.val := by
  rw [Params.chanOk, decide_eq_true_iff]
  constructor
  · intro h
    classical
    refine ⟨fun d => if hd : ∃ c : Chan, p.chanDiv[c.val] = d then Config.fBase + Config.fStep * hd.choose.val else 0,
      fun c => ?_⟩
    have hd : ∃ c' : Chan, p.chanDiv[c'.val] = p.chanDiv[c.val] := ⟨c, rfl⟩
    exact (dif_pos hd).trans (by rw [h _ _ hd.choose_spec])
  · rintro ⟨freq, hf⟩ i j hij
    have h1 := hf i
    rw [hij, hf j] at h1
    unfold Config.fBase Config.fStep at h1
    exact Fin.ext (by omega)

/-- Two channels never have the same divider (R34). -/
theorem Config.chanDiv_injective {i j : Chan} (h : c.params.chanDiv[i.val] = c.params.chanDiv[j.val]) : i = j := by
  have hok := (Config.parts c).2.2.2.2.2
  rw [Params.chanOk, decide_eq_true_iff] at hok
  exact hok i j h

/-- The powered-on predicate after the writes of `goOffline` and of `goOnline` (R268, R301). -/
theorem Config.host_power (b : Byte) :
    c.params.pwrAfter c.params.host.offline b &&& c.params.pwrMask = 0 ∧
    c.params.pwrAfter c.params.host.online b &&& c.params.pwrMask ≠ 0 := by
  have h := (Config.parts c).2.2.2.2.1
  simp only [Params.hostOk, Bool.and_eq_true, List.all_eq_true, List.mem_range, beq_iff_eq, bne_iff_ne] at h
  have hb := h.2 b.toNat b.isLt
  rwa [BitVec.ofNat_toNat, BitVec.setWidth_eq] at hb

/-- Each audio-path operation is some register write, and none touches a bit of the tuning engine (R269). -/
theorem Config.host_audio {ws : List RegWrite} (h : ws ∈ c.params.host.audio) :
    ws ≠ [] ∧ ∀ w ∈ ws, ∀ r, w.touched r &&& c.params.owned r = 0 := by
  have hok := (Config.parts c).2.2.2.2.1
  simp only [Params.hostOk, Bool.and_eq_true] at hok
  have hws := List.all_eq_true.mp hok.1 ws h
  simpa [Params.untuned, List.all_eq_true] using hws

/-- What a register write does not touch it leaves as it was (R269). -/
theorem RegWrite.apply_untouched (w : RegWrite) (r : RegIdx) (b : Byte) :
    w.apply r b &&& ~~~w.touched r = b &&& ~~~w.touched r := by
  rcases w with ⟨a, v⟩ | ⟨q, mask, v⟩ | ⟨q, v⟩ | ⟨q, v⟩ <;> simp only [RegWrite.apply, RegWrite.touched] <;> split_ifs <;>
    ext i hi <;> simp <;> grind

/-- The five register roles are distinct. -/
theorem Config.roles_nodup :
    [c.params.regCp, c.params.regFlo, c.params.regFhi, c.params.regCal, c.params.regPwr].Nodup := by
  simpa only [Params.rolesOk, decide_eq_true_eq] using (Config.parts c).1

theorem Config.cpIdle_mask : c.params.cpIdle &&& ~~~c.params.cpMask = 0 := by
  have h := (Config.parts c).2.1
  simp only [Params.masksOk, Bool.and_eq_true, beq_iff_eq] at h
  exact h.1.1.2

theorem Config.cpFast_mask : c.params.cpFast &&& ~~~c.params.cpMask = 0 := by
  have h := (Config.parts c).2.1
  simp only [Params.masksOk, Bool.and_eq_true, beq_iff_eq] at h
  exact h.1.1.1.2

theorem Config.bands : 0 < c.params.b2 ∧ c.params.b2 ≤ c.params.b1 ∧ c.params.b1 ≤ c.params.b0 ∧ c.params.b0 ≤ 103 := by
  have h := (Config.parts c).2.2.1
  simp only [Params.bandsOk, Bool.and_eq_true, decide_eq_true_eq] at h
  exact ⟨h.1.1.1, h.1.1.2, h.1.2, h.2⟩

theorem Config.table_inside : c.params.calBase + 25 < c.params.storeSize := by
  have h := (Config.parts c).2.2.2.1
  simp only [Params.storeOk, Bool.and_eq_true, decide_eq_true_eq] at h
  exact h.1.1.2

theorem Config.marker_inside : c.params.markerOff < c.params.storeSize := by
  have h := (Config.parts c).2.2.2.1
  simp only [Params.storeOk, Bool.and_eq_true, decide_eq_true_eq] at h
  exact h.1.2

theorem Config.marker_outside_table :
    c.params.markerOff < c.params.calBase ∨ c.params.calBase + 25 < c.params.markerOff := by
  have h := (Config.parts c).2.2.2.1
  simp only [Params.storeOk, Bool.and_eq_true, decide_eq_true_eq] at h
  exact h.2

/-- `CalOff` is always inside the store (R70). -/
theorem Config.calOff_inside (ch : Chan) : calOff c.params ch < c.params.storeSize := by
  have h := Config.table_inside c
  have : ch.val >>> 2 ≤ 25 := by rw [Nat.shiftRight_eq_div_pow]; have := ch.isLt; omega
  unfold calOff; omega

/-- `CalOff` is inside the table (R63). -/
theorem Config.calOff_table (ch : Chan) :
    c.params.calBase ≤ calOff c.params ch ∧ calOff c.params ch ≤ c.params.calBase + 25 := by
  have : ch.val >>> 2 ≤ 25 := by rw [Nat.shiftRight_eq_div_pow]; have := ch.isLt; omega
  unfold calOff; omega

end Sys2Proof.Machine
end

