-- ==== Sys2Proof/Laws/Memory.lean ====
section
/-! SUPPORT. The laws of the store as plain data: a read after a write, and the canonical form that every write keeps. -/

namespace Sys2Proof.Machine

variable {dflt : Nat → Byte} {size a b : Nat} {v : Byte} {m : Memory}

theorem Memory.read_insert_same : Memory.read dflt (Memory.insert a v m) a = v := by
  induction m with
  | nil => simp [Memory.insert, Memory.read]
  | cons c m ih =>
    unfold Memory.insert
    split_ifs with h1 h2
    · simp [Memory.read]
    · simp [Memory.read]
    · simp [Memory.read, h2, ih]

theorem Memory.read_insert_other (h : b ≠ a) : Memory.read dflt (Memory.insert a v m) b = Memory.read dflt m b := by
  induction m with
  | nil => simp [Memory.insert, Memory.read, h.symm]
  | cons c m ih =>
    unfold Memory.insert
    split_ifs with h1 h2
    · simp [Memory.read, h.symm]
    · subst h2; simp [Memory.read, h.symm]
    · simp [Memory.read, ih]

theorem Memory.read_unlisted (h : ∀ c ∈ m, c.1 ≠ a) : Memory.read dflt m a = dflt a := by
  induction m with
  | nil => rfl
  | cons c m ih => simp_all [Memory.read]

theorem Memory.mem_erase {c : Host.Cell} (h : c ∈ Memory.erase a m) : c ∈ m := by
  induction m with
  | nil => simp [Memory.erase] at h
  | cons d m ih =>
    unfold Memory.erase at h
    split_ifs at h
    · exact List.mem_cons_of_mem _ h
    · rcases List.mem_cons.mp h with rfl | h
      · exact List.mem_cons_self
      · exact List.mem_cons_of_mem _ (ih h)

theorem Memory.mem_insert {c : Host.Cell} (h : c ∈ Memory.insert a v m) : c = (a, v) ∨ c ∈ m := by
  induction m with
  | nil => simpa [Memory.insert] using h
  | cons d m ih =>
    unfold Memory.insert at h
    split_ifs at h <;> simp only [List.mem_cons] at h ⊢ <;> tauto

theorem Memory.pairwise_erase (h : m.Pairwise (fun x y => x.1 < y.1)) :
    (Memory.erase a m).Pairwise (fun x y => x.1 < y.1) := by
  induction m with
  | nil => exact h
  | cons c m ih =>
    rw [List.pairwise_cons] at h
    unfold Memory.erase
    split_ifs
    · exact h.2
    · exact List.pairwise_cons.mpr ⟨fun d hd => h.1 d (Memory.mem_erase hd), ih h.2⟩

theorem Memory.pairwise_insert (h : m.Pairwise (fun x y => x.1 < y.1)) :
    (Memory.insert a v m).Pairwise (fun x y => x.1 < y.1) := by
  induction m with
  | nil => simp [Memory.insert]
  | cons c m ih =>
    have h' := List.pairwise_cons.mp h
    unfold Memory.insert
    split_ifs with h1 h2
    · refine List.pairwise_cons.mpr ⟨fun d hd => ?_, h⟩
      rcases List.mem_cons.mp hd with rfl | hd
      · exact h1
      · exact h1.trans (h'.1 d hd)
    · exact List.pairwise_cons.mpr ⟨fun d hd => h2 ▸ h'.1 d hd, h'.2⟩
    · refine List.pairwise_cons.mpr ⟨fun d hd => ?_, ih h'.2⟩
      rcases Memory.mem_insert hd with rfl | hd
      · have : c.1 < a := by omega
        exact this
      · exact h'.1 d hd

theorem Memory.read_erase_same (h : m.Pairwise (fun x y => x.1 < y.1)) :
    Memory.read dflt (Memory.erase a m) a = dflt a := by
  induction m with
  | nil => rfl
  | cons c m ih =>
    have h' := List.pairwise_cons.mp h
    unfold Memory.erase
    split_ifs with h1
    · exact Memory.read_unlisted fun d hd => by have := h'.1 d hd; omega
    · simp [Memory.read, h1, ih h'.2]

theorem Memory.read_erase_other (h : b ≠ a) : Memory.read dflt (Memory.erase a m) b = Memory.read dflt m b := by
  induction m with
  | nil => rfl
  | cons c m ih =>
    unfold Memory.erase
    split_ifs with h1
    · subst h1; simp [Memory.read, h.symm]
    · simp [Memory.read, ih]

/-- Every write keeps the canonical form. -/
theorem Memory.wf_write (h : Memory.wf dflt size m) (ha : a < size) : Memory.wf dflt size (Memory.write dflt m a v) := by
  unfold Memory.write
  split_ifs with hv
  · exact ⟨Memory.pairwise_erase h.1, fun c hc => h.2 c (Memory.mem_erase hc)⟩
  · refine ⟨Memory.pairwise_insert h.1, fun c hc => ?_⟩
    rcases Memory.mem_insert hc with rfl | hc
    · exact ⟨ha, hv⟩
    · exact h.2 c hc

/-- A read after a write to the same offset gives the byte written. -/
theorem Memory.read_write_same (h : m.Pairwise (fun x y => x.1 < y.1)) :
    Memory.read dflt (Memory.write dflt m a v) a = v := by
  unfold Memory.write
  split_ifs with hv
  · rw [Memory.read_erase_same h, hv]
  · exact Memory.read_insert_same

/-- A write leaves every other offset alone. -/
theorem Memory.read_write_other (h : b ≠ a) :
    Memory.read dflt (Memory.write dflt m a v) b = Memory.read dflt m b := by
  unfold Memory.write
  split_ifs
  · exact Memory.read_erase_other h
  · exact Memory.read_insert_other h

/-- A byte of the state's store after one write. -/
theorem State.storeByte_putStore (s : State) (off a : Nat) (v : Byte) (h : s.store.Pairwise (fun x y => x.1 < y.1)) :
    (s.putStore off v).storeByte a = if a = off then v else s.storeByte a := by
  unfold State.storeByte
  split_ifs with h1
  · subst h1; exact Memory.read_write_same h
  · exact Memory.read_write_other h1

/-- The store of the state right after reset is in its canonical form. -/
theorem State.reset_storeWf : State.reset.StoreWf := ⟨List.Pairwise.nil, fun c hc => by cases hc⟩

end Sys2Proof.Machine
end

