-- ==== Sys2Proof/Laws/Store.lean ====
section
/-! SUPPORT. What the store operations can do, said once (spec/20_memory.md R63 to R67, spec/45_persistent_store.md R237),
and the packing of four calibration values in a byte. -/

namespace Sys2Proof.Machine

/-- `CalRead` (R65): the stored field, and one `STRD`. -/
theorem calRead_eq (c : Chan) (s : State) :
    calRead c s =
      (s.storedCal c, { s with trace := s.trace ++ [.strd (calOff s.cfg.params c) (s.storeByte (calOff s.cfg.params c))] }) :=
  rfl

/-- The packed byte `CalWrite` writes back (R66). -/
def packed (s : State) (c : Chan) (v : Cal) : Byte := calInsert c v (s.storeByte (calOff s.cfg.params c))

/-- `CalWrite` (R66): one `STRD`, one `STWR`, one byte of the store. -/
theorem calWrite_eq (c : Chan) (v : Cal) (s : State) :
    calWrite c v s =
      { s with
        store := Memory.write s.cfg.params.powerUpByte s.store (calOff s.cfg.params c) (packed s c v)
        trace := s.trace ++
          [.strd (calOff s.cfg.params c) (s.storeByte (calOff s.cfg.params c)), .stwr (calOff s.cfg.params c) (packed s c v)] } := by
  simp [calWrite, memRead, memWrite, State.emit, State.putStore, packed, List.append_assoc]

/-- A field written is the field read (R66, R239). -/
theorem calField_calInsert (c : Chan) (v : Cal) (b : Byte) : calField c (calInsert c v b) = v := by
  have h : ∀ (k : Fin 4) (v : Cal) (b : Byte),
      (((b &&& ~~~((3 : Byte) <<< ((k.val &&& 3) <<< 1))) ||| (v.setWidth 8 <<< ((k.val &&& 3) <<< 1))) >>>
        ((k.val &&& 3) <<< 1)).extractLsb' 0 2 = v := by decide +kernel
  have := h ⟨c.val % 4, Nat.mod_lt _ (by decide)⟩ v b
  have hk : c.val % 4 &&& 3 = c.val &&& 3 := by
    rw [Nat.and_two_pow_sub_one_eq_mod _ 2, Nat.and_two_pow_sub_one_eq_mod _ 2]; omega
  simpa only [calField, calInsert, calShift, hk] using this

/-- A field written leaves a field at another shift alone (R66, R239). -/
theorem calField_calInsert_other (c c' : Chan) (v : Cal) (b : Byte) (hne : c.val % 4 ≠ c'.val % 4) :
    calField c' (calInsert c v b) = calField c' b := by
  have h : ∀ (j k : Fin 4) (v : Cal) (b : Byte), j ≠ k →
      (((b &&& ~~~((3 : Byte) <<< ((j.val &&& 3) <<< 1))) ||| (v.setWidth 8 <<< ((j.val &&& 3) <<< 1))) >>>
        ((k.val &&& 3) <<< 1)).extractLsb' 0 2 = (b >>> ((k.val &&& 3) <<< 1)).extractLsb' 0 2 := by decide +kernel
  have := h ⟨c.val % 4, Nat.mod_lt _ (by decide)⟩ ⟨c'.val % 4, Nat.mod_lt _ (by decide)⟩ v b (by simpa using hne)
  have hk : ∀ n : Nat, n % 4 &&& 3 = n &&& 3 := fun n => by
    rw [Nat.and_two_pow_sub_one_eq_mod _ 2, Nat.and_two_pow_sub_one_eq_mod _ 2]; omega
  simpa only [calField, calInsert, calShift, hk] using this

/-- The table writes of the reset procedure: every byte of `k .. k + n - 1` of the table is its default (R237). -/
theorem writeDefaults_spec (n k : Nat) (s : State) (hw : s.store.Pairwise (fun x y => x.1 < y.1)) :
    let t := writeDefaults n k s
    t.store.Pairwise (fun x y => x.1 < y.1) ∧
    (∀ off, t.storeByte off =
      if s.cfg.params.calBase + k ≤ off ∧ off < s.cfg.params.calBase + k + n
      then defByte s.cfg.params (off - s.cfg.params.calBase) else s.storeByte off) ∧
    t = { s with
          store := t.store
          trace := s.trace ++ (List.range n).map fun j =>
            .stwr (s.cfg.params.calBase + (k + j)) (defByte s.cfg.params (k + j)) } := by
  induction n generalizing k s with
  | zero => refine ⟨hw, fun off => ?_, by simp [writeDefaults]⟩; simp [writeDefaults]
  | succ n ih =>
    have hp : (memWrite (s.cfg.params.calBase + k) (defByte s.cfg.params k) s).store.Pairwise (fun x y => x.1 < y.1) := by
      simp only [memWrite_store, Memory.write]
      split_ifs
      · exact Memory.pairwise_erase hw
      · exact Memory.pairwise_insert hw
    obtain ⟨h1, h2, h3⟩ := ih (k + 1) _ hp
    refine ⟨h1, fun off => ?_, ?_⟩
    · have hb : (memWrite (s.cfg.params.calBase + k) (defByte s.cfg.params k) s).storeByte off =
          if off = s.cfg.params.calBase + k then defByte s.cfg.params k else s.storeByte off :=
        State.storeByte_putStore s _ _ _ hw
      rw [writeDefaults, h2 off, hb]
      simp only [memWrite_cfg]
      by_cases hoff : off = s.cfg.params.calBase + k
      · subst hoff
        simp
      · simp only [hoff, if_false]
        exact if_congr (by omega) rfl rfl
    · rw [writeDefaults, h3]
      simp [List.range_succ_eq_map, Function.comp_def, Nat.add_assoc, Nat.add_comm 1]

end Sys2Proof.Machine
end

