-- ==== Sys2Proof/Laws/Wire.lean ====
section
/-! SUPPORT. What the pin operations, a frame, the bus reset and `Set` can do, said once (spec/40_wire_driver.md R121, R124,
R125; spec/41_register_model.md R141), and what a receiver makes of a frame. -/

namespace Sys2Proof.Machine

/-- Pin writes set the levels and append one event each; nothing else. -/
theorem pinWrites_eq (ws : List (Line × Bool)) (s : State) :
    pinWrites ws s =
      { s with
        pins := ws.foldl (fun p w => p.drive w.1 w.2) s.pins
        trace := s.trace ++ ws.map fun w => .pin w.1 w.2 } := by
  induction ws generalizing s with
  | nil => simp [pinWrites]
  | cons w ws ih => simp [pinWrites, ih, pinWrite, State.emit]

/-- A frame is 38 events (R91). -/
theorem frame_length (a : Addr) (v : Byte) : (frame a v).length = 38 := by
  simp [frame, frameBits, bitsLsb, List.flatMap, List.range, List.range.loop]

/-- One frame (R121): the pins end at `DATA = v[7]`, `CLK = 0`, `LATCH = 0`, the device has the value, 38 events. -/
theorem wireWrite_eq (a : Addr) (v : Byte) (s : State) :
    wireWrite a v s =
      { s with
        pins := ⟨v.getLsbD 7, false, false⟩
        dev := s.dev.set a.toNat (some v)
        trace := s.trace ++ frame a v } := by
  simp [wireWrite, pinWrites_eq, pinWrite, State.emit, State.putDev, frame, frameBits, bitsLsb, slot, List.flatMap,
    List.range, List.range.loop, Pins.drive]

section
variable (a : Addr) (v : Byte) (s : State)
@[simp] theorem wireWrite_cfg : (wireWrite a v s).cfg = s.cfg := by rw [wireWrite_eq]
@[simp] theorem wireWrite_regs : (wireWrite a v s).regs = s.regs := by rw [wireWrite_eq]
@[simp] theorem wireWrite_ready : (wireWrite a v s).ready = s.ready := by rw [wireWrite_eq]
@[simp] theorem wireWrite_tstate : (wireWrite a v s).tstate = s.tstate := by rw [wireWrite_eq]
@[simp] theorem wireWrite_busy : (wireWrite a v s).busy = s.busy := by rw [wireWrite_eq]
@[simp] theorem wireWrite_session : (wireWrite a v s).session = s.session := by rw [wireWrite_eq]
@[simp] theorem wireWrite_pins : (wireWrite a v s).pins = ⟨v.getLsbD 7, false, false⟩ := by rw [wireWrite_eq]
@[simp] theorem wireWrite_cnt : (wireWrite a v s).cnt = s.cnt := by rw [wireWrite_eq]
@[simp] theorem wireWrite_timer : (wireWrite a v s).timer = s.timer := by rw [wireWrite_eq]
@[simp] theorem wireWrite_dev : (wireWrite a v s).dev = s.dev.set a.toNat (some v) := by rw [wireWrite_eq]
@[simp] theorem wireWrite_store : (wireWrite a v s).store = s.store := by rw [wireWrite_eq]
@[simp] theorem wireWrite_curChan : (wireWrite a v s).curChan = s.curChan := by rw [wireWrite_eq]
@[simp] theorem wireWrite_commands : (wireWrite a v s).commands = s.commands := by rw [wireWrite_eq]
@[simp] theorem wireWrite_lockLine : (wireWrite a v s).lockLine = s.lockLine := by rw [wireWrite_eq]
@[simp] theorem wireWrite_drawn : (wireWrite a v s).drawn = s.drawn := by rw [wireWrite_eq]
@[simp] theorem wireWrite_trace : (wireWrite a v s).trace = s.trace ++ frame a v := by rw [wireWrite_eq]
end

/-- The mirror after `Set(a, v)`: element `a` where there is one (R141). -/
def regsAfter (a : Addr) (v : Byte) (regs : Vector Byte 9) : Vector Byte 9 :=
  match mirrorIdx a with
  | some i => regs.set i.val v
  | none => regs

/-- `Set` (R141): one frame, then the mirror. -/
theorem setReg_eq (a : Addr) (v : Byte) (s : State) :
    setReg a v s = { wireWrite a v s with regs := regsAfter a v s.regs } := by
  unfold setReg regsAfter
  cases mirrorIdx a <;> simp [wireWrite_eq, State.putMirror]

section
variable (a : Addr) (v : Byte) (s : State)
@[simp] theorem setReg_cfg : (setReg a v s).cfg = s.cfg := by simp [setReg_eq]
@[simp] theorem setReg_regs : (setReg a v s).regs = regsAfter a v s.regs := by simp [setReg_eq]
@[simp] theorem setReg_ready : (setReg a v s).ready = s.ready := by simp [setReg_eq]
@[simp] theorem setReg_tstate : (setReg a v s).tstate = s.tstate := by simp [setReg_eq]
@[simp] theorem setReg_busy : (setReg a v s).busy = s.busy := by simp [setReg_eq]
@[simp] theorem setReg_session : (setReg a v s).session = s.session := by simp [setReg_eq]
@[simp] theorem setReg_pins : (setReg a v s).pins = ⟨v.getLsbD 7, false, false⟩ := by simp [setReg_eq]
@[simp] theorem setReg_cnt : (setReg a v s).cnt = s.cnt := by simp [setReg_eq]
@[simp] theorem setReg_timer : (setReg a v s).timer = s.timer := by simp [setReg_eq]
@[simp] theorem setReg_dev : (setReg a v s).dev = s.dev.set a.toNat (some v) := by simp [setReg_eq]
@[simp] theorem setReg_store : (setReg a v s).store = s.store := by simp [setReg_eq]
@[simp] theorem setReg_curChan : (setReg a v s).curChan = s.curChan := by simp [setReg_eq]
@[simp] theorem setReg_commands : (setReg a v s).commands = s.commands := by simp [setReg_eq]
@[simp] theorem setReg_lockLine : (setReg a v s).lockLine = s.lockLine := by simp [setReg_eq]
@[simp] theorem setReg_drawn : (setReg a v s).drawn = s.drawn := by simp [setReg_eq]
@[simp] theorem setReg_trace : (setReg a v s).trace = s.trace ++ frame a v := by simp [setReg_eq]
end

/-- The address of a mirrored register has that mirror element. -/
@[simp] theorem mirrorIdx_addrOf (r : RegIdx) : mirrorIdx (addrOf r) = some r := by revert r; decide

theorem addrOf_toNat (r : RegIdx) : (addrOf r).toNat = r.val := by revert r; decide

/-- `Set` at the address of a mirrored register. -/
theorem regsAfter_addrOf (r : RegIdx) (v : Byte) (regs : Vector Byte 9) :
    regsAfter (addrOf r) v regs = regs.set r.val v := by simp [regsAfter]

/-! ## The receiver -/

theorem Receiver.events_append (xs ys : List Event) (r : Receiver) :
    Receiver.events (xs ++ ys) r = Receiver.events ys (Receiver.events xs r) := by
  induction xs generalizing r with
  | nil => rfl
  | cons e xs ih => simp [Receiver.events, ih]

/-- Slots clock their bits in, from and to a low clock. -/
theorem Receiver.events_slots (bits : List Bool) (r : Receiver) (hc : r.pins.clk = false) :
    Receiver.events (bits.flatMap fun b => [.pin .data b, .pin .clk true, .pin .clk false]) r =
      { r with
        pins := { r.pins with data := bits.getLast?.getD r.pins.data }
        shift := r.shift ++ bits } := by
  induction bits generalizing r with
  | nil => simp [Receiver.events]
  | cons b bits ih =>
    rw [List.flatMap_cons, Receiver.events_append]
    simp only [Receiver.events, Receiver.event, Pins.drive, hc]
    rw [ih _ rfl]
    cases r with | mk p sh d => cases p; simp_all [List.getLast?_cons]

/-- Reading a value's bits back gives the value. -/
theorem natOfBits_bitsLsb4 (a : Addr) : BitVec.ofNat 4 (natOfBits (bitsLsb 4 a)) = a := by revert a; decide

theorem natOfBits_bitsLsb8 (v : Byte) : BitVec.ofNat 8 (natOfBits (bitsLsb 8 v)) = v := by
  revert v; decide +kernel

/-- A frame, whatever was clocked in before it, latches its value at its address (R90, R91). -/
theorem Receiver.events_frame (a : Addr) (v : Byte) (r : Receiver) (hc : r.pins.clk = false) (hl : r.pins.latch = false) :
    Receiver.events (frame a v) r = ⟨⟨v.getLsbD 7, false, false⟩, [], r.dev.set a.toNat (some v)⟩ := by
  have h12 : (frameBits a v).length = 12 := by simp [frameBits, bitsLsb]
  have hlast : (frameBits a v).getLast? = some (v.getLsbD 7) := by
    simp [frameBits, bitsLsb, List.range, List.range.loop]
  have h4 : (frameBits a v).take 4 = bitsLsb 4 a := by simp [frameBits, bitsLsb]
  have h8 : (frameBits a v).drop 4 = bitsLsb 8 v := by simp [frameBits, bitsLsb]
  rw [frame, Receiver.events_append, Receiver.events_slots _ _ hc]
  simp [Receiver.events, Receiver.event, Pins.drive, Receiver.latch, hc, hl, h12, hlast, h4, h8, natOfBits_bitsLsb4,
    natOfBits_bitsLsb8]

end Sys2Proof.Machine
end

