-- ==== Sys2Proof/Laws/Calibration.lean ====
section
/-! SUPPORT. What `ApplyCal`, a trial, the commit and the search can do, said once (spec/44_calibration.md R201 to R206). -/

namespace Sys2Proof.Machine

/-! ## Which samples a query sees -/

theorem State.samples_congr {s t : State} (hl : t.lockLine = s.lockLine) (hd : t.drawn = s.drawn) (n : Nat) :
    t.samples n = s.samples n :=
  List.map_congr_left fun k _ => by rw [State.lockBit, State.lockBit, hl, hd]

theorem State.querySamples_congr {s t : State} (hl : t.lockLine = s.lockLine) (hd : t.drawn = s.drawn) (k : Nat) :
    t.querySamples k = s.querySamples k := by
  rw [State.querySamples, State.querySamples, State.samples_congr hl hd]

theorem State.vote_congr {s t : State} (hl : t.lockLine = s.lockLine) (hd : t.drawn = s.drawn) (k : Nat) :
    t.vote k = s.vote k := by
  rw [State.vote, State.vote, State.querySamples_congr hl hd]

theorem State.querySamples_length (s : State) (k : Nat) : (s.querySamples k).length = 50 := by
  rw [State.querySamples, List.length_drop, State.samples_length]
  omega

/-- The first query sees the next 50 samples. -/
theorem State.querySamples_zero (s : State) : s.querySamples 0 = s.samples 50 := rfl

/-- The first query is decided by the next 50 samples. -/
theorem State.vote_zero (s : State) : s.vote 0 = majority (s.samples 50) := rfl

/-- After a query, what was the next but `k` query is the next but `k - 1`. -/
theorem State.querySamples_shift {s t : State} (hl : t.lockLine = s.lockLine.drop 50) (hd : t.drawn = s.drawn + 50) (k : Nat) :
    t.querySamples k = s.querySamples (k + 1) := by
  have hbit : ∀ j, t.lockBit j = s.lockBit (50 + j) := fun j => by
    unfold State.lockBit
    rw [hl, hd, List.getD_eq_getElem?_getD, List.getD_eq_getElem?_getD, List.getElem?_drop, Nat.add_assoc]
  have hlist : ∀ (u : State) (j : Nat), (u.samples (50 * (j + 1))).drop (50 * j) =
      (List.range 50).map fun x => u.lockBit (50 * j + x) := fun u j => by
    rw [State.samples, ← List.map_drop, Nat.mul_add, List.range_add, List.drop_left' (by simp), List.map_map]
    rfl
  unfold State.querySamples
  rw [hlist, hlist]
  refine List.map_congr_left fun x _ => ?_
  rw [hbit]
  congr 1
  omega

theorem State.vote_shift {s t : State} (hl : t.lockLine = s.lockLine.drop 50) (hd : t.drawn = s.drawn + 50) (k : Nat) :
    t.vote k = s.vote (k + 1) := by
  rw [State.vote, State.vote, State.querySamples_shift hl hd]

/-! ## The calibration field -/

theorem State.reg_congr {s t : State} (h : t.regs = s.regs) (i : RegIdx) : t.reg i = s.reg i := by
  rw [State.reg, State.reg, h]

theorem State.activeCal_congr {s t : State} (hc : t.cfg = s.cfg) (h : t.regs = s.regs) : t.activeCal = s.activeCal := by
  rw [State.activeCal, State.activeCal, hc, State.reg_congr h]

theorem State.storeByte_congr {s t : State} (hc : t.cfg = s.cfg) (h : t.store = s.store) (off : Nat) :
    t.storeByte off = s.storeByte off := by
  rw [State.storeByte, State.storeByte, hc, h]

theorem State.storedCal_congr {s t : State} (hc : t.cfg = s.cfg) (h : t.store = s.store) (c : Chan) :
    t.storedCal c = s.storedCal c := by
  rw [State.storedCal, State.storedCal, State.storeByte, State.storeByte, hc, h]

theorem withCalField_low (v : Cal) (r : Byte) : (withCalField v r).extractLsb' 0 2 = v := by
  revert v r; decide +kernel

theorem withCalField_high (v : Cal) (r : Byte) : (withCalField v r) >>> 2 = r >>> 2 := by
  revert v r; decide +kernel

theorem withCalField_twice (v w : Cal) (r : Byte) : withCalField v (withCalField w r) = withCalField v r := by
  revert v w r; decide +kernel

/-- The events of `ApplyCal` (R201). -/
def applyEvents (v : Cal) (s : State) : List Event :=
  if s.activeCal = v then []
  else frame (addrOf s.cfg.params.regCal) (withCalField v (s.reg s.cfg.params.regCal)) ++ [.delay .tApply]

/-- `ApplyCal` where the value is active: nothing (R201). -/
theorem applyCal_active {v : Cal} {s : State} (h : s.activeCal = v) : applyCal v s = s := by
  simp [applyCal, State.calActive, h]

/-- `ApplyCal` where it is not: one write-through, then the settle (R201). -/
theorem applyCal_inactive {v : Cal} {s : State} (h : s.activeCal ≠ v) :
    applyCal v s =
      wait .tApply (setReg (addrOf s.cfg.params.regCal) (withCalField v (s.reg s.cfg.params.regCal)) s) := by
  simp [applyCal, State.calActive, h]

section
variable (v : Cal) (s : State)
@[simp] theorem applyCal_cfg : (applyCal v s).cfg = s.cfg := by unfold applyCal; split <;> simp
@[simp] theorem applyCal_ready : (applyCal v s).ready = s.ready := by unfold applyCal; split <;> simp
@[simp] theorem applyCal_tstate : (applyCal v s).tstate = s.tstate := by unfold applyCal; split <;> simp
@[simp] theorem applyCal_busy : (applyCal v s).busy = s.busy := by unfold applyCal; split <;> simp
@[simp] theorem applyCal_session : (applyCal v s).session = s.session := by unfold applyCal; split <;> simp
@[simp] theorem applyCal_cnt : (applyCal v s).cnt = s.cnt := by unfold applyCal; split <;> simp
@[simp] theorem applyCal_store : (applyCal v s).store = s.store := by unfold applyCal; split <;> simp
@[simp] theorem applyCal_curChan : (applyCal v s).curChan = s.curChan := by unfold applyCal; split <;> simp
@[simp] theorem applyCal_commands : (applyCal v s).commands = s.commands := by unfold applyCal; split <;> simp
@[simp] theorem applyCal_lockLine : (applyCal v s).lockLine = s.lockLine := by unfold applyCal; split <;> simp
@[simp] theorem applyCal_drawn : (applyCal v s).drawn = s.drawn := by unfold applyCal; split <;> simp
end

theorem applyCal_trace (v : Cal) (s : State) : (applyCal v s).trace = s.trace ++ applyEvents v s := by
  by_cases h : s.activeCal = v
  · simp [applyCal_active h, applyEvents, h]
  · simp [applyCal_inactive h, applyEvents, h]

/-- The mirror after `ApplyCal`: the calibration field, nothing else. -/
theorem applyCal_reg (v : Cal) (s : State) (i : RegIdx) :
    (applyCal v s).reg i = if i = s.cfg.params.regCal then withCalField v (s.reg i) else s.reg i := by
  by_cases h : s.activeCal = v
  · rw [applyCal_active h]
    split_ifs with hi
    · subst hi
      have hw : ∀ (r : Byte), withCalField (r.extractLsb' 0 2) r = r := by decide +kernel
      rw [← h, State.activeCal, hw]
    · rfl
  · rw [applyCal_inactive h]
    simp only [State.reg, wait_regs, setReg_regs, regsAfter_addrOf, Vector.getElem_set]
    split_ifs with h1 h2 h2
    · rw [h2]
    · exact absurd (Fin.ext h1).symm h2
    · exact absurd (congrArg Fin.val h2).symm h1
    · rfl

theorem applyCal_activeCal (v : Cal) (s : State) : (applyCal v s).activeCal = v := by
  rw [State.activeCal, applyCal_cfg, applyCal_reg, if_pos rfl, withCalField_low]

/-! ## A trial (R203, R204) -/

section
variable (s : State)
@[simp] theorem lockQuery_session : (lockQuery s).session = { s.session with lock := some (majority (s.samples 50)) } := by
  simp [lockQuery]
@[simp] theorem lockQuery_cfg : (lockQuery s).cfg = s.cfg := by simp [lockQuery]
@[simp] theorem lockQuery_regs : (lockQuery s).regs = s.regs := by simp [lockQuery]
@[simp] theorem lockQuery_ready : (lockQuery s).ready = s.ready := by simp [lockQuery]
@[simp] theorem lockQuery_tstate : (lockQuery s).tstate = s.tstate := by simp [lockQuery]
@[simp] theorem lockQuery_busy : (lockQuery s).busy = s.busy := by simp [lockQuery]
@[simp] theorem lockQuery_pins : (lockQuery s).pins = s.pins := by simp [lockQuery]
@[simp] theorem lockQuery_cnt : (lockQuery s).cnt = none := by simp [lockQuery]
@[simp] theorem lockQuery_timer : (lockQuery s).timer = none := by simp [lockQuery]
@[simp] theorem lockQuery_dev : (lockQuery s).dev = s.dev := by simp [lockQuery]
@[simp] theorem lockQuery_store : (lockQuery s).store = s.store := by simp [lockQuery]
@[simp] theorem lockQuery_curChan : (lockQuery s).curChan = s.curChan := by simp [lockQuery]
@[simp] theorem lockQuery_commands : (lockQuery s).commands = s.commands := by simp [lockQuery]
@[simp] theorem lockQuery_lockLine : (lockQuery s).lockLine = s.lockLine.drop 50 := by simp [lockQuery]
@[simp] theorem lockQuery_drawn : (lockQuery s).drawn = s.drawn + 50 := by simp [lockQuery]
@[simp] theorem lockQuery_trace : (lockQuery s).trace = s.trace ++ voteEvents (s.samples 50) := by simp [lockQuery]
end

section
variable (v : Cal) (s : State)
@[simp] theorem trial_cfg : (trial v s).cfg = s.cfg := by simp [trial]
@[simp] theorem trial_ready : (trial v s).ready = s.ready := by simp [trial]
@[simp] theorem trial_tstate : (trial v s).tstate = s.tstate := by simp [trial]
@[simp] theorem trial_busy : (trial v s).busy = s.busy := by simp [trial]
@[simp] theorem trial_cnt : (trial v s).cnt = none := by simp [trial]
@[simp] theorem trial_timer : (trial v s).timer = none := by simp [trial]
@[simp] theorem trial_store : (trial v s).store = s.store := by simp [trial]
@[simp] theorem trial_curChan : (trial v s).curChan = s.curChan := by simp [trial]
@[simp] theorem trial_commands : (trial v s).commands = s.commands := by simp [trial]
@[simp] theorem trial_lockLine : (trial v s).lockLine = s.lockLine.drop 50 := by simp [trial]
@[simp] theorem trial_drawn : (trial v s).drawn = s.drawn + 50 := by simp [trial]
end

theorem trial_session (v : Cal) (s : State) : (trial v s).session = { s.session with lock := some (s.vote 0) } := by
  simp only [trial, lockQuery_session, wait_session, applyCal_session, State.vote_zero]
  rw [State.samples_congr (s := s) (by simp) (by simp)]

theorem trial_trace (v : Cal) (s : State) :
    (trial v s).trace = s.trace ++ applyEvents v s ++ [.delay .tSearch] ++ voteEvents (s.samples 50) := by
  simp only [trial, lockQuery_trace, wait_trace, applyCal_trace]
  rw [State.samples_congr (s := s) (by simp) (by simp)]

theorem trial_reg (v : Cal) (s : State) (i : RegIdx) :
    (trial v s).reg i = if i = s.cfg.params.regCal then withCalField v (s.reg i) else s.reg i := by
  rw [State.reg_congr (s := applyCal v s) (by simp [trial]), applyCal_reg]

theorem trial_activeCal (v : Cal) (s : State) : (trial v s).activeCal = v := by
  rw [State.activeCal, trial_cfg, trial_reg, if_pos rfl, withCalField_low]

theorem trial_vote (v : Cal) (s : State) (k : Nat) : (trial v s).vote k = s.vote (k + 1) :=
  State.vote_shift (by simp) (by simp) k

theorem trial_storedCal (v : Cal) (s : State) (c : Chan) : (trial v s).storedCal c = s.storedCal c :=
  State.storedCal_congr (by simp) (by simp) c

/-! ## Commit and search (R203, R205, R206) -/

section
variable (c : Chan) (v : Cal) (s : State)
@[simp] theorem calWrite_cfg : (calWrite c v s).cfg = s.cfg := by rw [calWrite_eq]
@[simp] theorem calWrite_regs : (calWrite c v s).regs = s.regs := by rw [calWrite_eq]
@[simp] theorem calWrite_ready : (calWrite c v s).ready = s.ready := by rw [calWrite_eq]
@[simp] theorem calWrite_tstate : (calWrite c v s).tstate = s.tstate := by rw [calWrite_eq]
@[simp] theorem calWrite_busy : (calWrite c v s).busy = s.busy := by rw [calWrite_eq]
@[simp] theorem calWrite_session : (calWrite c v s).session = s.session := by rw [calWrite_eq]
@[simp] theorem calWrite_pins : (calWrite c v s).pins = s.pins := by rw [calWrite_eq]
@[simp] theorem calWrite_cnt : (calWrite c v s).cnt = s.cnt := by rw [calWrite_eq]
@[simp] theorem calWrite_timer : (calWrite c v s).timer = s.timer := by rw [calWrite_eq]
@[simp] theorem calWrite_dev : (calWrite c v s).dev = s.dev := by rw [calWrite_eq]
@[simp] theorem calWrite_curChan : (calWrite c v s).curChan = s.curChan := by rw [calWrite_eq]
@[simp] theorem calWrite_commands : (calWrite c v s).commands = s.commands := by rw [calWrite_eq]
@[simp] theorem calWrite_lockLine : (calWrite c v s).lockLine = s.lockLine := by rw [calWrite_eq]
@[simp] theorem calWrite_drawn : (calWrite c v s).drawn = s.drawn := by rw [calWrite_eq]
end

/-- The store bytes after `CalWrite` (R66): one byte, its other fields kept. -/
theorem calWrite_storeByte (c : Chan) (v : Cal) (s : State) (hw : s.store.Pairwise (fun x y => x.1 < y.1)) (off : Nat) :
    (calWrite c v s).storeByte off = if off = calOff s.cfg.params c then packed s c v else s.storeByte off := by
  rw [calWrite_eq]
  exact State.storeByte_putStore s _ _ _ hw

/-- `CalWrite` leaves every byte but its channel's alone, whatever form the store is in. -/
theorem calWrite_storeByte_other (c : Chan) (v : Cal) (s : State) (off : Nat) (h : off ≠ calOff s.cfg.params c) :
    (calWrite c v s).storeByte off = s.storeByte off := by
  rw [calWrite_eq]
  exact Memory.read_write_other h

/-- The table after `CalWrite` (R239): the channel has the value, every other channel what it had. -/
theorem calWrite_storedCal (c : Chan) (v : Cal) (s : State) (hw : s.store.Pairwise (fun x y => x.1 < y.1)) (c' : Chan) :
    (calWrite c v s).storedCal c' = if c' = c then v else s.storedCal c' := by
  simp only [State.storedCal, calWrite_cfg, calWrite_storeByte c v s hw]
  by_cases hc : c' = c
  · subst hc; simp [packed, calField_calInsert]
  · rw [if_neg hc]
    split_ifs with ho
    · rw [packed, ← ho]
      refine calField_calInsert_other c c' v _ fun hm => hc (Fin.ext ?_)
      unfold calOff at ho
      rw [Nat.shiftRight_eq_div_pow, Nat.shiftRight_eq_div_pow] at ho
      omega
    · rfl

/-- What a search from its `n`-th trial value on leaves, over all its outcomes. -/
theorem calSearch_frame (c : Chan) (vs : List Cal) (s : State) :
    let t := calSearch c vs s
    t.cfg = s.cfg ∧ t.ready = s.ready ∧ t.tstate = s.tstate ∧ t.busy = s.busy ∧ t.curChan = s.curChan ∧
    t.commands = s.commands ∧ t.session.chan = s.session.chan ∧ t.session.cp = s.session.cp ∧
    (s.session.cal.isSome → t.session.cal.isSome) ∧
    (∀ i, i ≠ s.cfg.params.regCal → t.reg i = s.reg i) ∧
    t.reg s.cfg.params.regCal >>> 2 = s.reg s.cfg.params.regCal >>> 2 ∧
    (∀ off, off ≠ calOff s.cfg.params c → t.storeByte off = s.storeByte off) := by
  induction vs generalizing s with
  | nil => simp [calSearch]
  | cons v vs ih =>
    have hstore : ∀ off, (trial v s).storeByte off = s.storeByte off :=
      State.storeByte_congr (trial_cfg v s) (trial_store v s)
    have hcal : (trial v s).reg s.cfg.params.regCal >>> 2 = s.reg s.cfg.params.regCal >>> 2 := by
      rw [trial_reg, if_pos rfl, withCalField_high]
    have hother : ∀ i, i ≠ s.cfg.params.regCal → (trial v s).reg i = s.reg i := fun i hi => by
      rw [trial_reg, if_neg hi]
    unfold calSearch
    split
    · have hreg : ∀ i, (commit c v (trial v s)).reg i = (trial v s).reg i := fun i =>
        State.reg_congr (by simp [commit]) i
      refine ⟨by simp [commit], by simp [commit], by simp [commit], by simp [commit], by simp [commit], by simp [commit],
        by simp [commit, trial_session], by simp [commit, trial_session], by simp [commit],
        fun i hi => (hreg i).trans (hother i hi), (by rw [hreg]; exact hcal), fun off ho => ?_⟩
      rw [commit, calWrite_storeByte_other _ _ _ _ (by simpa using ho)]
      exact State.storeByte_congr (by simp) (by simp) off
    · obtain ⟨h1, h2, h3, h4, h5, h6, h7, h8, h9, h10, h11, h12⟩ := ih (trial v s)
      simp only [trial_cfg, trial_ready, trial_tstate, trial_busy, trial_curChan, trial_commands, trial_session] at *
      exact ⟨h1, h2, h3, h4, h5, h6, h7, h8, h9, fun i hi => (h10 i hi).trans (hother i hi), h11.trans hcal,
        fun off ho => (h12 off ho).trans (hstore off)⟩

/-- The device addresses other than the calibration register's keep what they latched, through an apply, a trial, a search. -/
theorem applyCal_dev (v : Cal) (s : State) (a : Fin 16) (h : a.val ≠ s.cfg.params.regCal.val) :
    (applyCal v s).dev[a.val] = s.dev[a.val] := by
  unfold applyCal
  split
  · rfl
  · simp only [wait_dev, setReg_dev]
    exact Vector.getElem_set_ne _ _ (by rw [addrOf_toNat]; exact Ne.symm h)

theorem trial_dev (v : Cal) (s : State) (a : Fin 16) (h : a.val ≠ s.cfg.params.regCal.val) :
    (trial v s).dev[a.val] = s.dev[a.val] := by
  simp only [trial, lockQuery_dev, wait_dev]
  exact applyCal_dev v s a h

theorem calSearch_dev (c : Chan) (vs : List Cal) (s : State) (a : Fin 16) (h : a.val ≠ s.cfg.params.regCal.val) :
    (calSearch c vs s).dev[a.val] = s.dev[a.val] := by
  induction vs generalizing s with
  | nil => rfl
  | cons v vs ih =>
    unfold calSearch
    split
    · simp only [commit, calWrite_dev, State.putSession_dev]
      exact trial_dev v s a h
    · exact (ih _ (by simpa using h)).trans (trial_dev v s a h)

end Sys2Proof.Machine
end

