-- ==== Sys2Proof/Laws/Chain.lean ====
section
/-! SUPPORT. What a command can do, said once: `exec_chain` says that a command that answers a next state got there by a chain of
shared operations, and which kinds of them. An invariant of every command is then an invariant of each operation. -/

namespace Sys2Proof.Machine

/-- The kinds of shared operations. -/
inductive Kind where
  | raw (a : Addr) | set | bus | read | write (off : Nat) | settle | query | rsp | tstate | session | ready

/-- One shared operation, with its kind. -/
inductive Micro : Kind → State → State → Prop
  | raw (a : Addr) (v : Byte) (s : State) : Micro (.raw a) s (wireWrite a v s)
  | set (a : Addr) (v : Byte) (s : State) : Micro .set s (setReg a v s)
  | bus (s : State) : Micro .bus s (pinWrites busReset s)
  | read (off : Nat) (s : State) : Micro .read s (memRead off s).2
  | write (off : Nat) (b : Byte) (s : State) (h : off < s.cfg.params.storeSize) : Micro (.write off) s (memWrite off b s)
  | settle (d : Delay) (s : State) : Micro .settle s (wait d s)
  | query (s : State) : Micro .query s (hasLock s).2
  | rsp (b : Byte) (s : State) : Micro .rsp s (respond b s)
  | tstate (t : TState) (s : State) : Micro .tstate s (s.putTState t)
  | session (x : Session) (s : State) : Micro .session s (s.putSession x)
  | ready (f : Bool) (s : State) : Micro .ready s (s.putReady f)

/-- A chain of operations, all of kinds in `K`. -/
inductive Chain (K : Kind → Prop) : State → State → Prop
  | nil (s : State) : Chain K s s
  | cons {k : Kind} {s t u : State} (h : Micro k s t) (hk : K k) (rest : Chain K t u) : Chain K s u

theorem Chain.one {K : Kind → Prop} {k : Kind} {s t : State} (h : Micro k s t) (hk : K k) : Chain K s t :=
  .cons h hk (.nil t)

theorem Chain.trans {K : Kind → Prop} {s t u : State} (h1 : Chain K s t) (h2 : Chain K t u) : Chain K s u := by
  induction h1 with
  | nil => exact h2
  | cons h hk _ ih => exact .cons h hk (ih h2)

theorem Chain.mono {K L : Kind → Prop} {s t : State} (h : Chain K s t) (hKL : ∀ k, K k → L k) : Chain L s t := by
  induction h with
  | nil => exact .nil _
  | cons h hk _ ih => exact .cons h (hKL _ hk) ih

/-- An invariant that each operation keeps is kept by the chain. -/
theorem Chain.keeps {K : Kind → Prop} {P : State → Prop} (hP : ∀ k s t, K k → Micro k s t → P s → P t) {s t : State}
    (h : Chain K s t) (hs : P s) : P t := by
  induction h with
  | nil => exact hs
  | cons h hk _ ih => exact ih (hP _ _ _ hk h hs)

/-- A relation to the start that is reflexive, and that each operation extends, holds along the chain. -/
theorem Chain.relates {K : Kind → Prop} {R : State → State → Prop} (hrefl : ∀ s, R s s)
    (hstep : ∀ k s t u, K k → R s t → Micro k t u → R s u) {s t : State} (h : Chain K s t) : R s t := by
  have key : ∀ s0, R s0 s → R s0 t := by
    induction h with
    | nil => exact fun s0 h => h
    | cons h hk _ ih => exact fun s0 h0 => ih s0 (hstep _ _ _ _ hk h0 h)
  exact key s (hrefl s)

/-- No operation changes the configuration, the host's inputs to come, `BUSY` or `CUR_CHAN`. -/
theorem Micro.constant {k : Kind} {s t : State} (h : Micro k s t) :
    t.cfg = s.cfg ∧ t.busy = s.busy ∧ t.curChan = s.curChan ∧ t.commands = s.commands := by
  cases h <;> simp [pinWrites_eq, respond]

theorem Chain.constant {K : Kind → Prop} {s t : State} (h : Chain K s t) :
    t.cfg = s.cfg ∧ t.busy = s.busy ∧ t.curChan = s.curChan ∧ t.commands = s.commands := by
  refine Chain.relates (R := fun s t => t.cfg = s.cfg ∧ t.busy = s.busy ∧ t.curChan = s.curChan ∧ t.commands = s.commands)
    (fun _ => ⟨rfl, rfl, rfl, rfl⟩) (fun k s t u _ hst htu => ?_) h
  obtain ⟨h1, h2, h3, h4⟩ := hst
  obtain ⟨g1, g2, g3, g4⟩ := htu.constant
  exact ⟨g1.trans h1, g2.trans h2, g3.trans h3, g4.trans h4⟩

/-! ## The chains of the procedures -/

section
variable {K : Kind → Prop}

theorem applyCal_chain (v : Cal) (s : State) (h1 : K .set) (h2 : K .settle) : Chain K s (applyCal v s) := by
  unfold applyCal
  split
  · exact .nil s
  · exact .cons (.set _ _ s) h1 (.one (.settle _ _) h2)

theorem lockQuery_chain (s : State) (h1 : K .query) (h2 : K .session) : Chain K s (lockQuery s) :=
  .cons (.query s) h1 (.one (.session _ _) h2)

theorem trial_chain (v : Cal) (s : State) (h1 : K .set) (h2 : K .settle) (h3 : K .query) (h4 : K .session) :
    Chain K s (trial v s) :=
  (applyCal_chain v s h1 h2).trans (.cons (.settle _ _) h2 (lockQuery_chain _ h3 h4))

theorem calRead_chain (c : Chan) (s : State) (h1 : K .read) : Chain K s (calRead c s).2 :=
  .one (.read _ s) h1

theorem calWrite_chain (c : Chan) (v : Cal) (s : State) (h1 : K .read) (h2 : K (.write (calOff s.cfg.params c))) :
    Chain K s (calWrite c v s) :=
  .cons (.read _ s) h1 (.one (.write _ _ _ (Config.calOff_inside s.cfg c)) h2)

theorem calSearch_chain (c : Chan) (vs : List Cal) (s : State) (h1 : K .set) (h2 : K .settle) (h3 : K .query)
    (h4 : K .session) (h5 : K .read) (h6 : K (.write (calOff s.cfg.params c))) : Chain K s (calSearch c vs s) := by
  induction vs generalizing s with
  | nil => exact .nil s
  | cons v vs ih =>
    unfold calSearch
    split
    · exact (trial_chain v s h1 h2 h3 h4).trans
        (.cons (.session _ _) h4 (calWrite_chain c v _ h5 (by simpa using h6)))
    · exact (trial_chain v s h1 h2 h3 h4).trans (ih _ (by simpa using h6))

theorem setChargePump_chain (b : Byte) (s : State) (h1 : K .set) : Chain K s (setChargePump b s) := .one (.set _ _ s) h1

theorem tuneAccepted_chain (c : Chan) (s : State) (h1 : K .set) (h2 : K .settle) (h3 : K .query) (h4 : K .session)
    (h5 : K .read) (h6 : K (.write (calOff s.cfg.params c))) (h7 : K .tstate) : Chain K s (tuneAccepted c s) := by
  have look : Chain K s (tuneLookUp c s) := .cons (.session _ s) h4 (.cons (.read _ _) h5 (.one (.session _ _) h4))
  have raise : ∀ u, Chain K u (tuneRaise u) := fun u =>
    (setChargePump_chain _ u h1).trans (.cons (.session _ _) h4 (.one (.tstate _ _) h7))
  have program : ∀ u, Chain K u (tuneProgram c u) := fun u =>
    .cons (.set _ _ u) h1 (.cons (.set _ _ _) h1 (.one (.tstate _ _) h7))
  have apply : ∀ u, Chain K u (tuneApply (calRead c s).1 u) := fun u =>
    (applyCal_chain _ u h1 h2).trans (.one (.tstate _ _) h7)
  have upto : Chain K s (tuneApply (calRead c s).1 (tuneProgram c (tuneRaise (tuneLookUp c s)))) :=
    ((look.trans (raise _)).trans (program _)).trans (apply _)
  have check : ∀ u, u.cfg = s.cfg → Chain K u (tuneCheck c u) := fun u hu => by
    have vote : Chain K u (tuneVote (u.putTState .lockCheck)) :=
      .cons (.tstate _ u) h7 ((lockQuery_chain _ h3 h4).trans (.one (.tstate _ _) h7))
    unfold tuneCheck
    split
    · refine vote.trans ?_
      unfold tuneSearch
      split
      · exact .nil _
      · exact calSearch_chain c _ _ h1 h2 h3 h4 h5 (by rw [vote.constant.1, hu]; exact h6)
    · exact .nil u
  have lower : ∀ u, Chain K u (tuneLower u) := fun u =>
    (setChargePump_chain _ u h1).trans (.cons (.session _ _) h4 (.one (.tstate _ _) h7))
  have done : ∀ u, Chain K u (tuneDone u) := fun u => .cons (.tstate _ u) h7 (.one (.session _ _) h4)
  exact ((upto.trans (check _ upto.constant.1)).trans (lower _)).trans (done _)

theorem writeDefaults_chain (n k : Nat) (s : State) (hk : k + n ≤ 26)
    (h : ∀ j, j < 26 → K (.write (s.cfg.params.calBase + j))) : Chain K s (writeDefaults n k s) := by
  induction n generalizing k s with
  | zero => exact .nil s
  | succ n ih =>
    have hin := Config.table_inside s.cfg
    exact .cons (.write _ _ s (by omega)) (h k (by omega)) (ih (k + 1) _ (by omega) h)

theorem stInit_chain (s : State) (h1 : K .read) (h2 : K (.write s.cfg.params.markerOff))
    (h3 : ∀ j, j < 26 → K (.write (s.cfg.params.calBase + j))) : Chain K s (stInit s) := by
  have hdef : stInit s = if s.storeByte s.cfg.params.markerOff = s.cfg.params.markerVal
      then (memRead s.cfg.params.markerOff s).2 else stReset (memRead s.cfg.params.markerOff s).2 := rfl
  by_cases hm : s.storeByte s.cfg.params.markerOff = s.cfg.params.markerVal
  · rw [hdef, if_pos hm]
    exact .one (.read _ s) h1
  · rw [hdef, if_neg hm]
    exact .cons (.read _ s) h1 (.cons (.write _ _ _ (Config.marker_inside s.cfg)) h2 (writeDefaults_chain _ _ _ (by decide) h3))

end

/-- The kinds of operation a command uses, in state `s`. -/
def kindsOf (i : Instr) (s : State) : Kind → Prop
  | .raw a => ∃ d, i = .wrreg a d
  | .bus => i = .rstbus
  | .set => (∃ a d, i = .set a d) ∨ (∃ a d, i = .setbits a d) ∨ (∃ a d, i = .clrbits a d) ∨ (∃ v, i = .calapply v) ∨
      ∃ d, i = .tune d
  | .settle => (∃ v, i = .calapply v) ∨ ∃ d, i = .tune d
  | .query => i = .haslock ∨ ∃ d, i = .tune d
  | .rsp => (∃ a, i = .get a) ∨ i = .haslock ∨ ∃ d, i = .calrd d
  | .read => (∃ d, i = .tune d) ∨ (∃ d, i = .calrd d) ∨ (∃ v d, i = .calwr v d) ∨ i = .stinit
  | .write off =>
      (∃ d c, i = .tune d ∧ chanOf d = some c ∧ off = calOff s.cfg.params c) ∨
      (∃ v d c, i = .calwr v d ∧ chanOf d = some c ∧ off = calOff s.cfg.params c) ∨
      (i = .stinit ∧ (off = s.cfg.params.markerOff ∨ ∃ j, j < 26 ∧ off = s.cfg.params.calBase + j))
  | .tstate => ∃ d, i = .tune d
  | .session => ∃ d, i = .tune d
  | .ready => ∃ f, i = .setrdy f

/-- A next state is the one answered. -/
theorem next_inj {s t : State} (h : (Host.Outcome.next s : Host.Outcome State Fault Refusal) = .next t) : s = t := by
  injection h

/-- What a command can do: a chain of operations of its kinds. -/
theorem exec_chain {i : Instr} {s t : State} (h : exec i s = .next t) : Chain (kindsOf i s) s t := by
  cases i with
  | wrreg a d => obtain rfl := next_inj (s := wireWrite a d s) h; exact .one (.raw a d s) ⟨d, rfl⟩
  | rstbus => obtain rfl := next_inj (s := pinWrites busReset s) h; exact .one (.bus s) rfl
  | set a d => obtain rfl := next_inj (s := setReg a d s) h; exact .one (.set a d s) (by simp [kindsOf])
  | get a =>
    simp only [exec, execGet] at h
    split at h
    · obtain rfl := next_inj h; exact .one (.rsp _ s) (by simp [kindsOf])
    · cases h
  | setbits a d =>
    simp only [exec, execSetbits] at h
    split at h
    · obtain rfl := next_inj h; exact .one (.set _ _ s) (by simp [kindsOf])
    · cases h
  | clrbits a d =>
    simp only [exec, execClrbits] at h
    split at h
    · obtain rfl := next_inj h; exact .one (.set _ _ s) (by simp [kindsOf])
    · cases h
  | haslock =>
    obtain rfl := next_inj (s := respond (boolByte (hasLock s).1) (hasLock s).2) h
    exact .cons (.query s) (by simp [kindsOf]) (.one (.rsp _ _) (by simp [kindsOf]))
  | tune d =>
    simp only [exec, execTune, tune] at h
    split at h
    · rename_i c hc
      split at h
      · obtain rfl := next_inj h
        exact tuneAccepted_chain c s (by simp [kindsOf]) (by simp [kindsOf]) (by simp [kindsOf]) (by simp [kindsOf])
          (by simp [kindsOf]) (Or.inl ⟨d, c, rfl, hc, rfl⟩) (by simp [kindsOf])
      · obtain rfl := next_inj h; exact .nil s
    · obtain rfl := next_inj h; exact .nil s
  | calapply v => obtain rfl := next_inj (s := applyCal v s) h; exact applyCal_chain v s (by simp [kindsOf]) (by simp [kindsOf])
  | calrd d =>
    simp only [exec, execCalrd] at h
    split at h
    · obtain rfl := next_inj h; exact (calRead_chain _ s (by simp [kindsOf])).trans (.one (.rsp _ _) (by simp [kindsOf]))
    · cases h
  | calwr v d =>
    simp only [exec, execCalwr] at h
    split at h
    · rename_i c hc
      obtain rfl := next_inj h
      exact calWrite_chain c v s (by simp [kindsOf]) (Or.inr (Or.inl ⟨v, d, c, rfl, hc, rfl⟩))
    · cases h
  | stinit =>
    obtain rfl := next_inj (s := stInit s) h
    exact stInit_chain s (by simp [kindsOf]) (Or.inr (Or.inr ⟨rfl, Or.inl rfl⟩))
      (fun j hj => Or.inr (Or.inr ⟨rfl, Or.inr ⟨j, hj, rfl⟩⟩))
  | setrdy f => obtain rfl := next_inj (s := s.putReady f) h; exact .one (.ready f s) ⟨f, rfl⟩

/-- What a step that answers a next state did: nothing, or one command between the rise and the fall of `BUSY`. -/
theorem step_cases {s t : State} (h : step s = .next t) :
    (s.commands = [] ∧ t = s) ∨
    ∃ w rest i u, s.commands = w :: rest ∧ s.busy = false ∧ decode w = .ok i ∧
      exec i ({ s with commands := rest }.putBusy true) = .next u ∧ t = u.putBusy false := by
  unfold step at h
  split at h
  · rename_i hc; exact .inl ⟨hc, (next_inj h).symm⟩
  · rename_i w rest hc
    split at h
    · cases h
    · rename_i hb
      split at h
      · rename_i i hd
        unfold serve at h
        split at h
        · rename_i u hu
          exact .inr ⟨w, rest, i, u, hc, by simpa using hb, hd, hu, (next_inj h).symm⟩
        · cases h
        · cases h
      · cases h

end Sys2Proof.Machine
end

