-- ==== Sys2Proof/Laws/Tuning.lean ====
section
/-! SUPPORT. What the steps of TUNE can do, said once (spec/43_tuning_engine.md R172, R173, R178), and what the search ends with
(spec/44_calibration.md R203, R205, R206). -/

namespace Sys2Proof.Machine

/-! ## Where the search ends -/

/-- No store cell is touched by a search that does not win, and its last trial value is active (R206). -/
theorem calSearch_no_winner {c : Chan} {s : State} (h : s.winner 0 = none) :
    calSearch c Config.sweep s = trial 0 (trial 1 (trial 2 (trial 3 s))) := by
  have h0 : s.vote 0 = false ∧ s.vote 1 = false ∧ s.vote 2 = false ∧ s.vote 3 = false := by
    unfold State.winner at h
    split_ifs at h
    simp_all
  simp [Config.sweep, calSearch, trial_session, trial_vote, h0]

/-- A search stops at its first success and commits that value (R203, R205): some trials that lost, then the one that won. -/
theorem calSearch_winner {c : Chan} {s : State} {v : Cal} (h : s.winner 0 = some v) :
    ∃ u, u.cfg = s.cfg ∧ u.store = s.store ∧ calSearch c Config.sweep s = commit c v (trial v u) := by
  unfold State.winner at h
  split_ifs at h with h0 h1 h2 h3 <;> obtain rfl := Option.some.inj h
  · exact ⟨s, rfl, rfl, by simp [Config.sweep, calSearch, trial_session, h0]⟩
  · exact ⟨trial 3 s, by simp, by simp, by simp_all [Config.sweep, calSearch, trial_session, trial_vote]⟩
  · exact ⟨trial 2 (trial 3 s), by simp, by simp, by simp_all [Config.sweep, calSearch, trial_session, trial_vote]⟩
  · exact ⟨trial 1 (trial 2 (trial 3 s)), by simp, by simp,
      by simp_all [Config.sweep, calSearch, trial_session, trial_vote]⟩

/-- The value active after a search: the winner, or 0 (R205, R206). -/
theorem calSearch_activeCal (c : Chan) (s : State) :
    (calSearch c Config.sweep s).activeCal = (s.winner 0).getD 0 := by
  rcases hw : s.winner 0 with _ | v
  · rw [calSearch_no_winner hw, trial_activeCal, Option.getD_none]
  · obtain ⟨u, -, -, hu⟩ := calSearch_winner (c := c) hw
    rw [hu, State.activeCal_congr (s := trial v u) (by simp [commit]) (by simp [commit]), trial_activeCal, Option.getD_some]

/-- The table after a search: the winner in its channel's field, else as it was (R205, R206). -/
theorem calSearch_storedCal (c : Chan) (s : State) (hw : s.store.Pairwise (fun x y => x.1 < y.1)) (c' : Chan) :
    (calSearch c Config.sweep s).storedCal c' = if c' = c then (s.winner 0).getD (s.storedCal c) else s.storedCal c' := by
  rcases hwin : s.winner 0 with _ | v
  · rw [calSearch_no_winner hwin, trial_storedCal, trial_storedCal, trial_storedCal, trial_storedCal]
    split_ifs with h
    · rw [h, Option.getD_none]
    · rfl
  · obtain ⟨u, hc, hs, hu⟩ := calSearch_winner (c := c) hwin
    rw [hu, commit, calWrite_storedCal _ _ _ (by simpa [hs] using hw), Option.getD_some]
    have : ∀ x : Session, ((trial v u).putSession x).storedCal c' = s.storedCal c' := fun x =>
      State.storedCal_congr (by simp [hc]) (by simp [hs]) c'
    rw [this]

/-! ## The steps of TUNE -/

/-- Steps 2 to 5 (R172): everything before the lock check. -/
def beforeCheck (c : Chan) (s : State) : State :=
  tuneApply (calRead c s).1 (tuneProgram c (tuneRaise (tuneLookUp c s)))

theorem tuneAccepted_eq (c : Chan) (s : State) :
    tuneAccepted c s = tuneDone (tuneLower (tuneCheck c (beforeCheck c s))) := rfl

/-- An accepted TUNE (R171). -/
theorem tune_accepted {d : Byte} {s : State} (h : d.toNat < 103) (hr : s.ready = true) :
    tune d s = tuneAccepted ⟨d.toNat, h⟩ s := by
  simp [tune, chanOf, h, hr]

section
variable (c : Chan) (s : State)
@[simp] theorem beforeCheck_cfg : (beforeCheck c s).cfg = s.cfg := by
  simp [beforeCheck, tuneApply, tuneProgram, tuneRaise, setChargePump, tuneLookUp, calRead]
@[simp] theorem beforeCheck_ready : (beforeCheck c s).ready = s.ready := by
  simp [beforeCheck, tuneApply, tuneProgram, tuneRaise, setChargePump, tuneLookUp, calRead]
@[simp] theorem beforeCheck_tstate : (beforeCheck c s).tstate = .calibrationApplied := by
  simp [beforeCheck, tuneApply]
@[simp] theorem beforeCheck_busy : (beforeCheck c s).busy = s.busy := by
  simp [beforeCheck, tuneApply, tuneProgram, tuneRaise, setChargePump, tuneLookUp, calRead]
@[simp] theorem beforeCheck_session : (beforeCheck c s).session = ⟨some c, some (s.storedCal c), some true, s.session.lock⟩ := by
  simp [beforeCheck, tuneApply, tuneProgram, tuneRaise, setChargePump, tuneLookUp, calRead]
  rfl
@[simp] theorem beforeCheck_store : (beforeCheck c s).store = s.store := by
  simp [beforeCheck, tuneApply, tuneProgram, tuneRaise, setChargePump, tuneLookUp, calRead]
@[simp] theorem beforeCheck_curChan : (beforeCheck c s).curChan = s.curChan := by
  simp [beforeCheck, tuneApply, tuneProgram, tuneRaise, setChargePump, tuneLookUp, calRead]
@[simp] theorem beforeCheck_commands : (beforeCheck c s).commands = s.commands := by
  simp [beforeCheck, tuneApply, tuneProgram, tuneRaise, setChargePump, tuneLookUp, calRead]
@[simp] theorem beforeCheck_lockLine : (beforeCheck c s).lockLine = s.lockLine := by
  simp [beforeCheck, tuneApply, tuneProgram, tuneRaise, setChargePump, tuneLookUp, calRead]
@[simp] theorem beforeCheck_drawn : (beforeCheck c s).drawn = s.drawn := by
  simp [beforeCheck, tuneApply, tuneProgram, tuneRaise, setChargePump, tuneLookUp, calRead]
@[simp] theorem tuneLower_session : (tuneLower s).session = { s.session with cp := some false } := by
  simp [tuneLower, setChargePump]
@[simp] theorem tuneLower_tstate : (tuneLower s).tstate = .chargePumpLow := rfl
@[simp] theorem tuneLower_cfg : (tuneLower s).cfg = s.cfg := by simp [tuneLower, setChargePump]
@[simp] theorem tuneLower_ready : (tuneLower s).ready = s.ready := by simp [tuneLower, setChargePump]
@[simp] theorem tuneLower_store : (tuneLower s).store = s.store := by simp [tuneLower, setChargePump]
@[simp] theorem tuneLower_lockLine : (tuneLower s).lockLine = s.lockLine := by simp [tuneLower, setChargePump]
@[simp] theorem tuneLower_drawn : (tuneLower s).drawn = s.drawn := by simp [tuneLower, setChargePump]
end

/-- The end of a TUNE adds the charge-pump frame (R172 step 7). -/
theorem tuneFinish_trace (s : State) :
    (tuneDone (tuneLower s)).trace = s.trace ++
      frame (addrOf s.cfg.params.regCp) (withChargePump s.cfg.params s.cfg.params.cpIdle (s.reg s.cfg.params.regCp)) := by
  simp [tuneDone, tuneLower, setChargePump]

/-- One mirror element after `Set` at the address of a mirrored register. -/
theorem setReg_reg (r : RegIdx) (v : Byte) (s : State) (i : RegIdx) :
    (setReg (addrOf r) v s).reg i = if i = r then v else s.reg i := by
  simp only [State.reg, setReg_regs, regsAfter_addrOf, Vector.getElem_set]
  split_ifs with h1 h2 h2
  · rfl
  · exact absurd (Fin.ext h1).symm h2
  · exact absurd (congrArg Fin.val h2).symm h1
  · rfl

/-- One mirror element after step 7 (R172). -/
theorem tuneLower_reg (s : State) (i : RegIdx) :
    (tuneLower s).reg i =
      if i = s.cfg.params.regCp then withChargePump s.cfg.params s.cfg.params.cpIdle (s.reg i) else s.reg i := by
  have : (tuneLower s).reg i = (setChargePump s.cfg.params.cpIdle s).reg i := State.reg_congr (by simp [tuneLower]) i
  rw [this, setChargePump, setReg_reg]
  split_ifs with h
  · rw [h]
  · rfl

/-- The mirror before the lock check (R172 steps 3 to 5): charge pump fast, the divider, the calibration field. -/
theorem beforeCheck_reg (c : Chan) (s : State) (i : RegIdx) :
    (beforeCheck c s).reg i =
      if i = s.cfg.params.regCal then withCalField (s.storedCal c) (s.reg i)
      else if i = s.cfg.params.regFhi then divHigh s.cfg.params.chanDiv[c.val]
      else if i = s.cfg.params.regFlo then divLow s.cfg.params.chanDiv[c.val]
      else if i = s.cfg.params.regCp then withChargePump s.cfg.params s.cfg.params.cpFast (s.reg i)
      else s.reg i := by
  have hn := Config.roles_nodup s.cfg
  simp only [List.nodup_cons, List.mem_cons, List.not_mem_nil, or_false, not_or] at hn
  have hlook : ∀ j, (tuneLookUp c s).reg j = s.reg j := fun j => State.reg_congr (by simp [tuneLookUp, calRead]) j
  have hraise : ∀ j, (tuneRaise (tuneLookUp c s)).reg j =
      if j = s.cfg.params.regCp then withChargePump s.cfg.params s.cfg.params.cpFast (s.reg j) else s.reg j := fun j => by
    have : (tuneRaise (tuneLookUp c s)).reg j = (setChargePump s.cfg.params.cpFast (tuneLookUp c s)).reg j :=
      State.reg_congr (by simp [tuneRaise, tuneLookUp, calRead]) j
    rw [this, setChargePump, setReg_reg, hlook, hlook]
    simp only [show (tuneLookUp c s).cfg = s.cfg by simp [tuneLookUp, calRead]]
    split_ifs with h
    · rw [h]
    · rfl
  have hprog : ∀ j, (tuneProgram c (tuneRaise (tuneLookUp c s))).reg j =
      if j = s.cfg.params.regFhi then divHigh s.cfg.params.chanDiv[c.val]
      else if j = s.cfg.params.regFlo then divLow s.cfg.params.chanDiv[c.val]
      else (tuneRaise (tuneLookUp c s)).reg j := fun j => by
    have hcfg : (tuneRaise (tuneLookUp c s)).cfg = s.cfg := by simp [tuneRaise, setChargePump, tuneLookUp, calRead]
    have : (tuneProgram c (tuneRaise (tuneLookUp c s))).reg j =
        (setReg (addrOf s.cfg.params.regFhi) (divHigh s.cfg.params.chanDiv[c.val])
          (setReg (addrOf s.cfg.params.regFlo) (divLow s.cfg.params.chanDiv[c.val]) (tuneRaise (tuneLookUp c s)))).reg j :=
      State.reg_congr (by simp [tuneProgram, hcfg]) j
    rw [this, setReg_reg, setReg_reg]
  have happ : (beforeCheck c s).reg i = (applyCal (s.storedCal c) (tuneProgram c (tuneRaise (tuneLookUp c s)))).reg i :=
    State.reg_congr (by simp [beforeCheck, tuneApply, calRead_eq]) i
  have hcfg : (tuneProgram c (tuneRaise (tuneLookUp c s))).cfg = s.cfg := by
    simp [tuneProgram, tuneRaise, setChargePump, tuneLookUp, calRead]
  rw [happ, applyCal_reg, hcfg, hprog, hraise]
  by_cases h : i = s.cfg.params.regCal
  · subst h
    rw [if_pos rfl, if_pos rfl, if_neg (Ne.symm hn.2.2.1.1), if_neg (Ne.symm hn.2.1.2.1), if_neg (Ne.symm hn.1.2.2.1)]
  · rw [if_neg h, if_neg h]

/-- The powered-on predicate is the one of the start (R174: nothing in steps 3 to 5 changes it). -/
theorem beforeCheck_poweredOn (c : Chan) (s : State) : (beforeCheck c s).poweredOn = s.poweredOn := by
  have hn := Config.roles_nodup s.cfg
  simp only [List.nodup_cons, List.mem_cons, List.not_mem_nil, or_false, not_or] at hn
  rw [State.poweredOn, State.poweredOn, beforeCheck_cfg, beforeCheck_reg, if_neg (Ne.symm hn.2.2.2.1),
    if_neg (Ne.symm hn.2.2.1.2), if_neg (Ne.symm hn.2.1.2.2), if_neg (Ne.symm hn.1.2.2.2)]

/-- The events before the lock check (R173). -/
theorem beforeCheck_trace (c : Chan) (s : State) :
    (beforeCheck c s).trace = s.trace ++ [.strd (calOff s.cfg.params c) (s.storeByte (calOff s.cfg.params c))] ++
      frame (addrOf s.cfg.params.regCp) (withChargePump s.cfg.params s.cfg.params.cpFast (s.reg s.cfg.params.regCp)) ++
      frame (addrOf s.cfg.params.regFlo) (divLow s.cfg.params.chanDiv[c.val]) ++
      frame (addrOf s.cfg.params.regFhi) (divHigh s.cfg.params.chanDiv[c.val]) ++ applyEvents (s.storedCal c) s := by
  have hn := Config.roles_nodup s.cfg
  simp only [List.nodup_cons, List.mem_cons, List.not_mem_nil, or_false, not_or] at hn
  have hcal : (tuneProgram c (tuneRaise (tuneLookUp c s))).reg s.cfg.params.regCal = s.reg s.cfg.params.regCal := by
    have hne1 := Ne.symm hn.2.2.1.1
    have hne2 := Ne.symm hn.2.1.2.1
    have hne3 := Ne.symm hn.1.2.2.1
    simp [State.reg, tuneProgram, tuneRaise, setChargePump, tuneLookUp, calRead, regsAfter_addrOf,
      Fin.val_inj, Ne.symm hne1, Ne.symm hne2, Ne.symm hne3]
  have hcfg : (tuneProgram c (tuneRaise (tuneLookUp c s))).cfg = s.cfg := by
    simp [tuneProgram, tuneRaise, setChargePump, tuneLookUp, calRead]
  have hev : applyEvents (s.storedCal c) (tuneProgram c (tuneRaise (tuneLookUp c s))) = applyEvents (s.storedCal c) s := by
    unfold applyEvents State.activeCal
    rw [hcfg, hcal]
  have hcp : (tuneLookUp c s).reg s.cfg.params.regCp = s.reg s.cfg.params.regCp :=
    State.reg_congr (by simp [tuneLookUp, calRead]) _
  have hlook : (tuneLookUp c s).trace =
      s.trace ++ [.strd (calOff s.cfg.params c) (s.storeByte (calOff s.cfg.params c))] := by
    simp [tuneLookUp, calRead]
    rfl
  have hlcfg : (tuneLookUp c s).cfg = s.cfg := by simp [tuneLookUp, calRead]
  have h1 : (tuneProgram c (tuneRaise (tuneLookUp c s))).trace =
      s.trace ++ [.strd (calOff s.cfg.params c) (s.storeByte (calOff s.cfg.params c))] ++
      frame (addrOf s.cfg.params.regCp) (withChargePump s.cfg.params s.cfg.params.cpFast (s.reg s.cfg.params.regCp)) ++
      frame (addrOf s.cfg.params.regFlo) (divLow s.cfg.params.chanDiv[c.val]) ++
      frame (addrOf s.cfg.params.regFhi) (divHigh s.cfg.params.chanDiv[c.val]) := by
    simp [tuneProgram, tuneRaise, setChargePump, hlcfg, hlook, hcp]
  simp only [beforeCheck, tuneApply, State.putTState_trace, applyCal_trace, calRead_eq, hev, h1]

/-- Step 6 in its three cases (R172 to R176). -/
theorem tuneCheck_off {c : Chan} {s : State} (h : s.poweredOn = false) : tuneCheck c s = s := by
  simp [tuneCheck, h]

theorem tuneCheck_good {c : Chan} {s : State} (h : s.poweredOn = true) (hv : s.vote 0 = true) :
    tuneCheck c s = (lockQuery (s.putTState .lockCheck)).putTState .lockGood := by
  have h50 : (s.putTState .lockCheck).samples 50 = s.samples 50 := State.samples_congr (by simp) (by simp) 50
  rw [State.vote_zero] at hv
  simp [tuneCheck, h, tuneSearch, tuneVote, h50, hv]

theorem tuneCheck_bad {c : Chan} {s : State} (h : s.poweredOn = true) (hv : s.vote 0 = false) :
    tuneCheck c s =
      calSearch c Config.sweep ((lockQuery (s.putTState .lockCheck)).putTState .calibrationSearch) := by
  have h50 : (s.putTState .lockCheck).samples 50 = s.samples 50 := State.samples_congr (by simp) (by simp) 50
  rw [State.vote_zero] at hv
  simp [tuneCheck, h, tuneSearch, tuneVote, h50, hv]

/-! ## The transitions of R173 -/

section
variable {c : Chan} {v : Cal} {s : State} (hc : s.session.chan = some c) (hv : s.session.cal = some v)
include hc hv

theorem tuneAdvance_chargePumpHigh (h : s.tstate = .chargePumpHigh) : tuneAdvance s = tuneProgram c s := by
  simp [tuneAdvance, hc, hv, h]

theorem tuneAdvance_frequencyProgrammed (h : s.tstate = .frequencyProgrammed) : tuneAdvance s = tuneApply v s := by
  simp [tuneAdvance, hc, hv, h]

theorem tuneAdvance_calibrationApplied (h : s.tstate = .calibrationApplied) :
    tuneAdvance s = if s.poweredOn then s.putTState .lockCheck else tuneLower s := by
  simp [tuneAdvance, hc, hv, h]

theorem tuneAdvance_lockCheck (h : s.tstate = .lockCheck) : tuneAdvance s = tuneVote s := by
  simp [tuneAdvance, hc, hv, h]

theorem tuneAdvance_lockGood (h : s.tstate = .lockGood) : tuneAdvance s = tuneLower s := by
  simp [tuneAdvance, hc, hv, h]

theorem tuneAdvance_calibrationSearch (h : s.tstate = .calibrationSearch) :
    tuneAdvance s = tuneLower (calSearch c Config.sweep s) := by
  simp [tuneAdvance, hc, hv, h]

theorem tuneAdvance_chargePumpLow (h : s.tstate = .chargePumpLow) : tuneAdvance s = tuneDone s := by
  simp [tuneAdvance, hc, hv, h]

end

/-- `Idle` waits for a command. -/
theorem tuneAdvance_done (s : State) : tuneAdvance (tuneDone s) = tuneDone s := by
  simp [tuneAdvance, tuneDone, Session.empty]

end Sys2Proof.Machine
end

