-- ==== Sys2Proof/Laws/Trace.lean ====
section
/-! SUPPORT. What a command adds to the trace, said once: events of the kinds its operations emit (spec/00_scope.md R15), and how
replays and counts read a list of events. -/

namespace Sys2Proof.Machine

theorem State.since_append {t s : State} {l : List Event} (h : t.trace = s.trace ++ l) : t.since s = l := by
  simp [State.since, h]

/-- The events an operation of a kind can emit. -/
def Kind.emits : Kind → Event → Prop
  | .raw _, e | .set, e | .bus, e => ∃ line level, e = .pin line level
  | .read, e => ∃ off b, e = .strd off b
  | .write off, e => ∃ b, e = .stwr off b
  | .settle, e => ∃ d, e = .delay d
  | .query, e => (∃ b, e = .sample b) ∨ e = .delay .tSample
  | .rsp, e => ∃ b, e = .rsp b
  | .tstate, _ | .session, _ | .ready, _ => False

theorem frame_pins (a : Addr) (v : Byte) : ∀ e ∈ frame a v, ∃ line level, e = .pin line level := by
  intro e he
  simp only [frame, List.mem_append, List.mem_flatMap, List.mem_cons, List.not_mem_nil, or_false] at he
  rcases he with ⟨b, -, rfl | rfl | rfl⟩ | rfl | rfl <;> exact ⟨_, _, rfl⟩

theorem voteEvents_kinds (bits : List Bool) : ∀ e ∈ voteEvents bits, (∃ b, e = .sample b) ∨ e = .delay .tSample := by
  intro e he
  simp only [voteEvents, List.mem_flatMap, List.mem_cons, List.not_mem_nil, or_false] at he
  rcases he with ⟨b, -, rfl | rfl⟩
  · exact .inl ⟨b, rfl⟩
  · exact .inr rfl

theorem Micro.events {k : Kind} {s t : State} (h : Micro k s t) : ∃ l, t.trace = s.trace ++ l ∧ ∀ e ∈ l, k.emits e := by
  cases h with
  | raw a v => exact ⟨_, by rw [wireWrite_trace], frame_pins a v⟩
  | set a v => exact ⟨_, by rw [setReg_trace], frame_pins a v⟩
  | bus =>
    refine ⟨_, by rw [pinWrites_eq], fun e he => ?_⟩
    obtain ⟨w, -, rfl⟩ := List.mem_map.mp he
    exact ⟨_, _, rfl⟩
  | read off => exact ⟨[.strd off (s.storeByte off)], rfl, by simp [Kind.emits]⟩
  | write off b => exact ⟨[.stwr off b], rfl, by simp [Kind.emits]⟩
  | settle d => exact ⟨[.delay d], rfl, by simp [Kind.emits]⟩
  | query => exact ⟨_, by rw [hasLock_trace], voteEvents_kinds _⟩
  | rsp b => exact ⟨[.rsp b], rfl, by simp [Kind.emits]⟩
  | tstate => exact ⟨[], by simp, by simp⟩
  | session => exact ⟨[], by simp, by simp⟩
  | ready => exact ⟨[], by simp, by simp⟩

theorem Chain.events {K : Kind → Prop} {s t : State} (h : Chain K s t) :
    ∃ l, t.trace = s.trace ++ l ∧ ∀ e ∈ l, ∃ k, K k ∧ k.emits e := by
  refine Chain.relates (R := fun s t => ∃ l, t.trace = s.trace ++ l ∧ ∀ e ∈ l, ∃ k, K k ∧ k.emits e)
    (fun s => ⟨[], by simp, by simp⟩) ?_ h
  rintro k s t u hk ⟨l, hl, he⟩ hm
  obtain ⟨m, hm, hme⟩ := hm.events
  refine ⟨l ++ m, by rw [hm, hl, List.append_assoc], fun e h => ?_⟩
  rcases List.mem_append.mp h with h | h
  · exact he e h
  · exact ⟨k, hk, hme e h⟩

/-- What a command adds to the trace: events its operations emit. -/
theorem exec_events {i : Instr} {s t : State} (h : exec i s = .next t) :
    t.trace = s.trace ++ t.since s ∧ ∀ e ∈ t.since s, ∃ k, kindsOf i s k ∧ k.emits e := by
  obtain ⟨l, hl, he⟩ := (exec_chain h).events
  rw [State.since_append hl]
  exact ⟨hl, he⟩

/-! ## Reading a list of events -/

theorem replayStore_append (dflt : Nat → Byte) (xs ys : List Event) (m : Memory) :
    replayStore dflt (xs ++ ys) m = replayStore dflt ys (replayStore dflt xs m) := by
  induction xs generalizing m with
  | nil => rfl
  | cons e xs ih => cases e <;> simp [replayStore, ih]

theorem replayStore_none (dflt : Nat → Byte) (xs : List Event) (m : Memory) (h : ∀ off b, Event.stwr off b ∉ xs) :
    replayStore dflt xs m = m := by
  induction xs generalizing m with
  | nil => rfl
  | cons e xs ih =>
    have hx := ih m fun off b hm => h off b (List.mem_cons_of_mem _ hm)
    cases e with
    | stwr off b => exact absurd List.mem_cons_self (h off b)
    | _ => exact hx

theorem Receiver.events_none (xs : List Event) (r : Receiver) (h : ∀ line level, Event.pin line level ∉ xs) :
    Receiver.events xs r = r := by
  induction xs generalizing r with
  | nil => rfl
  | cons e xs ih =>
    have hx := ih r fun line level hm => h line level (List.mem_cons_of_mem _ hm)
    cases e with
    | pin line level => exact absurd List.mem_cons_self (h line level)
    | _ => exact hx

theorem storeWrites_append (xs ys : List Event) : storeWrites (xs ++ ys) = storeWrites xs + storeWrites ys := by
  induction xs with
  | nil => simp [storeWrites]
  | cons e xs ih =>
    cases e with
    | stwr => simp [storeWrites, ih, Nat.add_right_comm]
    | _ => simpa [storeWrites] using ih

theorem storeWrites_none (xs : List Event) (h : ∀ off b, Event.stwr off b ∉ xs) : storeWrites xs = 0 := by
  induction xs with
  | nil => rfl
  | cons e xs ih =>
    have hx := ih fun off b hm => h off b (List.mem_cons_of_mem _ hm)
    cases e with
    | stwr off b => exact absurd List.mem_cons_self (h off b)
    | _ => exact hx

theorem responses_append (xs ys : List Event) : responses (xs ++ ys) = responses xs ++ responses ys := by
  induction xs with
  | nil => rfl
  | cons e xs ih => cases e <;> simp [responses, ih]

theorem responses_none (xs : List Event) (h : ∀ b, Event.rsp b ∉ xs) : responses xs = [] := by
  induction xs with
  | nil => rfl
  | cons e xs ih =>
    have hx := ih fun b hm => h b (List.mem_cons_of_mem _ hm)
    cases e with
    | rsp b => exact absurd List.mem_cons_self (h b)
    | _ => exact hx

theorem sampled_append (xs ys : List Event) : sampled (xs ++ ys) = sampled xs ++ sampled ys := by
  induction xs with
  | nil => rfl
  | cons e xs ih => cases e <;> simp [sampled, ih]

/-- The bits a query records are the samples it took (R162). -/
theorem sampled_voteEvents (bits : List Bool) : sampled (voteEvents bits) = bits := by
  induction bits with
  | nil => rfl
  | cons b bits ih =>
    rw [voteEvents, List.flatMap_cons, sampled_append, ← voteEvents, ih]
    rfl

theorem delayTotal_append (xs ys : List Event) : delayTotal (xs ++ ys) = delayTotal xs + delayTotal ys := by
  induction xs with
  | nil => simp [delayTotal]
  | cons e xs ih => cases e <;> simp [delayTotal, ih, Nat.add_assoc]

theorem delayTotal_none (xs : List Event) (h : ∀ d, Event.delay d ∉ xs) : delayTotal xs = 0 := by
  induction xs with
  | nil => rfl
  | cons e xs ih =>
    have hx := ih fun d hm => h d (List.mem_cons_of_mem _ hm)
    cases e with
    | delay d => exact absurd List.mem_cons_self (h d)
    | _ => exact hx

/-- A query waits `n` sample intervals (R162). -/
theorem delayTotal_voteEvents (bits : List Bool) : delayTotal (voteEvents bits) = 2500 * bits.length := by
  induction bits with
  | nil => rfl
  | cons b bits ih =>
    rw [voteEvents, List.flatMap_cons, delayTotal_append, ← voteEvents, ih]
    simp [delayTotal, Delay.nominal]
    omega

theorem applyEvents_kinds (v : Cal) (s : State) :
    ∀ e ∈ applyEvents v s, (∃ line level, e = .pin line level) ∨ e = .delay .tApply := by
  intro e he
  unfold applyEvents at he
  split at he
  · cases he
  · rcases List.mem_append.mp he with h | h
    · exact .inl (frame_pins _ _ _ h)
    · exact .inr (List.mem_singleton.mp h)

theorem delayTotal_frame (a : Addr) (v : Byte) : delayTotal (frame a v) = 0 :=
  delayTotal_none _ fun d h => by obtain ⟨line, level, he⟩ := frame_pins a v _ h; cases he

/-- The bus reset drives the pins to `DATA = 1`, `CLK = 0` and latches nothing at the receiver (R125). -/
theorem Receiver.events_busReset (d : Bool) (shift : List Bool) (dev : Vector (Option Byte) 16) :
    ∃ shift', Receiver.events (busReset.map fun w => .pin w.1 w.2) ⟨⟨d, false, false⟩, shift, dev⟩ =
      ⟨⟨true, false, false⟩, shift', dev⟩ := by
  have hones : ((List.replicate Config.rstOnes oneBit).flatten.map fun w => Event.pin w.1 w.2) =
      (List.replicate 26 true).flatMap fun b => [.pin .data b, .pin .clk true, .pin .clk false] := by decide
  simp only [busReset, List.map_append, Receiver.events_append, hones]
  rw [Receiver.events_slots _ _ rfl]
  exact ⟨_, rfl⟩

/-- One mirror element after `Set` of any address (R141). -/
theorem setReg_reg_any (a : Addr) (v : Byte) (s : State) (r : RegIdx) :
    (setReg a v s).reg r = if a.toNat = r.val then v else s.reg r := by
  split_ifs with h
  · obtain rfl : a = addrOf r := BitVec.eq_of_toNat_eq (by rw [addrOf_toNat]; exact h)
    rw [setReg_reg, if_pos rfl]
  · rcases hi : mirrorIdx a with _ | i
    · simp [State.reg, regsAfter, hi]
    · have hv : i.val = a.toNat := by
        unfold mirrorIdx at hi
        split at hi
        · rw [← Option.some.inj hi]
        · cases hi
      simp [State.reg, regsAfter, hi, hv, h]

/-- An apply waits at most once (R201). -/
theorem delayTotal_applyEvents (v : Cal) (s : State) : delayTotal (applyEvents v s) ≤ 175000 := by
  unfold applyEvents
  split
  · simp [delayTotal]
  · simp [delayTotal_append, delayTotal_frame, delayTotal, Delay.nominal]

/-- The trace of a trial, and that it stores nothing (R203, R204). -/
theorem trial_events (v : Cal) (s : State) :
    ∃ l, (trial v s).trace = s.trace ++ l ∧ delayTotal l ≤ 800000 ∧ storeWrites l = 0 := by
  refine ⟨applyEvents v s ++ [.delay .tSearch] ++ voteEvents (s.samples 50), by rw [trial_trace]; simp, ?_, ?_⟩
  · simp only [delayTotal_append, delayTotal_voteEvents, State.samples_length, delayTotal, Delay.nominal]
    have := delayTotal_applyEvents v s
    omega
  · refine storeWrites_none _ fun off b hx => ?_
    simp only [List.mem_append, List.mem_singleton] at hx
    rcases hx with (h | h) | h
    · simpa using applyEvents_kinds v s _ h
    · cases h
    · simpa using voteEvents_kinds _ _ h

/-- A search waits at most 800 ms a trial value (R208). -/
theorem calSearch_events (c : Chan) (vs : List Cal) (s : State) :
    ∃ l, (calSearch c vs s).trace = s.trace ++ l ∧ delayTotal l ≤ 800000 * vs.length := by
  induction vs generalizing s with
  | nil => exact ⟨[], by simp [calSearch], by simp [delayTotal]⟩
  | cons v vs ih =>
    obtain ⟨l, hl, hd, -⟩ := trial_events v s
    unfold calSearch
    split
    · let u := (trial v s).putSession { (trial v s).session with cal := some v }
      refine ⟨l ++ [.strd (calOff u.cfg.params c) (u.storeByte (calOff u.cfg.params c)),
        .stwr (calOff u.cfg.params c) (packed u c v)], ?_, ?_⟩
      · rw [commit, calWrite_eq]
        simp only [State.putSession_trace, hl, List.append_assoc, u]
      · simp only [delayTotal_append, delayTotal, List.length_cons]
        omega
    · obtain ⟨m, hm, hmd⟩ := ih (trial v s)
      refine ⟨l ++ m, by rw [hm, hl, List.append_assoc], ?_⟩
      simp only [delayTotal_append, List.length_cons]
      omega

/-! ## Operand forms in the words of the spec -/

theorem divLow_eq (div : BitVec 16) : divLow div = div.setWidth 8 := by ext j hj; simp [divLow]

theorem divHigh_eq (div : BitVec 16) : divHigh div = (div >>> 8).setWidth 8 := by ext j hj; simp [divHigh]

theorem calOff_eq (p : Params) (c : Chan) : calOff p c = p.calBase + c.val / 4 := by simp [calOff, Nat.shiftRight_eq_div_pow]

theorem calShift_eq (c : Chan) : calShift c = 2 * (c.val % 4) := by
  rw [calShift, Nat.and_two_pow_sub_one_eq_mod _ 2, Nat.shiftLeft_eq]; omega

theorem State.activeCal_eq (s : State) : (s.reg s.cfg.params.regCal).setWidth 2 = s.activeCal := by
  ext j hj; simp [State.activeCal]

theorem withChargePump_outside (p : Params) (x r : Byte) (hx : x &&& ~~~p.cpMask = 0) :
    withChargePump p x r &&& ~~~p.cpMask = r &&& ~~~p.cpMask := by
  ext j hj
  have := congrArg (fun b : Byte => b[j]) hx
  simp [withChargePump] at this ⊢
  cases hm : p.cpMask[j] <;> simp_all

theorem withChargePump_inside (p : Params) (x r : Byte) (hx : x &&& ~~~p.cpMask = 0) :
    withChargePump p x r &&& p.cpMask = x := by
  ext j hj
  have := congrArg (fun b : Byte => b[j]) hx
  simp [withChargePump] at this ⊢
  cases hm : p.cpMask[j] <;> simp_all

/-- Setting the charge pump twice is setting it once. -/
theorem withChargePump_twice (p : Params) (x y r : Byte) (hx : x &&& ~~~p.cpMask = 0) :
    withChargePump p y (withChargePump p x r) = withChargePump p y r := by
  rw [withChargePump, withChargePump_outside _ _ _ hx, ← withChargePump]

end Sys2Proof.Machine
end

