-- ==== Sys2Proof/Laws/Search.lean ====
section
/-! SUPPORT. A whole search as its trials and its commit (spec/44_calibration.md R203 to R206): `calSearch_sweep` says which trials
run, `sweptTo_*` what they leave. -/

namespace Sys2Proof.Machine

/-- The state after the first `n` trials of the sweep 3, 2, 1, 0 (R203). -/
def sweptTo : Nat → State → State
  | 0, s => s
  | n + 1, s => trial (BitVec.ofNat 2 (3 - n)) (sweptTo n s)

/-- A search is its trials up to the first success, then its commit, or all four (R205, R206). -/
theorem calSearch_sweep (c : Chan) (s : State) :
    calSearch c Config.sweep s =
      match s.winner 0 with
      | some v => commit c v (sweptTo (trialsOf (some v)) s)
      | none => sweptTo 4 s := by
  rcases h0 : s.vote 0 <;> rcases h1 : s.vote 1 <;> rcases h2 : s.vote 2 <;> rcases h3 : s.vote 3 <;>
    simp [State.winner, Config.sweep, calSearch, trial_session, trial_vote, h0, h1, h2, h3, trialsOf, sweptTo]

section
variable (n : Nat) (s : State)
@[simp] theorem sweptTo_cfg : (sweptTo n s).cfg = s.cfg := by induction n <;> simp_all [sweptTo]
@[simp] theorem sweptTo_ready : (sweptTo n s).ready = s.ready := by induction n <;> simp_all [sweptTo]
@[simp] theorem sweptTo_tstate : (sweptTo n s).tstate = s.tstate := by induction n <;> simp_all [sweptTo]
@[simp] theorem sweptTo_busy : (sweptTo n s).busy = s.busy := by induction n <;> simp_all [sweptTo]
@[simp] theorem sweptTo_store : (sweptTo n s).store = s.store := by induction n <;> simp_all [sweptTo]
@[simp] theorem sweptTo_curChan : (sweptTo n s).curChan = s.curChan := by induction n <;> simp_all [sweptTo]
@[simp] theorem sweptTo_commands : (sweptTo n s).commands = s.commands := by induction n <;> simp_all [sweptTo]
@[simp] theorem sweptTo_lockLine : (sweptTo n s).lockLine = s.lockLine.drop (50 * n) := by
  induction n with
  | zero => simp [sweptTo]
  | succ n ih => simp [sweptTo, ih, Nat.mul_succ]
@[simp] theorem sweptTo_drawn : (sweptTo n s).drawn = s.drawn + 50 * n := by
  induction n with
  | zero => simp [sweptTo]
  | succ n ih => simp [sweptTo, ih, Nat.mul_succ, Nat.add_assoc]
end

/-- The trials use no counter and no timer after themselves (R32, R297). -/
theorem sweptTo_idle (n : Nat) (s : State) (hc : s.cnt = none) (ht : s.timer = none) :
    (sweptTo n s).cnt = none ∧ (sweptTo n s).timer = none := by
  cases n with
  | zero => exact ⟨hc, ht⟩
  | succ n => exact ⟨trial_cnt _ _, trial_timer _ _⟩

/-- The samples the queries after `n` trials see are the next ones (R162). -/
theorem sweptTo_querySamples (n : Nat) (s : State) (k : Nat) : (sweptTo n s).querySamples k = s.querySamples (n + k) := by
  induction n generalizing k with
  | zero => simp [sweptTo]
  | succ n ih =>
    rw [sweptTo, State.querySamples_shift (s := sweptTo n s) (trial_lockLine _ _) (trial_drawn _ _), ih]
    congr 1
    omega

/-- The mirror after `n` trials: the last value tried in the calibration field (R203). -/
theorem sweptTo_reg (n : Nat) (s : State) (i : RegIdx) :
    (sweptTo n s).reg i =
      if i = s.cfg.params.regCal ∧ n ≠ 0 then withCalField (BitVec.ofNat 2 (4 - n)) (s.reg i) else s.reg i := by
  induction n with
  | zero => simp [sweptTo]
  | succ n ih =>
    rw [sweptTo, trial_reg, sweptTo_cfg, ih]
    by_cases hi : i = s.cfg.params.regCal
    · by_cases hn : n = 0 <;> simp [hi, hn, withCalField_twice]
    · simp [hi]

/-- The events of one trial in the form the statements use (R203, R204). -/
theorem trial_trialEvents (v : Cal) (s : State) :
    (trial v s).trace = s.trace ++ trialEvents s.cfg.params.regCal (s.reg s.cfg.params.regCal) v (s.querySamples 0) := by
  rw [trial_trace, trialEvents, State.activeCal_eq, State.querySamples_zero]
  simp [applyEvents, withCalField]

/-- The events of the first `n` trials (R203). -/
theorem sweptTo_trace (n : Nat) (s : State) :
    (sweptTo n s).trace = s.trace ++ (List.range n).flatMap fun j =>
      trialEvents s.cfg.params.regCal
        (if j = 0 then s.reg s.cfg.params.regCal else withCalField (BitVec.ofNat 2 (4 - j)) (s.reg s.cfg.params.regCal))
        (BitVec.ofNat 2 (3 - j)) (s.querySamples j) := by
  induction n with
  | zero => simp [sweptTo]
  | succ n ih =>
    rw [sweptTo, trial_trialEvents, ih, List.range_succ, List.flatMap_append, sweptTo_cfg, sweptTo_reg,
      sweptTo_querySamples]
    by_cases hn : n = 0 <;> simp [hn]

/-- A frame or nothing: what the device holds for the calibration register after `n` trials, where it held what the mirror did not
need to know (R201). -/
theorem applyCal_dev_cal (v : Cal) (s : State) :
    (applyCal v s).dev[s.cfg.params.regCal.val]'(by omega) =
      if s.activeCal = v then s.dev[s.cfg.params.regCal.val]'(by omega)
      else some ((applyCal v s).reg s.cfg.params.regCal) := by
  split_ifs with h
  · rw [applyCal_active h]
  · rw [applyCal_reg, if_pos rfl, applyCal_inactive h]
    simp [addrOf_toNat]

theorem trial_dev_cal (v : Cal) (s : State) :
    (trial v s).dev[s.cfg.params.regCal.val]'(by omega) =
      if s.activeCal = v then s.dev[s.cfg.params.regCal.val]'(by omega)
      else some ((trial v s).reg s.cfg.params.regCal) := by
  have hr : (trial v s).reg s.cfg.params.regCal = (applyCal v s).reg s.cfg.params.regCal :=
    State.reg_congr (by simp [trial]) _
  rw [hr, ← applyCal_dev_cal]
  simp [trial]

/-- After `n` trials the device holds the calibration register as the mirror does, unless none of them sent a frame: only the first
can find its value active (R208). -/
theorem sweptTo_dev_cal (n : Nat) (s : State) :
    (sweptTo n s).dev[s.cfg.params.regCal.val]'(by omega) =
      if n = 0 ∨ (n = 1 ∧ s.activeCal = 3) then s.dev[s.cfg.params.regCal.val]'(by omega)
      else if 4 < n then (sweptTo n s).dev[s.cfg.params.regCal.val]'(by omega)
      else some ((sweptTo n s).reg s.cfg.params.regCal) := by
  match n with
  | 0 => simp [sweptTo]
  | 1 => simpa [sweptTo] using trial_dev_cal 3 s
  | 2 => simpa [sweptTo, trial_activeCal] using trial_dev_cal 2 (sweptTo 1 s)
  | 3 => simpa [sweptTo, trial_activeCal] using trial_dev_cal 1 (sweptTo 2 s)
  | 4 => simpa [sweptTo, trial_activeCal] using trial_dev_cal 0 (sweptTo 3 s)
  | n + 5 => simp

end Sys2Proof.Machine
end

