-- ==== Sys2Proof/Laws/Outcome.lean ====
section
/-! SUPPORT. What TUNE leaves before step 6 and what step 6 adds, in its three cases (spec/43_tuning_engine.md R172 to R176): powered
off, the first vote good, a search. The lemmas of `beforeCheck` first, then one structure that says everything step 6 can do, and the three
theorems that give it. -/

namespace Sys2Proof.Machine

/-! ## Before step 6 -/

section
variable (s : State) (c : Chan)

/-- Steps 2 to 4 do not touch the calibration field (R172). -/
theorem tuneProgram_activeCal : (tuneProgram c (tuneRaise (tuneLookUp c s))).activeCal = s.activeCal := by
  have hn := Config.roles_nodup s.cfg
  simp only [List.nodup_cons, List.mem_cons, List.not_mem_nil, or_false, not_or] at hn
  have hcfg : (tuneProgram c (tuneRaise (tuneLookUp c s))).cfg = s.cfg := by
    simp [tuneProgram, tuneRaise, setChargePump, tuneLookUp, calRead]
  rw [State.activeCal, State.activeCal, hcfg]
  simp [State.reg, tuneProgram, tuneRaise, setChargePump, tuneLookUp, calRead, regsAfter_addrOf, Fin.val_inj, hn.2.2.1.1,
    hn.2.1.2.1, hn.1.2.2.1]

/-- After step 5 the looked-up value is active (R172). -/
theorem beforeCheck_activeCal : (beforeCheck c s).activeCal = s.storedCal c := by
  rw [State.activeCal, beforeCheck_cfg, beforeCheck_reg, if_pos rfl, withCalField_low]

theorem beforeCheck_cnt : (beforeCheck c s).cnt = s.cnt := by
  simp [beforeCheck, tuneApply, tuneProgram, tuneRaise, setChargePump, tuneLookUp, calRead]

theorem beforeCheck_timer : (beforeCheck c s).timer = if s.activeCal = s.storedCal c then s.timer else none := by
  simp only [beforeCheck, tuneApply, State.putTState_timer, calRead_eq]
  split_ifs with h
  · rw [applyCal_active ((tuneProgram_activeCal s c).trans h)]
    simp [tuneProgram, tuneRaise, setChargePump, tuneLookUp, calRead]
  · rw [applyCal_inactive (by rw [tuneProgram_activeCal]; exact h)]
    simp

theorem beforeCheck_querySamples (k : Nat) : (beforeCheck c s).querySamples k = s.querySamples k :=
  State.querySamples_congr (by simp) (by simp) k

theorem beforeCheck_vote (k : Nat) : (beforeCheck c s).vote k = s.vote k := State.vote_congr (by simp) (by simp) k

end

/-! ## The trials of a search -/

/-- How many trials there are, the last value tried, and when there is one only (R203, R205, R206). -/
theorem trialsOf_spec (won : Option Cal) :
    trialsOf won ≠ 0 ∧ trialsOf won ≤ 4 ∧ BitVec.ofNat 2 (4 - trialsOf won) = won.getD 0 ∧
    (trialsOf won = 1 ↔ won = some 3) := by
  rcases won with _ | v
  · decide
  · simp only [trialsOf, Option.some.injEq, Option.getD_some]
    revert v
    decide

/-- The events of `n` trials after the first query of `s`, the register holding `b` before them (R203). -/
def sweepEvents (s : State) (b : Byte) (n : Nat) : List Event :=
  (List.range n).flatMap fun j =>
    trialEvents s.cfg.params.regCal (if j = 0 then b else withCalField (BitVec.ofNat 2 (4 - j)) b) (BitVec.ofNat 2 (3 - j))
      (s.querySamples (j + 1))

/-- The state in which the search starts: step 6 has voted, and lost (R172). -/
def searchStart (c : Chan) (s : State) : State :=
  (lockQuery ((beforeCheck c s).putTState .lockCheck)).putTState .calibrationSearch

/-- The first query of step 6 sees the first 50 samples (R172). -/
theorem firstQuery_trace (c : Chan) (s : State) :
    (lockQuery ((beforeCheck c s).putTState .lockCheck)).trace = (beforeCheck c s).trace ++ voteEvents (s.querySamples 0) := by
  rw [lockQuery_trace, State.querySamples_zero, State.samples_congr (s := s) (by simp) (by simp)]
  rfl

/-- Everything `n` trials of a search that ends with `won` leave, before the commit. -/
structure Swept (c : Chan) (won : Option Cal) (n : Nat) (s w : State) : Prop where
  cfg : w.cfg = s.cfg
  ready : w.ready = s.ready
  busy : w.busy = s.busy
  curChan : w.curChan = s.curChan
  commands : w.commands = s.commands
  lockLine : w.lockLine = s.lockLine.drop (50 * (n + 1))
  drawn : w.drawn = s.drawn + 50 * (n + 1)
  cnt : w.cnt = none
  timer : w.timer = none
  store : w.store = s.store
  reg : ∀ i, w.reg i =
    if i = s.cfg.params.regCal then withCalField (won.getD 0) ((beforeCheck c s).reg i) else (beforeCheck c s).reg i
  dev : ∀ a : Fin 16, a.val ≠ s.cfg.params.regCal.val → w.dev[a.val] = (beforeCheck c s).dev[a.val]
  devCal : w.dev[s.cfg.params.regCal.val]'(by omega) =
    if s.storedCal c = 3 ∧ won = some 3 then (beforeCheck c s).dev[s.cfg.params.regCal.val]'(by omega)
    else some (w.reg s.cfg.params.regCal)
  trace : w.trace = (beforeCheck c s).trace ++ voteEvents (s.querySamples 0) ++
    sweepEvents s ((beforeCheck c s).reg s.cfg.params.regCal) n

/-- The trials leave that. -/
theorem sweptTo_swept (c : Chan) (won : Option Cal) (s : State) :
    Swept c won (trialsOf won) s (sweptTo (trialsOf won) (searchStart c s)) := by
  obtain ⟨n0, n4, hlast, hone⟩ := trialsOf_spec won
  generalize trialsOf won = n at *
  have hcfg : (searchStart c s).cfg = s.cfg := by simp [searchStart]
  have hreg : ∀ i, (searchStart c s).reg i = (beforeCheck c s).reg i := State.reg_congr (by simp [searchStart])
  have hsamples : ∀ k, (searchStart c s).querySamples k = s.querySamples (k + 1) :=
    State.querySamples_shift (by simp [searchStart]) (by simp [searchStart])
  have hactive : (searchStart c s).activeCal = s.storedCal c := by
    rw [← beforeCheck_activeCal]
    exact State.activeCal_congr (by simp [searchStart]) (by simp [searchStart])
  have hdev : (searchStart c s).dev = (beforeCheck c s).dev := by simp [searchStart]
  have hidle := sweptTo_idle n (searchStart c s) (by simp [searchStart]) (by simp [searchStart])
  refine ⟨by simp [hcfg], by simp [searchStart], by simp [searchStart], by simp [searchStart], by simp [searchStart], ?_, ?_,
    hidle.1, hidle.2, by simp [searchStart], fun i => ?_, fun a ha => ?_, ?_, ?_⟩
  · simp [searchStart, Nat.mul_add, Nat.add_comm]
  · simp [searchStart, Nat.mul_add, Nat.add_assoc, Nat.add_comm]
  · rw [sweptTo_reg, hcfg, hreg, hlast]
    simp [n0]
  · clear hlast hone n0 n4 hidle
    induction n with
    | zero => simp [sweptTo, hdev]
    | succ n ih => rw [sweptTo, trial_dev _ _ _ (by simpa [hcfg] using ha), ih]
  · have h := sweptTo_dev_cal n (searchStart c s)
    simp only [hcfg, hactive, n0, false_or, show ¬ 4 < n by omega, if_false, hone, hdev] at h
    rw [h]
    simp only [and_comm]
  · have htrace : (searchStart c s).trace = (beforeCheck c s).trace ++ voteEvents (s.querySamples 0) := by
      rw [searchStart, State.putTState_trace, firstQuery_trace]
    rw [sweptTo_trace, htrace, sweepEvents]
    simp only [hsamples, hcfg, hreg]

/-! ## Step 6 -/

/-- Everything step 6 can do to a TUNE of channel `c` from `s`, `u` being the state after it: `searched` whether it searched, `won` what
the search committed, `trials` and `queries` how many there were. -/
structure Checked (c : Chan) (searched : Bool) (won : Option Cal) (trials queries : Nat) (s u : State) : Prop where
  cfg : u.cfg = s.cfg
  ready : u.ready = s.ready
  busy : u.busy = s.busy
  curChan : u.curChan = s.curChan
  commands : u.commands = s.commands
  lockLine : u.lockLine = s.lockLine.drop (50 * queries)
  drawn : u.drawn = s.drawn + 50 * queries
  cnt : u.cnt = if s.poweredOn then none else s.cnt
  timer : u.timer = if s.poweredOn then none else (beforeCheck c s).timer
  reg : ∀ i, u.reg i =
    if i = s.cfg.params.regCal ∧ searched = true then withCalField (won.getD 0) ((beforeCheck c s).reg i)
    else (beforeCheck c s).reg i
  dev : ∀ a : Fin 16, a.val ≠ s.cfg.params.regCal.val → u.dev[a.val] = (beforeCheck c s).dev[a.val]
  devCal : u.dev[s.cfg.params.regCal.val]'(by omega) =
    if searched = false ∨ (s.storedCal c = 3 ∧ won = some 3) then (beforeCheck c s).dev[s.cfg.params.regCal.val]'(by omega)
    else some (u.reg s.cfg.params.regCal)
  storedCal : ∀ c', u.storedCal c' = if c' = c then won.getD (s.storedCal c) else s.storedCal c'
  storeByte : ∀ a, a ≠ calOff s.cfg.params c → u.storeByte a = s.storeByte a
  packedByte : u.storeByte (calOff s.cfg.params c) = won.elim (s.storeByte (calOff s.cfg.params c)) (packed s c)
  trace : u.trace = (beforeCheck c s).trace ++ (if s.poweredOn then voteEvents (s.querySamples 0) else []) ++
    sweepEvents s ((beforeCheck c s).reg s.cfg.params.regCal) trials ++
    (if won.isSome then
      [.strd (calOff s.cfg.params c) (s.storeByte (calOff s.cfg.params c)),
        .stwr (calOff s.cfg.params c) (u.storeByte (calOff s.cfg.params c))]
     else [])

/-- The table where nothing is committed. -/
theorem storedCal_uncommitted (c c' : Chan) (s : State) :
    s.storedCal c' = if c' = c then (none : Option Cal).getD (s.storedCal c) else s.storedCal c' := by
  split_ifs with h
  · rw [h]
    rfl
  · rfl

/-- Step 6 of a powered-off device (R174). -/
theorem tuneCheck_checked_off (c : Chan) {s : State} (hp : s.poweredOn = false) :
    Checked c false none 0 0 s (tuneCheck c (beforeCheck c s)) := by
  rw [tuneCheck_off (by rw [beforeCheck_poweredOn]; exact hp)]
  refine ⟨by simp, by simp, by simp, by simp, by simp, by simp, by simp, by simp [hp, beforeCheck_cnt], by simp [hp], by simp,
    fun _ _ => rfl, by simp, fun c' => ?_, fun o _ => State.storeByte_congr (by simp) (by simp) o,
    State.storeByte_congr (by simp) (by simp) _, by simp [hp, sweepEvents]⟩
  rw [State.storedCal_congr (s := s) (by simp) (by simp)]
  exact storedCal_uncommitted c c' s

/-- Step 6 where the first vote is good (R175). -/
theorem tuneCheck_checked_good (c : Chan) {s : State} (hp : s.poweredOn = true) (hv : s.vote 0 = true) :
    Checked c false none 0 1 s (tuneCheck c (beforeCheck c s)) := by
  rw [tuneCheck_good (by rw [beforeCheck_poweredOn]; exact hp) (by rw [beforeCheck_vote]; exact hv)]
  refine ⟨by simp, by simp, by simp, by simp, by simp, by simp, by simp, by simp [hp], by simp [hp], fun i => ?_,
    fun _ _ => by simp, by simp, fun c' => ?_, fun o _ => State.storeByte_congr (by simp) (by simp) o,
    State.storeByte_congr (by simp) (by simp) _, ?_⟩
  · simp only [Bool.false_eq_true, and_false, if_false]
    exact State.reg_congr (by simp) i
  · rw [State.storedCal_congr (s := s) (by simp) (by simp)]
    exact storedCal_uncommitted c c' s
  · rw [State.putTState_trace, firstQuery_trace]
    simp [hp, sweepEvents]

/-- The two store events of a commit (R203). -/
theorem commit_trace (c : Chan) (v : Cal) (w : State) :
    (commit c v w).trace = w.trace ++
      [.strd (calOff w.cfg.params c) (w.storeByte (calOff w.cfg.params c)), .stwr (calOff w.cfg.params c) (packed w c v)] := by
  rw [commit, calWrite_eq]
  rfl

/-- Step 6 where the first vote fails: the search, won or lost (R176, R203 to R206). -/
theorem tuneCheck_checked_search (c : Chan) {s : State} (hw : s.StoreWf) (hp : s.poweredOn = true) (hv : s.vote 0 = false) :
    Checked c true (s.winner 1) (trialsOf (s.winner 1)) (trialsOf (s.winner 1) + 1) s (tuneCheck c (beforeCheck c s)) := by
  rw [tuneCheck_bad (by rw [beforeCheck_poweredOn]; exact hp) (by rw [beforeCheck_vote]; exact hv)]
  change Checked c _ _ _ _ s (calSearch c Config.sweep (searchStart c s))
  have hvote : ∀ k, (searchStart c s).vote k = s.vote (k + 1) :=
    State.vote_shift (by simp [searchStart]) (by simp [searchStart])
  have hwinner : (searchStart c s).winner 0 = s.winner 1 := by simp [State.winner, hvote]
  have hsearch : calSearch c Config.sweep (searchStart c s) =
      match s.winner 1 with
      | some v => commit c v (sweptTo (trialsOf (s.winner 1)) (searchStart c s))
      | none => sweptTo (trialsOf (s.winner 1)) (searchStart c s) := by
    rw [calSearch_sweep, hwinner]
    cases s.winner 1 <;> rfl
  rw [hsearch]
  have W := sweptTo_swept c (s.winner 1) s
  generalize sweptTo (trialsOf (s.winner 1)) (searchStart c s) = w at W
  generalize s.winner 1 = won at *
  have hbyte : ∀ o, w.storeByte o = s.storeByte o := State.storeByte_congr W.cfg W.store
  cases won with
  | none =>
    refine ⟨W.cfg, W.ready, W.busy, W.curChan, W.commands, W.lockLine, W.drawn, by simp [W.cnt, hp], by simp [W.timer, hp],
      by simpa using W.reg, W.dev, by simpa using W.devCal, fun c' => ?_, fun a _ => hbyte a, hbyte _,
      by simp [W.trace, hp]⟩
    rw [State.storedCal_congr W.cfg W.store]
    exact storedCal_uncommitted c c' s
  | some v =>
    have hreg : ∀ i, (commit c v w).reg i = w.reg i := State.reg_congr (by simp [commit])
    have hsorted : (w.putSession { w.session with cal := some v }).store.Pairwise (fun x y => x.1 < y.1) := by
      rw [State.putSession_store, W.store]
      exact hw.1
    refine ⟨by simp [commit, W.cfg], by simp [commit, W.ready], by simp [commit, W.busy], by simp [commit, W.curChan],
      by simp [commit, W.commands], by simpa [commit] using W.lockLine, by simpa [commit] using W.drawn,
      by simp [commit, W.cnt, hp], by simp [commit, W.timer, hp], fun i => ?_, fun a ha => by simpa [commit] using W.dev a ha,
      ?_, fun c' => ?_, fun a ha => ?_, ?_, ?_⟩
    · simp only [hreg, W.reg, and_true]
    · simp only [hreg]
      simpa [commit] using W.devCal
    · simp only [commit]
      rw [calWrite_storedCal c v _ hsorted, State.storedCal_congr (s := s) (by simp [W.cfg]) (by simp [W.store]), Option.getD_some]
    · simp only [commit]
      rw [calWrite_storeByte_other _ _ _ _ (by simpa [W.cfg] using ha)]
      exact State.storeByte_congr (by simp [W.cfg]) (by simp [W.store]) a
    · simp only [commit, calWrite_storeByte c v _ hsorted, State.putSession_cfg, W.cfg, if_true, packed, Option.elim_some]
      rw [State.storeByte_congr (s := s) (by simp [W.cfg]) (by simp [W.store])]
    · simp only [commit_trace, W.trace, W.cfg, hbyte, hp, if_true, Option.isSome_some]
      simp only [commit, calWrite_storeByte c v _ hsorted, State.putSession_cfg, W.cfg, if_true]
      rfl

end Sys2Proof.Machine
end

