-- ==== Sys2Proof/Laws/PerInstr.lean ====
section
/-! SUPPORT. A law of every command as syntax, one lemma a constructor: its word has its row's fixed bits (spec/30_encoding.md
R99). -/

namespace Sys2Proof

theorem opMask_bit : ∀ i : Fin 16, (0xF000 : BitVec 16).getLsbD i.val = decide (12 ≤ i.val) := by decide

/-- The opcode field of a word (R97). -/
theorem word_op (op : BitVec 4) (a : Addr) (d : Byte) : word op a d &&& 0xF000 = word op 0 0 := by
  refine BitVec.eq_of_getLsbD_eq fun i hi => ?_
  rw [BitVec.getLsbD_and, opMask_bit ⟨i, hi⟩, word, word, BitVec.getLsbD_append, BitVec.getLsbD_append, BitVec.getLsbD_append, BitVec.getLsbD_append]
  by_cases h : 12 ≤ i
  · simp [h, show ¬ i < 8 by omega, show ¬ i - 8 < 4 by omega]
  · by_cases h8 : i < 8
    · simp [h, h8]
    · simp [h, h8, show i - 8 < 4 by omega]

end Sys2Proof

namespace Sys2Proof.Laws.MatchesRow

/-- The word of a command, under its row's mask, is its row's match (R99). -/
def Statement (i : Instr) : Prop := encode i &&& rowMask i = rowMatch i

theorem wrreg (a : Addr) (d : Byte) : Statement (.wrreg a d) := word_op 0x1 a d

theorem rstbus : Statement .rstbus := by rfl

theorem set (a : Addr) (d : Byte) : Statement (.set a d) := word_op 0x3 a d

theorem get (a : Addr) : Statement (.get a) := by
  revert a; unfold Statement encode rowMask rowMatch; decide +kernel

theorem setbits (a : Addr) (d : Byte) : Statement (.setbits a d) := word_op 0x5 a d

theorem clrbits (a : Addr) (d : Byte) : Statement (.clrbits a d) := word_op 0x6 a d

theorem haslock : Statement .haslock := by rfl

theorem tune (d : Byte) : Statement (.tune d) := by
  revert d; unfold Statement encode rowMask rowMatch; decide +kernel

theorem calapply (v : Cal) : Statement (.calapply v) := by
  revert v; unfold Statement encode rowMask rowMatch; decide +kernel

theorem calrd (d : Byte) : Statement (.calrd d) := by
  revert d; unfold Statement encode rowMask rowMatch; decide +kernel

theorem calwr (v : Cal) (d : Byte) : Statement (.calwr v d) := by
  revert v d; unfold Statement encode rowMask rowMatch; decide +kernel

theorem stinit : Statement .stinit := by rfl

theorem setrdy (f : Bool) : Statement (.setrdy f) := by
  revert f; unfold Statement encode rowMask rowMatch; decide +kernel

end Sys2Proof.Laws.MatchesRow
end

