-- ==== Sys2Proof/Laws/Wrapper.lean ====
section
/-! SUPPORT. What the sequences of commands of the surrounding software can do (spec/46_host_wrappers.md R262 to R268): a list of
commands in two parts, nine SETs, device SETs, register writes, a served TUNE. -/

namespace Sys2Proof.Machine

@[simp] theorem andThen_next (s : State) (k : State → Host.Outcome State Fault Refusal) : andThen (.next s) k = k s := rfl

/-- A list of commands in two parts. -/
theorem issueAll_append (xs ys : List Instr) (s : State) :
    issueAll (xs ++ ys) s = andThen (issueAll xs s) (issueAll ys) := by
  induction xs generalizing s with
  | nil => rfl
  | cons x xs ih =>
    simp only [List.cons_append, issueAll]
    cases serve x s with
    | next t => exact ih t
    | fault r => rfl
    | refused r => rfl

/-- What a served SET answers (R142). -/
def served (a : Addr) (v : Byte) (s : State) : State := (setReg a v (s.putBusy true)).putBusy false

theorem serve_set (a : Addr) (v : Byte) (s : State) : serve (.set a v) s = .next (served a v s) := rfl

section
variable (a : Addr) (r i : RegIdx) (v : Byte) (s : State)
@[simp] theorem served_cfg : (served a v s).cfg = s.cfg := by simp [served]
@[simp] theorem served_store : (served a v s).store = s.store := by simp [served]
@[simp] theorem served_ready : (served a v s).ready = s.ready := by simp [served]
@[simp] theorem served_trace : (served a v s).trace = s.trace ++ frame a v := by simp [served]
@[simp] theorem served_dev : (served a v s).dev = s.dev.set a.toNat (some v) := by simp [served]

theorem served_reg : (served (addrOf r) v s).reg i = if i = r then v else s.reg i :=
  setReg_reg r v (s.putBusy true) i
end

/-- SETs of mirrored registers, one value to a register: those named hold the value, in the mirror and in the device, the others are
as they were. -/
theorem issueAll_sets (vals : Vector Byte 9) (l : List RegIdx) (s : State) :
    ∃ t, issueAll (l.map fun i => .set (addrOf i) vals[i.val]) s = .next t ∧
      t.cfg = s.cfg ∧ t.store = s.store ∧ t.ready = s.ready ∧
      (∀ r, t.reg r = if r ∈ l then vals[r.val] else s.reg r) ∧
      (∀ r : RegIdx, t.dev[r.val]'(by omega) = if r ∈ l then some vals[r.val] else s.dev[r.val]'(by omega)) ∧
      t.trace = s.trace ++ l.flatMap fun i => frame (addrOf i) vals[i.val] := by
  induction l generalizing s with
  | nil => exact ⟨s, rfl, rfl, rfl, rfl, by simp, by simp, by simp⟩
  | cons i l ih =>
    obtain ⟨t, h1, h2, h3, h4, h5, h6, h7⟩ := ih (served (addrOf i) vals[i.val] s)
    refine ⟨t, by rw [List.map_cons, issueAll, serve_set]; exact h1, by simpa using h2, by simpa using h3,
      by simpa using h4, fun r => ?_, fun r => ?_, by simpa using h7⟩
    · rw [h5, served_reg]
      by_cases hl : r ∈ l <;> by_cases hi : r = i <;> simp [hl, hi]
    · rw [h6]
      by_cases hl : r ∈ l
      · simp [hl]
      · by_cases hi : r = i
        · simp [hi, addrOf_toNat]
        · simp [hl, hi, addrOf_toNat, Vector.getElem_set_ne, Ne.symm (Fin.val_ne_of_ne hi)]

/-- The nine SETs (R267, R268): afterwards the mirror holds the values and is true. -/
theorem issueAll_pushAll (vals : Vector Byte 9) (s : State) :
    ∃ t, issueAll (pushAll vals) s = .next t ∧ t.cfg = s.cfg ∧ t.store = s.store ∧ t.ready = s.ready ∧
      t.regs = vals ∧ t.MirrorTrue ∧
      t.trace = s.trace ++ (List.finRange 9).flatMap fun i => frame (addrOf i) vals[i.val] := by
  obtain ⟨t, h1, h2, h3, h4, h5, h6, h7⟩ := issueAll_sets vals (List.finRange 9) s
  simp only [List.mem_finRange, if_true] at h5 h6
  exact ⟨t, h1, h2, h3, h4, Vector.ext fun i hi => h5 ⟨i, hi⟩, fun r => by rw [h6, h5], h7⟩

/-- SETs to the addresses above the mirror change no mirrored register and nothing the device holds there (R141). -/
theorem issueAll_deviceSets (l : List (Addr × Byte)) (s : State) (h : ∀ x ∈ l, 9 ≤ x.1.toNat) :
    ∃ t, issueAll (l.map fun x => .set x.1 x.2) s = .next t ∧ t.cfg = s.cfg ∧ t.store = s.store ∧ t.regs = s.regs ∧
      ∀ r : RegIdx, t.dev[r.val]'(by omega) = s.dev[r.val]'(by omega) := by
  induction l generalizing s with
  | nil => exact ⟨s, rfl, rfl, rfl, rfl, by simp⟩
  | cons x l ih =>
    obtain ⟨t, h1, h2, h3, h4, h5⟩ := ih (served x.1 x.2 s) fun y hy => h y (List.mem_cons_of_mem _ hy)
    have hx := h x List.mem_cons_self
    refine ⟨t, h1, by simpa using h2, by simpa using h3, ?_, fun r => ?_⟩
    · rw [h4]
      simp [served, regsAfter, mirrorIdx, show ¬ x.1.toNat < 9 by omega]
    · rw [h5, served_dev, Vector.getElem_set_ne]
      omega

/-- Where a register write goes and what byte it sends (R269). -/
def writeTo (w : RegWrite) (s : State) : Addr × Byte :=
  match w with
  | .set a v => (a, v)
  | .setField r _ _ => (addrOf r, w.apply r (s.reg r))
  | .setBits r _ => (addrOf r, w.apply r (s.reg r))
  | .clrBits r _ => (addrOf r, w.apply r (s.reg r))

/-- One register write (R269) is a SET of what the register holds after it. -/
theorem serve_regWrite (w : RegWrite) (s : State) :
    serve (RegWrite.command w s) s = .next (served (writeTo w s).1 (writeTo w s).2 s) := by
  cases w <;> simp [RegWrite.command, writeTo, RegWrite.apply, serve, exec, execSet, execSetbits, execClrbits, served] <;> rfl

/-- Every mirrored register after one register write. -/
theorem served_writeTo_reg (w : RegWrite) (s : State) (r : RegIdx) :
    (served (writeTo w s).1 (writeTo w s).2 s).reg r = w.apply r (s.reg r) := by
  rcases w with ⟨a, v⟩ | ⟨q, mask, v⟩ | ⟨q, v⟩ | ⟨q, v⟩ <;> simp only [writeTo, RegWrite.apply]
  · exact setReg_reg_any a v (s.putBusy true) r
  all_goals
    rw [served_reg]
    by_cases h : r = q
    · simp [h]
    · simp [h, Ne.symm h]

/-- A list of register writes (R268, R269): every register holds what they make of it. -/
theorem issueWrites_spec (ws : List RegWrite) (s : State) :
    ∃ t, issueWrites ws s = .next t ∧ t.cfg = s.cfg ∧ t.store = s.store ∧ t.ready = s.ready ∧
      ∀ r, t.reg r = regAfter ws r (s.reg r) := by
  induction ws generalizing s with
  | nil => exact ⟨s, rfl, rfl, rfl, rfl, fun _ => rfl⟩
  | cons w ws ih =>
    obtain ⟨t, h1, h2, h3, h4, h5⟩ := ih (served (writeTo w s).1 (writeTo w s).2 s)
    refine ⟨t, by rw [issueWrites, serve_regWrite]; exact h1, by simpa using h2, by simpa using h3, by simpa using h4,
      fun r => ?_⟩
    rw [h5, served_writeTo_reg]
    rfl

end Sys2Proof.Machine
end

