-- ==== Sys2Proof/Tests/Slice0.lean ====
section
/-! SUPPORT. The model's own tests. Words are written from spec/30_encoding.md R98; expected results are the vectors of
spec/95_test_vectors.md under the test configuration of spec/00_scope.md R10, named W, M, L, A, T, U, X, P as there. The witness
theorems show states and operands that meet the hypotheses of the statements in Certificates/Slice0/Obligations.lean. -/

namespace Sys2Proof.Machine

/-! ## The test configuration `CFG_TEST` (R10): no claim about the hardware -/

/-- The default store of section 2.5: the marker, then `DefByte(0..25)`. -/
def defaultStore : List Byte :=
  [0xA5] ++ .replicate 5 0xFF ++ .replicate 7 0xAA ++ [0x5A] ++ .replicate 7 0x55 ++ .replicate 6 0x00

/-- The reset state of program P1: every store byte 0xFF. -/
def blank : State := .powerOn (.cfgTest Params.blankStore rfl)

/-- The start of section 2.6: `READY = 1`, `R = R_POR` (powered off), the default store. -/
def off : State := { State.powerOn (.cfgTest defaultStore rfl) with ready := true }

/-- The start of program P3: as `off`, but `R[0] = 0xA1` (powered on), and a given lock line. -/
def on (line : List Bool) : State := { off with regs := off.regs.set 0 0xA1, lockLine := line }

/-- `n` samples of one level. -/
def level (n : Nat) (b : Bool) : List Bool := .replicate n b

/-- The trace of a next state, if there is one. -/
def traceOf (o : Host.Outcome State Fault Refusal) : Option (List Event) :=
  match o with
  | .next t => some t.trace
  | _ => none

/-- Does a next state satisfy a property? -/
def nextIs (o : Host.Outcome State Fault Refusal) (p : State → Bool) : Bool :=
  match o with
  | .next t => p t
  | _ => false

/-! ## Well-formedness: a term each check refuses (R99) -/

theorem test_wellFormed_get : wellFormed (.get 9) = false ∧ wellFormed (.get 8) = true := by decide
theorem test_wellFormed_setbits : wellFormed (.setbits 9 1) = false ∧ wellFormed (.setbits 8 1) = true := by decide
theorem test_wellFormed_clrbits : wellFormed (.clrbits 15 1) = false ∧ wellFormed (.clrbits 0 1) = true := by decide
theorem test_wellFormed_calrd : wellFormed (.calrd 103) = false ∧ wellFormed (.calrd 102) = true := by decide
theorem test_wellFormed_calwr : wellFormed (.calwr 3 255) = false ∧ wellFormed (.calwr 3 0) = true := by decide

/-! ## Decoding: op, a, d bit by bit from R98 -/

theorem test_decode_wrreg : decode 0b0001111000000101 = .ok (.wrreg 14 0x05) := by decide
theorem test_decode_rstbus : decode 0b0010000000000000 = .ok .rstbus := by decide
theorem test_decode_set : decode 0b0011001110001010 = .ok (.set 3 0x8A) := by decide
theorem test_decode_get : decode 0b0100100000000000 = .ok (.get 8) := by decide
theorem test_decode_setbits : decode 0b0101000100000011 = .ok (.setbits 1 0x03) := by decide
theorem test_decode_clrbits : decode 0b0110000111110000 = .ok (.clrbits 1 0xF0) := by decide
theorem test_decode_haslock : decode 0b0111000000000000 = .ok .haslock := by decide
theorem test_decode_tune : decode 0b1000000011111111 = .ok (.tune 255) := by decide
theorem test_decode_calapply : decode 0b1001000000000010 = .ok (.calapply 2) := by decide
theorem test_decode_calrd : decode 0b1010000001100110 = .ok (.calrd 102) := by decide
theorem test_decode_calwr : decode 0b1011001001100101 = .ok (.calwr 2 101) := by decide
theorem test_decode_stinit : decode 0b1100000000000000 = .ok .stinit := by decide
theorem test_decode_setrdy : decode 0b1101000000000001 = .ok (.setrdy true) := by decide

/-- M11, M12, T11: no mirror element, no channel. -/
theorem test_refuse_operands :
    decode 0x4900 = .error .mirrorIndex ∧ decode 0x5C01 = .error .mirrorIndex ∧ decode 0xA067 = .error .channel := by decide

/-- M13, A6, T12: a must-be-zero field is nonzero; and the unused opcodes. -/
theorem test_refuse_mbz :
    decode 0x4101 = .error .mbz ∧ decode 0x9004 = .error .mbz ∧ decode 0xB40A = .error .mbz ∧
    decode 0x0000 = .error .opcode ∧ decode 0xE000 = .error .opcode ∧ decode 0xF123 = .error .opcode := by decide

/-- The table word of each row runs as the first instruction after reset. -/
theorem test_first_step :
    [0x1000, 0x2000, 0x3000, 0x4000, 0x5000, 0x6000, 0x7000, 0x8000, 0x9000, 0xA000, 0xB000, 0xC000, 0xD000].all
      (fun w => nextIs (step (State.reset.withFetchWord 16 w)) fun _ => true) = true := by decide

/-! ## Wire driver -/

/-- W3: the `DATA` levels of the slots, and the ends. -/
theorem test_frame_W3 :
    frameBits 3 0x8A = [true, true, false, false, false, true, false, true, false, false, false, true] ∧
    (frame 3 0x8A).length = 38 ∧ (frame 3 0x8A).drop 36 = [.pin .latch true, .pin .latch false] := by decide

/-- W10: WRREG leaves the mirror and reaches the device. -/
theorem test_wrreg_W10 :
    nextIs (exec (.wrreg 8 0x1B) { off with regs := off.regs.set 8 0x1A, dev := off.dev.set 8 (some 0x1A) }) (fun t =>
      t.regs[8] == 0x1A && t.dev[8] == some 0x1B && t.trace == frame 8 0x1B) = true := by
  decide +kernel

/-- W9: 90 events, 29 rising clocks, the end levels. -/
theorem test_rstbus_W9 :
    nextIs (exec .rstbus blank) (fun t =>
      t.trace.length == 90 && t.trace.count (.pin .clk true) == 29 && t.pins == ⟨true, false, false⟩ &&
      t.trace.take 4 == [.pin .data true, .pin .clk true, .pin .data false, .pin .clk false] &&
      t.trace.drop 86 == [.pin .data false, .pin .clk true, .pin .data true, .pin .clk false]) = true := by decide +kernel

/-! ## Register model -/

/-- M1, and M3: an address above 8 has no mirror element. -/
theorem test_set_M1 :
    nextIs (exec (.set 0 0xA1) blank) (fun t => t.regs == blank.regs.set 0 0xA1 && t.trace == frame 0 0xA1) = true := by decide
theorem test_set_M3 :
    nextIs (exec (.set 14 0x05) blank) (fun t => t.regs == blank.regs && t.dev[14] == some 0x05) = true := by
  decide +kernel
theorem test_get_M6 : traceOf (exec (.get 1) blank) = some [.rsp 0xB4] := by decide
theorem test_setbits_M7 : nextIs (exec (.setbits 1 0x03) blank) (fun t => t.regs == blank.regs.set 1 0xB7) = true := by decide
theorem test_setbits_M8 : traceOf (exec (.setbits 1 0x00) blank) = some (frame 1 0xB4) := by decide
theorem test_clrbits_M9 : nextIs (exec (.clrbits 1 0xF0) blank) (fun t => t.regs == blank.regs.set 1 0x04) = true := by decide

/-! ## Lock detector -/

/-- L3: a tie of 25 is false. -/
theorem test_haslock_L3 :
    nextIs (exec .haslock { blank with lockLine := level 25 true ++ level 25 false }) (fun t =>
      t.trace.getLast? == some (.rsp 0x00) && t.drawn == 50) = true := by decide +kernel

/-- L5: 26 ones, last, are a majority. -/
theorem test_haslock_L5 :
    nextIs (exec .haslock { blank with lockLine := level 24 false ++ level 26 true }) (fun t =>
      t.trace == voteEvents (level 24 false ++ level 26 true) ++ [.rsp 0x01]) = true := by decide +kernel

/-! ## Tuning engine -/

/-- U5: powered off; the stored value 2 differs from the active 3. -/
theorem test_tune_U5 :
    traceOf (exec (.tune 49) off) = some ([.strd 13 0x5A] ++ frame 6 0x1E ++ frame 3 0x8A ++ frame 4 0x2E ++ frame 8 0x1A ++
      [.delay .tApply] ++ frame 6 0x1A) := by decide +kernel

/-- P3 step 1: the search wins at value 1 and commits it. -/
theorem test_tune_P3 :
    nextIs (exec (.tune 10) (on (level 150 false ++ level 50 true))) (fun t =>
      t.regs == #v[0xA1, 0xB4, 0x05, 0xD2, 0x2A, 0x00, 0x1A, 0x00, 0x19] && t.storeByte 3 == 0xDF && t.drawn == 200 &&
      t.tstate == .idle) = true := by decide +kernel

/-! ## Calibration -/

/-- A2 (and S9: the second apply sends nothing) and A4 (the upper bits stay). -/
theorem test_calapply_A2 : traceOf (exec (.calapply 2) blank) = some (frame 8 0x1A ++ [.delay .tApply]) := by decide
theorem test_calapply_A4 :
    nextIs (exec (.calapply 1) { blank with regs := blank.regs.set 8 0xFC }) (fun t => t.regs[8] == 0xFD) = true := by decide

/-! ## Store -/

/-- T2, T4, T6. -/
theorem test_calrd_T2 :
    traceOf (exec (.calrd 101) { off with store := [(26, 0x39)] }) = some [.strd 26 0x39, .rsp 0x02] := by decide
theorem test_calwr_T4 :
    nextIs (exec (.calwr 0 101) { off with store := [(26, 0x39)] }) (fun t =>
      t.store == [(26, 0x31)] && t.trace == [.strd 26 0x39, .stwr 26 0x31]) = true := by decide
theorem test_calwr_T6 :
    nextIs (exec (.calwr 3 100) { off with store := [(26, 0xC0)] }) (fun t => t.store == [(26, 0xC3)]) = true := by decide

/-- T8: the reset procedure leaves the default store, after 1 read and 27 writes. -/
theorem test_stinit_T8 :
    nextIs (exec .stinit blank) (fun t =>
      (List.range 27).map t.storeByte == defaultStore && t.trace.length == 28 && storeWrites t.trace == 27) = true := by
  decide +kernel

/-- T9: a valid marker is trusted. -/
theorem test_stinit_T9 : traceOf (exec .stinit off) = some [.strd 0 0xA5] := by decide
theorem test_setrdy : nextIs (exec (.setrdy true) blank) (fun t => t.ready && t.trace == []) = true := by decide

/-! ## Wrappers -/

/-- The entries R10 gives a value for (section 2.4 names channels 0 and 10 as well). -/
theorem test_chanDiv_R10 :
    [0, 10, 49, 90, 102].map (fun c => (Params.cfgTest []).chanDiv.toList[c]?) =
      [some 0x29DE, some 0x2AD2, some 0x2E8A, some 0x3273, some 0x3398] := by decide +kernel

/-- X3, X6, X7, X12, X11. -/
theorem test_setFrequency_X3 :
    nextIs (setFrequency 895 off) (fun t => t.curChan == some 10 && t.regs[3] == 0xD2 && t.regs[4] == 0x2A) = true := by
  decide +kernel
theorem test_setChannel_X12 : nextIs (setChannel 5 blank) (fun t => t.curChan == none && t.trace == []) = true := by decide
theorem test_getFrequency_X11 : getFrequency blank = .error .noCurrentChannel := by decide

/-- A SET of a composed value keeps the other bits (R269): 0xB4 with bits 5..4 made 01 is 0x94; one frame, no response. -/
theorem test_setInputAttenuation :
    nextIs (setInputAttenuation 1 blank) (fun t => t.regs == blank.regs.set 1 0x94 && t.trace == frame 1 0x94) = true := by
  decide +kernel

/-- A run of two words (R341): P6 steps 1 and 4. -/
theorem test_run_P6 : nextIs (run [0x30A1, 0x4000] blank) (fun t =>
    t.trace == frame 0 0xA1 ++ [.rsp 0xA1] && t.busy == false && t.commands == []) = true := by decide +kernel

/-! ## Witnesses: the hypotheses of the statements can be met -/

theorem witness_DecodeInvertsEncode :
    ([.get 8, .setbits 8 0, .clrbits 0 0xFF, .calrd 102, .calwr 3 102, .tune 255] : List Instr).all wellFormed = true := by decide
theorem witness_EncodeInvertsDecode : decode 0xB366 = .ok (.calwr 3 102) := by decide
theorem witness_StepRunsDecodedCommand :
    ({ off with commands := [0x4100] } : State).commands = [0x4100] ∧ off.busy = false ∧ decode 0x4100 = .ok (.get 1) := by decide
theorem witness_StepRefusesReservedWord :
    ({ off with commands := [0x4900] } : State).commands = [0x4900] ∧ off.busy = false ∧
    decode 0x4900 = .error .mirrorIndex := by decide
theorem witness_StepWithoutCommandIdles : blank.commands = [] := rfl
theorem witness_DefinedCommandsComplete : wellFormed (.calwr 0 0) = true := by decide
theorem witness_DefinedCommandsComplete_refused : exec (.get 9) blank = .refused (.reserved .mirrorIndex) := rfl
theorem witness_GetAnswersTheMirror : (8 : Addr).toNat < 9 ∧ (0 : Addr).toNat < 9 := by decide
theorem witness_SetbitsResult : (8 : Addr).toNat < 9 ∧ (0 : Addr).toNat < 9 := by decide
theorem witness_ClrbitsResult : (8 : Addr).toNat < 9 ∧ (0 : Addr).toNat < 9 := by decide
theorem witness_OutOfRangeOperandsRefused_mirror : 9 ≤ (9 : Addr).toNat ∧ 9 ≤ (15 : Addr).toNat := by decide
theorem witness_OutOfRangeOperandsRefused_channel : 103 ≤ (103 : Byte).toNat ∧ 103 ≤ (255 : Byte).toNat := by decide
theorem witness_AnySampleSequenceMayOccur : (level 50 true).length = 50 ∧ (level 25 true ++ level 25 false).length = 50 := by
  decide

/-- The same 25 ones in two orders. -/
theorem witness_VoteIgnoresOrder :
    (({ blank with lockLine := level 25 true ++ level 25 false } : State).samples 50).Perm
      (({ blank with lockLine := level 25 false ++ level 25 true } : State).samples 50) ∧
    (({ blank with lockLine := level 25 true ++ level 25 false } : State).samples 50).count true = 25 := by
  decide +kernel

theorem witness_TuneRejectedIsNoOp_notReady : blank.ready = false ∨ 103 ≤ (10 : Byte).toNat := by decide
theorem witness_TuneRejectedIsNoOp_noChannel : off.ready = false ∨ 103 ≤ (103 : Byte).toNat := by decide
theorem witness_TuneEqualsStateMachine : (102 : Byte).toNat < 103 ∧ off.ready = true := by decide

/-- The three cases a tune distinguishes are all met by some state. -/
theorem witness_TuneVisitsItsStates :
    off.poweredOn = false ∧ (on (level 50 true)).poweredOn = true ∧ (on (level 50 true)).vote 0 = true ∧
    (on (level 50 false)).vote 0 = false := by decide +kernel
theorem witness_TunePoweredOffOnlyPrestages : (0 : Byte).toNat < 103 ∧ off.ready = true ∧ off.poweredOn = false := by decide
theorem witness_TuneLockGoodNeverSearches :
    (102 : Byte).toNat < 103 ∧ (on (level 24 false ++ level 26 true)).ready = true ∧
    (on (level 24 false ++ level 26 true)).poweredOn = true ∧
    25 < ((on (level 24 false ++ level 26 true)).samples 50).count true := by decide +kernel
theorem witness_TuneAllTrialsFail :
    (10 : Byte).toNat < 103 ∧ (on (level 250 false)).ready = true ∧ (on (level 250 false)).poweredOn = true ∧
    ∀ k < 5, (on (level 250 false)).vote k = false := by decide +kernel
theorem witness_TuneOutcome : (10 : Byte).toNat < 103 ∧ off.ready = true ∧ off.StoreWf :=
  ⟨by decide, rfl, .nil, fun c hc => by cases hc⟩

/-- The same with a search, won at the third trial. -/
theorem witness_TuneOutcome_searched :
    (on (level 150 false ++ level 50 true)).poweredOn = true ∧ (on (level 150 false ++ level 50 true)).vote 0 = false ∧
    (on (level 150 false ++ level 50 true)).winner 1 = some 1 := by decide +kernel

/-- The inner premises of the statement: a value that is active and one that is not, a SET or CLRBITS that changes the field, and a
WRREG. -/
theorem witness_CalapplyIdempotent :
    exec (.calapply 3) blank = .next blank ∧ blank.activeCal = 3 ∧ blank.activeCal ≠ 2 ∧
    (∃ u, exec (.set (addrOf blank.cfg.params.regCal) 0x18) blank = .next u) ∧ (0x18 : Byte).setWidth 2 ≠ (3 : Cal) ∧
    (∃ u, exec (.clrbits (addrOf blank.cfg.params.regCal) 0x03) blank = .next u) ∧
    (blank.reg blank.cfg.params.regCal &&& ~~~(0x03 : Byte)).setWidth 2 ≠ (3 : Cal) ∧
    ∃ u, exec (.wrreg (addrOf blank.cfg.params.regCal) 0x18) blank = .next u :=
  ⟨rfl, by decide, by decide, ⟨_, rfl⟩, by decide, ⟨_, rfl⟩, by decide, ⟨_, rfl⟩⟩

/-- The same with a SETBITS: value 0 active, bit 0 then set. -/
theorem witness_CalapplyIdempotent_setbits :
    let s : State := { blank with regs := blank.regs.set 8 0x18 }
    exec (.calapply 0) s = .next s ∧ (∃ u, exec (.setbits (addrOf s.cfg.params.regCal) 0x01) s = .next u) ∧
    (s.reg s.cfg.params.regCal ||| (0x01 : Byte)).setWidth 2 ≠ (0 : Cal) :=
  ⟨rfl, ⟨_, rfl⟩, by decide⟩
theorem witness_CalrdResult : (102 : Byte).toNat < 103 ∧ (0 : Byte).toNat < 103 := by decide
theorem witness_CalwrResult : (102 : Byte).toNat < 103 ∧ (0 : Byte).toNat < 103 ∧ off.StoreWf :=
  ⟨by decide, by decide, .nil, fun c hc => by cases hc⟩
theorem witness_CalwrRoundTrip : off.StoreWf := ⟨.nil, fun c hc => by cases hc⟩
theorem witness_StinitTrustsValidMarker : off.StoreValid := by decide
theorem witness_StinitResetsInvalidStore : blank.StoreWf ∧ ¬ blank.StoreValid :=
  ⟨⟨.nil, fun c hc => by cases hc⟩, by decide⟩

theorem witness_ReadyWrittenOnlyBySetrdy :
    ∃ t, exec (.setrdy true) blank = .next t ∧ t.ready ≠ blank.ready := ⟨_, rfl, by decide⟩
theorem witness_MirrorChangesOnlyThroughSet :
    ∃ t, exec (.set 0 0xA1) blank = .next t ∧ t.reg 0 ≠ blank.reg 0 := ⟨_, rfl, by decide⟩

/-- Each clause of the frame of the store: an offset outside the CORE's 27 (in a larger store it could be one), another byte of the
table, and a command that stores nothing. -/
theorem witness_StoreFrame :
    (∃ t, exec (.calwr 1 10) off = .next t) ∧ (27 ≠ off.cfg.params.markerOff ∧ off.cfg.params.calBase + 25 < 27) ∧
    chanOf 10 = some 10 ∧ 4 ≠ calOff off.cfg.params 10 ∧ (∃ t, exec (.tune 10) off = .next t) ∧
    ∃ t, exec (.calrd 10) off = .next t := by
  refine ⟨⟨_, rfl⟩, by decide, by decide, by decide, ⟨_, rfl⟩, ⟨_, rfl⟩⟩
theorem witness_TraceOnlyGrows : ∃ t, step { blank with commands := [0x4100] } = .next t := ⟨_, rfl⟩
theorem witness_ResponseIsLastEvent :
    (∃ t, exec (.get 1) blank = .next t) ∧ ∃ t, exec (.set 1 0) blank = .next t := ⟨⟨_, rfl⟩, ⟨_, rfl⟩⟩
theorem witness_StoreIsReplayOfTrace : ∃ t, exec .stinit blank = .next t ∧ 0 < storeWrites (t.since blank) :=
  ⟨_, rfl, by decide +kernel⟩
theorem witness_DeviceIsReplayOfPins :
    blank.pins.clk = false ∧ blank.pins.latch = false ∧ ∃ t, exec (.set 3 0x8A) blank = .next t := ⟨rfl, rfl, ⟨_, rfl⟩⟩
theorem witness_StepKeepsQuiet :
    (off.withFetchWord 16 0x800A).Quiet ∧ ∃ t, step (off.withFetchWord 16 0x800A) = .next t := ⟨by decide, ⟨_, rfl⟩⟩
theorem witness_StepKeepsStoreCanonical :
    (off.withFetchWord 16 0xB10A).StoreWf ∧ ∃ t, step (off.withFetchWord 16 0xB10A) = .next t :=
  ⟨⟨.nil, fun c hc => by cases hc⟩, ⟨_, rfl⟩⟩

/-- A mirror that is true, with a command that keeps it: WRREG at address 9, the first one above the mirror. -/
theorem witness_StepKeepsMirrorTrue :
    (off.withFetchWord 16 0x19FF).MirrorTrue ∧ decode 0x19FF = .ok (.wrreg 9 0xFF) ∧
    keepsMirror (.wrreg 9 0xFF) = true ∧ ∃ t, step (off.withFetchWord 16 0x19FF) = .next t :=
  ⟨by decide +kernel, by decide, by decide, ⟨_, rfl⟩⟩
theorem witness_StepKeepsConfiguration : ∃ t, step (off.withFetchWord 16 0xD001) = .next t := ⟨_, rfl⟩
theorem witness_BringUpEstablishesPremises :
    blank.StoreWf ∧ ∀ x ∈ ([(14, 0x05), (9, 0xFF)] : List (Addr × Byte)), 9 ≤ x.1.toNat :=
  ⟨⟨.nil, fun c hc => by cases hc⟩, by simp⟩
theorem witness_ChannelOperations_ready : 102 < 103 ∧ 0 < 103 ∧ off.ready = true := by decide
theorem witness_ChannelOperations_notReady : 102 < 103 ∧ 0 < 103 ∧ blank.ready = false := by decide

/-- The two ends: up from 101, down from 1. -/
theorem witness_ChannelOperations_neighbours :
    ({ off with curChan := some 101 } : State).ready = true ∧ (101 : Chan).val < 102 ∧ 0 < (1 : Chan).val := by decide
theorem witness_ChannelOperations_neighboursNotReady :
    ({ blank with curChan := some 101 } : State).ready = false ∧ (101 : Chan).val < 102 ∧ 0 < (1 : Chan).val := by decide
theorem witness_ChannelOperations_unset : blank.curChan = none := rfl
theorem witness_WrapperClampsAreNoOps_channel : 103 ≤ 103 := by decide
theorem witness_WrapperClampsAreNoOps_attenuation : 3 ≤ 3 := by decide
theorem witness_WrapperClampsAreNoOps_power : ((0 : Nat) = 0 ∨ 4 ≤ 0) ∧ ((4 : Nat) = 0 ∨ 4 ≤ 4) := by decide
theorem witness_WrapperClampsAreNoOps_low : 874 < 875 ∨ 1081 ≤ 874 := by decide
theorem witness_WrapperClampsAreNoOps_high : 1081 < 875 ∨ 1081 ≤ 1081 := by decide
theorem witness_WrapperClampsAreNoOps_up : ({ off with curChan := some 102 } : State).curChan = some 102 := rfl
theorem witness_WrapperClampsAreNoOps_down : ({ off with curChan := some 0 } : State).curChan = some 0 := rfl

end Sys2Proof.Machine
end

section
/-! What every step keeps, whatever it did (spec/00_scope.md R9, R15): `step_cases` says that it did nothing or executed one command,
and a command is a chain of shared operations (`exec_chain`), each of which appends its events and leaves `cfg` and `CUR_CHAN`. -/

namespace Sys2Proof.Machine

/-- A command appends events (R15). -/
theorem exec_trace_append {i : Instr} {s t : State} (h : exec i s = .next t) : ∃ evs, t.trace = s.trace ++ evs :=
  ⟨t.since s, (exec_events h).1⟩

/-- No command writes the configuration (R9) or the wrapper's `CUR_CHAN` (R261). -/
theorem exec_keeps_configuration {i : Instr} {s t : State} (h : exec i s = .next t) :
    t.cfg = s.cfg ∧ t.curChan = s.curChan := by
  obtain ⟨hcfg, -, hcur, -⟩ := (exec_chain h).constant
  exact ⟨hcfg, hcur⟩

/-- Settles O44: an idle step adds no event, and a command's events are appended to the trace. -/
theorem traceOnlyGrows : Obligations.TraceOnlyGrows := by
  intro s t h
  obtain ⟨-, rfl⟩ | ⟨w, rest, i, u, -, -, -, hexec, rfl⟩ := step_cases h
  · exact ⟨[], (List.append_nil _).symm⟩
  · simpa using exec_trace_append hexec

/-- Settles O52: taking the word and moving `BUSY` leave both fields, and so does the command between. -/
theorem stepKeepsConfiguration : Obligations.StepKeepsConfiguration := by
  intro s t h
  obtain ⟨-, rfl⟩ | ⟨w, rest, i, u, -, -, -, hexec, rfl⟩ := step_cases h
  · exact ⟨rfl, rfl⟩
  · simpa using exec_keeps_configuration hexec

end Sys2Proof.Machine
end

section
/-! SUPPORT. What each shared operation leaves of the state between commands (spec/10_state.md R20), one fact for each component, and
with `Chain.keeps` the same of a whole command: `CLK` and `LATCH` low, no counter and no timer, `TSTATE` and the session state,
`READY`, the mirror and the device. -/

namespace Sys2Proof.Machine

variable {k : Kind} {s t : State}

/-! ## The lines, the vote counter and the settle timer (R30, R32, R126) -/

/-- `CLK = 0` and `LATCH = 0`, the levels between commands (R30, R126). -/
def State.LinesLow (s : State) : Prop := s.pins.clk = false ∧ s.pins.latch = false

theorem State.LinesLow.pins_eq (hs : s.LinesLow) : s.pins = ⟨s.pins.data, false, false⟩ :=
  congrArg₂ (Pins.mk s.pins.data) hs.1 hs.2

/-- The bus reset ends with `DATA` high and `CLK` low and never drives `LATCH` (R125). -/
theorem pinWrites_busReset_pins (s : State) : (pinWrites busReset s).pins = ⟨true, false, s.pins.latch⟩ := by
  rw [pinWrites_eq]
  rfl

theorem Micro.keeps_linesLow (h : Micro k s t) (hs : s.LinesLow) : t.LinesLow := by
  cases h with
  | raw a v => simp [State.LinesLow]
  | set a v => simp [State.LinesLow]
  | bus => exact ⟨by rw [pinWrites_busReset_pins], by rw [pinWrites_busReset_pins]; exact hs.2⟩
  | query => simpa [State.LinesLow] using hs
  | _ => exact hs

/-- Every operation leaves counter and timer without value: a wait and a query discard what they put there (R32). -/
theorem Micro.keeps_counters_empty (h : Micro k s t) (hs : s.cnt = none ∧ s.timer = none) : t.cnt = none ∧ t.timer = none := by
  cases h with
  | raw a v => simpa using hs
  | set a v => simpa using hs
  | bus => simpa [pinWrites_eq] using hs
  | settle d => exact ⟨hs.1, rfl⟩
  | query => simp
  | _ => exact hs

/-! ## What only some kinds of operation write -/

/-- `TSTATE` and the session state are written by the operations of the tuning engine only (R27, R29). -/
theorem Micro.keeps_tuning (h : Micro k s t) (hT : k ≠ .tstate) (hS : k ≠ .session) :
    t.tstate = s.tstate ∧ t.session = s.session := by
  cases h with
  | tstate => exact absurd rfl hT
  | session => exact absurd rfl hS
  | bus => simp [pinWrites_eq]
  | rsp => exact ⟨rfl, rfl⟩
  | _ => simp

/-- `READY` is written by one kind of operation (R26). -/
theorem Micro.keeps_ready (h : Micro k s t) (hk : k ≠ .ready) : t.ready = s.ready := by
  cases h with
  | ready => exact absurd rfl hk
  | bus => simp [pinWrites_eq]
  | rsp => rfl
  | _ => simp

/-- The mirror is written by `Set` only (R22). -/
theorem Micro.keeps_regs (h : Micro k s t) (hk : k ≠ .set) : t.regs = s.regs := by
  cases h with
  | set => exact absurd rfl hk
  | bus => simp [pinWrites_eq]
  | rsp => rfl
  | _ => simp

/-- An operation that drives no pin leaves the pins and the device (R30, R33). -/
theorem Micro.keeps_wire (h : Micro k s t) (hk : ∀ line level, ¬ k.emits (.pin line level)) : t.pins = s.pins ∧ t.dev = s.dev := by
  cases h with
  | raw | set | bus => exact absurd ⟨.data, true, rfl⟩ (hk .data true)
  | query => simp
  | _ => exact ⟨rfl, rfl⟩

/-! ## One mirrored register and the device (R23) -/

/-- The device holds what the mirror says of register `r` (R23, for one register). -/
def State.AgreesAt (r : RegIdx) (s : State) : Prop := s.dev[r.val]'(by omega) = some (s.reg r)

theorem State.mirrorTrue_iff (s : State) : s.MirrorTrue ↔ ∀ r, s.AgreesAt r := Iff.rfl

theorem State.AgreesAt.congr {r : RegIdx} (hs : s.AgreesAt r) (hr : t.regs = s.regs) (hd : t.dev = s.dev) : t.AgreesAt r := by
  unfold State.AgreesAt State.reg at *
  simpa only [hr, hd] using hs

/-- After `Set` the named register agrees, and every other as before (R141). -/
theorem setReg_agreesAt (a : Addr) (v : Byte) {r : RegIdx} (hs : a.toNat ≠ r.val → s.AgreesAt r) : (setReg a v s).AgreesAt r := by
  unfold State.AgreesAt at *
  simp only [setReg_reg_any, setReg_dev, Vector.getElem_set]
  split_ifs with h
  · rfl
  · exact hs h

/-- A bare frame to another address leaves register `r` agreeing (R121). -/
theorem wireWrite_agreesAt (a : Addr) (v : Byte) {r : RegIdx} (ha : a.toNat ≠ r.val) (hs : s.AgreesAt r) :
    (wireWrite a v s).AgreesAt r := by
  unfold State.AgreesAt State.reg at *
  simpa [Vector.getElem_set, ha] using hs

/-- An operation breaks the agreement at `r` only as a bare frame to that address. -/
theorem Micro.keeps_agreesAt {r : RegIdx} (h : Micro k s t) (hk : ∀ a, k = .raw a → a.toNat ≠ r.val) (hs : s.AgreesAt r) :
    t.AgreesAt r := by
  cases h with
  | raw a v => exact wireWrite_agreesAt a v (hk a rfl) hs
  | set a v => exact setReg_agreesAt a v fun _ => hs
  | bus => exact hs.congr (by rw [pinWrites_eq]) (by rw [pinWrites_eq])
  | query => exact hs.congr (hasLock_regs s) (hasLock_dev s)
  | _ => exact hs

/-- An operation that is no bare frame leaves register `r` as it was, or agreeing. -/
theorem Micro.reg_kept_or_agreesAt (h : Micro k s t) (hk : ∀ a, k ≠ .raw a) (r : RegIdx) :
    t.reg r = s.reg r ∨ t.AgreesAt r := by
  cases h with
  | raw a => exact absurd rfl (hk a)
  | set a v =>
    by_cases ha : a.toNat = r.val
    · exact .inr (setReg_agreesAt a v fun hne => absurd ha hne)
    · exact .inl (by rw [setReg_reg_any, if_neg ha])
  | bus => exact .inl (State.reg_congr (by rw [pinWrites_eq]) r)
  | query => exact .inl (State.reg_congr (hasLock_regs s) r)
  | _ => exact .inl rfl

end Sys2Proof.Machine
end

section
/-! `DEV` is what a receiver makes of the pin events (spec/10_state.md R33, spec/40_wire_driver.md R121): `Replays` says it of any two
states one of which the other's events lead to, each shared operation makes it true, and it composes along a command's chain. -/

namespace Sys2Proof.Machine

variable {k : Kind} {s t u : State}

/-- A receiver that starts with the pins and the device of `s`, whatever was clocked in, and gets the events `t` added ends with the
pins and the device of `t`. -/
def Replays (s t : State) : Prop :=
  ∃ evs, t.trace = s.trace ++ evs ∧
    ∀ pending, ∃ shift, Receiver.events evs ⟨s.pins, pending, s.dev⟩ = ⟨t.pins, shift, t.dev⟩

theorem Replays.refl (s : State) : Replays s s := ⟨[], by simp, fun pending => ⟨pending, rfl⟩⟩

theorem Replays.trans (h : Replays s t) (h' : Replays t u) : Replays s u := by
  obtain ⟨xs, hxs, hx⟩ := h
  obtain ⟨ys, hys, hy⟩ := h'
  refine ⟨xs ++ ys, by rw [hys, hxs, List.append_assoc], fun pending => ?_⟩
  obtain ⟨mid, hmid⟩ := hx pending
  rw [Receiver.events_append, hmid]
  exact hy mid

/-- A frame to address `a`: the receiver latches it, as `DEV` does (R90, R91, R121). -/
theorem replays_of_frame (hs : s.LinesLow) {a : Addr} {v : Byte} (htrace : t.trace = s.trace ++ frame a v)
    (hpins : t.pins = ⟨v.getLsbD 7, false, false⟩) (hdev : t.dev = s.dev.set a.toNat (some v)) : Replays s t :=
  ⟨_, htrace, fun pending => ⟨[], by rw [Receiver.events_frame a v _ hs.1 hs.2, hpins, hdev]⟩⟩

/-- The bus reset: the receiver follows the pins and latches nothing (R125). -/
theorem replays_busReset (hs : s.LinesLow) : Replays s (pinWrites busReset s) := by
  refine ⟨_, by rw [pinWrites_eq], fun pending => ?_⟩
  obtain ⟨shift, hshift⟩ := Receiver.events_busReset s.pins.data pending s.dev
  refine ⟨shift, ?_⟩
  rw [pinWrites_busReset_pins, pinWrites_eq, hs.2, ← hshift, ← hs.pins_eq]

/-- An operation that drives no pin: the receiver sees nothing of it. -/
theorem Micro.replays_of_silent (h : Micro k s t) (hk : ∀ line level, ¬ k.emits (.pin line level)) : Replays s t := by
  obtain ⟨evs, htrace, hevs⟩ := h.events
  obtain ⟨hpins, hdev⟩ := h.keeps_wire hk
  have hnone : ∀ line level, Event.pin line level ∉ evs := fun line level hmem => hk line level (hevs _ hmem)
  exact ⟨evs, htrace, fun pending => ⟨pending, by rw [Receiver.events_none evs _ hnone, hpins, hdev]⟩⟩

theorem Micro.replays (h : Micro k s t) (hs : s.LinesLow) : Replays s t := by
  by_cases hk : ∀ line level, ¬ k.emits (.pin line level)
  · exact h.replays_of_silent hk
  · cases h with
    | raw a v => exact replays_of_frame hs (wireWrite_trace a v s) (wireWrite_pins a v s) (wireWrite_dev a v s)
    | set a v => exact replays_of_frame hs (setReg_trace a v s) (setReg_pins a v s) (setReg_dev a v s)
    | bus => exact replays_busReset hs
    | _ => exact absurd (by simp [Kind.emits]) hk

/-- Along a chain that starts with the lines low: they stay low at every operation, so each operation's replay applies. -/
theorem Chain.replays {K : Kind → Prop} (h : Chain K s t) (hs : s.LinesLow) : Replays s t := by
  induction h with
  | nil s => exact .refl s
  | cons hm _ _ ih => exact (hm.replays hs).trans (ih (hm.keeps_linesLow hs))

/-- Settles O47: a command is a chain of operations, and the receiver follows each of them. -/
theorem deviceIsReplayOfPins : Obligations.DeviceIsReplayOfPins := by
  intro i s t pending hclk hlatch h
  obtain ⟨evs, htrace, hreplay⟩ := (exec_chain h).replays ⟨hclk, hlatch⟩
  obtain ⟨shift, hshift⟩ := hreplay pending
  rw [State.since_append htrace, hshift]
  exact ⟨rfl, rfl⟩

end Sys2Proof.Machine
end

section
/-! The idle state between commands (spec/10_state.md R27 to R32, spec/40_wire_driver.md R126): the lines, the counter and the timer
by the chain of operations, `TSTATE` and the session state because TUNE alone moves them and ends by putting them back. -/

namespace Sys2Proof.Machine

variable {s t : State}

theorem Chain.keeps_linesLow {K : Kind → Prop} (h : Chain K s t) (hs : s.LinesLow) : t.LinesLow :=
  h.keeps (P := State.LinesLow) (fun _ _ _ _ hm => hm.keeps_linesLow) hs

theorem Chain.keeps_counters_empty {K : Kind → Prop} (h : Chain K s t) (hs : s.cnt = none ∧ s.timer = none) :
    t.cnt = none ∧ t.timer = none :=
  h.keeps (P := fun u => u.cnt = none ∧ u.timer = none) (fun _ _ _ _ hm => hm.keeps_counters_empty) hs

/-- TUNE leaves the engine `Idle` with no session state: refused it changes nothing, accepted it ends with `tuneDone` (R171, R172). -/
theorem tune_keeps_idle (d : Byte) (hs : s.tstate = .idle ∧ s.session = .empty) :
    (tune d s).tstate = .idle ∧ (tune d s).session = .empty := by
  unfold tune
  split
  · split
    · exact ⟨rfl, rfl⟩
    · exact hs
  · exact hs

/-- Every command leaves the engine `Idle` with no session state (R27, R29). -/
theorem exec_keeps_idle {i : Instr} (h : exec i s = .next t) (hs : s.tstate = .idle ∧ s.session = .empty) :
    t.tstate = .idle ∧ t.session = .empty := by
  by_cases htune : ∃ d, i = .tune d
  · obtain ⟨d, rfl⟩ := htune
    obtain rfl := next_inj (s := tune d s) h
    exact tune_keeps_idle d hs
  · refine (exec_chain h).keeps (P := fun u => u.tstate = .idle ∧ u.session = .empty) (fun k u v hk hm hu => ?_) hs
    have hT : k ≠ .tstate := by rintro rfl; exact htune hk
    have hS : k ≠ .session := by rintro rfl; exact htune hk
    obtain ⟨htstate, hsession⟩ := hm.keeps_tuning hT hS
    rwa [htstate, hsession]

/-- Settles O48: an idle step changes nothing; a command keeps each part, and `BUSY` falls at its end. -/
theorem stepKeepsQuiet : Obligations.StepKeepsQuiet := by
  intro s t hs h
  obtain ⟨-, rfl⟩ | ⟨w, rest, i, u, -, -, -, hexec, rfl⟩ := step_cases h
  · exact hs
  · obtain ⟨-, htstate, hsession, hcnt, htimer, hclk, hlatch⟩ := hs
    obtain ⟨htstate', hsession'⟩ := exec_keeps_idle hexec ⟨htstate, hsession⟩
    obtain ⟨hcnt', htimer'⟩ := (exec_chain hexec).keeps_counters_empty ⟨hcnt, htimer⟩
    obtain ⟨hclk', hlatch'⟩ := (exec_chain hexec).keeps_linesLow ⟨hclk, hlatch⟩
    exact ⟨rfl, htstate', hsession', hcnt', htimer', hclk', hlatch'⟩

end Sys2Proof.Machine
end

section
/-! The mirror and `READY` (spec/10_state.md R22, R23, R26): which commands write them, and what the device then holds. -/

namespace Sys2Proof.Machine

variable {i : Instr} {s t : State}

/-- A command that is no WRREG below address 9 keeps a true mirror (R23). -/
theorem exec_keeps_mirrorTrue (h : exec i s = .next t) (hi : keepsMirror i = true) (hs : s.MirrorTrue) : t.MirrorTrue := by
  rw [State.mirrorTrue_iff] at *
  intro r
  refine (exec_chain h).keeps (P := State.AgreesAt r) (fun k u v hk hm => hm.keeps_agreesAt fun a ha => ?_) (hs r)
  subst ha
  obtain ⟨d, rfl⟩ : ∃ d, i = .wrreg a d := hk
  have hout : ¬ a.toNat < 9 := by simpa [keepsMirror, mirrored] using hi
  have := r.isLt
  omega

/-- Settles O50: taking the word and moving `BUSY` touch neither mirror nor device, and the command between keeps them. -/
theorem stepKeepsMirrorTrue : Obligations.StepKeepsMirrorTrue := by
  intro s t hs hword h
  obtain ⟨-, rfl⟩ | ⟨w, rest, i, u, hcommands, -, hdecode, hexec, rfl⟩ := step_cases h
  · exact hs
  · have hkeeps : keepsMirror i = true := hword w i (by rw [hcommands]; rfl) hdecode
    have hu : u.MirrorTrue := exec_keeps_mirrorTrue hexec hkeeps hs
    exact hu

/-- Settles O41: the only operation that writes `READY` belongs to SETRDY. -/
theorem readyWrittenOnlyBySetrdy : Obligations.ReadyWrittenOnlyBySetrdy := by
  intro i s t h hne
  by_contra hsetrdy
  refine hne ((exec_chain h).keeps (P := fun u => u.ready = s.ready) (fun k u v hk hm hu => ?_) rfl)
  have hkind : k ≠ .ready := by rintro rfl; exact hsetrdy hk
  exact (hm.keeps_ready hkind).trans hu

/-- A command that never uses `Set` leaves the mirror (R22). -/
theorem exec_keeps_regs (h : exec i s = .next t) (hset : ¬ kindsOf i s .set) : t.regs = s.regs := by
  refine (exec_chain h).keeps (P := fun u => u.regs = s.regs) (fun k u v hk hm hu => ?_) rfl
  have hkind : k ≠ .set := by rintro rfl; exact hset hk
  exact (hm.keeps_regs hkind).trans hu

/-- A command that uses `Set` is no WRREG, so it sends no frame that leaves the mirror behind (R22, R122). -/
theorem kindsOf_set_not_raw (hset : kindsOf i s .set) (a : Addr) : ¬ kindsOf i s (.raw a) := by
  rintro ⟨d, rfl⟩
  simp [kindsOf] at hset

/-- Such a command leaves each register as it was, or equal to what the device holds (R22, R23). -/
theorem exec_reg_kept_or_agreesAt (h : exec i s = .next t) (hset : kindsOf i s .set) (r : RegIdx) :
    t.reg r = s.reg r ∨ t.AgreesAt r := by
  refine (exec_chain h).keeps (P := fun u => u.reg r = s.reg r ∨ u.AgreesAt r) (fun k u v hk hm hu => ?_) (.inl rfl)
  have hraw : ∀ a, k ≠ .raw a := by rintro a rfl; exact kindsOf_set_not_raw hset a hk
  obtain hkept | hagrees := hm.reg_kept_or_agreesAt hraw r
  · obtain hsame | hagreed := hu
    · exact .inl (hkept.trans hsame)
    · exact .inr (hm.keeps_agreesAt (fun a ha => absurd ha (hraw a)) hagreed)
  · exact .inr hagrees

/-- Settles O42: the commands that use `Set` are the five, and after one of them a changed register agrees with the device. -/
theorem mirrorChangesOnlyThroughSet : Obligations.MirrorChangesOnlyThroughSet := by
  intro i s t r h hne
  by_cases hset : kindsOf i s .set
  · exact ⟨hset, (exec_reg_kept_or_agreesAt h hset r).resolve_left hne⟩
  · exact absurd (State.reg_congr (exec_keeps_regs h hset) r) hne

end Sys2Proof.Machine
end

section
/-! Reset and `goOnline` (spec/10_state.md R38, R39; spec/46_host_wrappers.md R268), and what a step is (R28, R96). -/

namespace Sys2Proof.Machine

/-- With a word presented, the port free and the word decoded, a step is its command served without the word (R28, R96). -/
theorem step_of_decode {s : State} {w : CmdWord} {rest : List CmdWord} {i : Instr} (hcommands : s.commands = w :: rest)
    (hbusy : s.busy = false) (hdecode : decode w = .ok i) : step s = serve i { s with commands := rest } := by
  simp [step, hcommands, hbusy, hdecode]

/-- Settles O6: `serve` is the execution between the rise and the fall of `BUSY`. -/
theorem stepRunsDecodedCommand : Obligations.StepRunsDecodedCommand := by
  intro s w rest i hcommands hbusy hdecode
  exact (step_of_decode hcommands hbusy hdecode).trans rfl

/-- A device powered on with the CORE agrees with it (R33, R324). -/
theorem powerOn_mirrorTrue (c : Config) : (State.powerOn c).MirrorTrue := by
  intro r
  simp only [State.powerOn, devPowerOn, State.reg]
  rw [Vector.getElem_append_left r.isLt, Vector.getElem_map]

/-- Settles O51: each part is the reset value of its fields; no store cell is listed. -/
theorem resetMeetsInvariants : Obligations.ResetMeetsInvariants :=
  ⟨⟨rfl, rfl, rfl, rfl, rfl, rfl, rfl⟩, ⟨.nil, fun _ hc => absurd hc List.not_mem_nil⟩, powerOn_mirrorTrue Config.machine, rfl⟩

/-- Settles O53: `coreReset` is the power-on state with the fields that are not the CORE's kept. -/
theorem coreResetKeepsDeviceAndStore : Obligations.CoreResetKeepsDeviceAndStore := fun _ =>
  ⟨rfl, rfl, rfl, rfl, rfl, rfl, rfl, rfl, rfl, rfl, rfl, rfl⟩

/-- A reset of the CORE makes a true mirror false where a register does not hold its reset value (R39). -/
theorem coreReset_breaks_mirror {s : State} {r : RegIdx} (hs : s.MirrorTrue) (hr : s.reg r ≠ s.cfg.params.rPor[r.val]) :
    ¬ (coreReset s).MirrorTrue := fun hreset =>
  hr (Option.some.inj ((hs r).symm.trans (hreset r)))

/-- `CFG_TEST` (R10) right after reset and one `SET 0, 0x01`; the reset value of the register is 0x00. -/
def afterOneSet : State := setReg (addrOf 0) 0x01 (.powerOn (.cfgTest Params.blankStore rfl))

theorem afterOneSet_mirrorTrue : afterOneSet.MirrorTrue :=
  (State.mirrorTrue_iff _).mpr fun r => setReg_agreesAt _ _ fun _ => powerOn_mirrorTrue _ r

theorem afterOneSet_mirror_lost : ¬ (coreReset afterOneSet).MirrorTrue := by
  have hreg : afterOneSet.reg 0 = 0x01 := setReg_reg 0 0x01 _ 0
  have hcfg : afterOneSet.cfg = .cfgTest Params.blankStore rfl := setReg_cfg _ _ _
  refine coreReset_breaks_mirror (r := 0) afterOneSet_mirrorTrue ?_
  rw [hreg, hcfg]
  decide

/-- The re-push (R268) gives the device the mirror's nine values, in nine frames. -/
theorem rePush_spec (s : State) :
    ∃ t, rePush s = .next t ∧ t.cfg = s.cfg ∧ t.MirrorTrue ∧ t.regs = s.regs ∧
      t.trace = s.trace ++ (List.finRange 9).flatMap fun i => frame (addrOf i) (s.reg i) := by
  obtain ⟨t, hnext, hcfg, -, -, hregs, hmirror, htrace⟩ := issueAll_pushAll s.regs s
  exact ⟨t, hnext, hcfg, hmirror, hregs, htrace⟩

/-- `goOnline` (R268): its register writes, then the re-push. -/
theorem goOnline_spec (s : State) :
    ∃ t, goOnline s = .next t ∧ t.cfg = s.cfg ∧ t.MirrorTrue ∧
      ∀ r, t.reg r = regAfter s.cfg.params.host.online r (s.reg r) := by
  obtain ⟨u, hwrites, hucfg, -, -, hureg⟩ := issueWrites_spec s.cfg.params.host.online s
  obtain ⟨t, hpush, htcfg, hmirror, hregs, -⟩ := rePush_spec u
  refine ⟨t, by rw [goOnline, hwrites, andThen_next, hpush], htcfg.trans hucfg, hmirror, fun r => ?_⟩
  rw [State.reg_congr hregs, hureg]

/-- A device whose registers hold what the writes of `goOnline` make of them is powered on (R301). -/
theorem poweredOn_of_online {s t : State} (hcfg : t.cfg = s.cfg)
    (hreg : ∀ r, t.reg r = regAfter s.cfg.params.host.online r (s.reg r)) : t.poweredOn = true := by
  rw [State.poweredOn, hcfg, hreg, bne_iff_ne]
  exact (Config.host_power s.cfg _).2

/-- Settles O54: a reset after one SET loses the mirror, the re-push restores it, and `goOnline` ends with the re-push. -/
theorem goOnlineRestoresMirror : Obligations.GoOnlineRestoresMirror := by
  refine ⟨⟨afterOneSet, afterOneSet_mirrorTrue, afterOneSet_mirror_lost⟩, fun s => ?_, fun s => ?_⟩
  · obtain ⟨t, hnext, -, hmirror, hregs, htrace⟩ := rePush_spec s
    exact ⟨t, hnext, hmirror, hregs, htrace⟩
  · obtain ⟨t, hnext, hcfg, hmirror, hreg⟩ := goOnline_spec s
    exact ⟨t, hnext, hmirror, poweredOn_of_online hcfg hreg, hreg⟩

end Sys2Proof.Machine
end

section
/-! The store (spec/20_memory.md R60 to R66, R70, R78): one kind of shared operation writes it, one byte and one `STWR` each time, so
every claim about the store after a command is a fact about that operation carried along the command's chain. -/

namespace Sys2Proof.Machine

variable {k : Kind} {s t u : State} {i : Instr}

/-! ## What an operation does to the store -/

/-- A store write is emitted by one kind of operation, at its own offset (R64). -/
theorem Kind.eq_write_of_emits_stwr {off : Nat} {b : Byte} (h : k.emits (.stwr off b)) : k = .write off := by
  cases k <;> simp_all [Kind.emits]

/-- The store is written by one kind of operation (R64). -/
theorem Micro.keeps_store (h : Micro k s t) (hk : ∀ off, k ≠ .write off) : t.store = s.store := by
  cases h with
  | write off => exact absurd rfl (hk off)
  | bus => rw [pinWrites_eq]
  | rsp => rfl
  | _ => simp

/-- An operation changes at most the byte it writes, whatever form the store is in (R64). -/
theorem Micro.keeps_storeByte {off : Nat} (h : Micro k s t) (hk : k ≠ .write off) : t.storeByte off = s.storeByte off := by
  by_cases hwrites : ∃ off', k = .write off'
  · obtain ⟨off', rfl⟩ := hwrites
    cases h with
    | write off' b => exact Memory.read_write_other fun heq => hk (by rw [heq])
  · exact State.storeByte_congr h.constant.1 (h.keeps_store fun off' hoff' => hwrites ⟨off', hoff'⟩) off

/-- Every operation keeps the canonical form: the one that writes stays inside the store (R60, R70). -/
theorem Micro.keeps_storeWf (h : Micro k s t) (hs : s.StoreWf) : t.StoreWf := by
  by_cases hwrites : ∃ off, k = .write off
  · obtain ⟨off, rfl⟩ := hwrites
    cases h with
    | write off b s hin => exact Memory.wf_write hs hin
  · unfold State.StoreWf
    rwa [h.constant.1, h.keeps_store fun off hoff => hwrites ⟨off, hoff⟩]

/-! ## The store is what the `STWR` events make of it (R64, R78) -/

/-- The events `t` added to the trace of `s`, replayed into the store of `s`, give the store of `t`. -/
def StoreReplays (s t : State) : Prop :=
  ∃ evs, t.trace = s.trace ++ evs ∧ t.store = replayStore s.cfg.params.powerUpByte evs s.store

theorem StoreReplays.refl (s : State) : StoreReplays s s := ⟨[], (List.append_nil _).symm, rfl⟩

theorem StoreReplays.trans (hcfg : t.cfg = s.cfg) (h : StoreReplays s t) (h' : StoreReplays t u) : StoreReplays s u := by
  obtain ⟨xs, hxs, hx⟩ := h
  obtain ⟨ys, hys, hy⟩ := h'
  exact ⟨xs ++ ys, by rw [hys, hxs, List.append_assoc], by rw [replayStore_append, ← hx, ← hcfg, ← hy]⟩

theorem Micro.storeReplays (h : Micro k s t) : StoreReplays s t := by
  by_cases hk : ∃ off, k = .write off
  · obtain ⟨off, rfl⟩ := hk
    cases h with
    | write off b => exact ⟨[.stwr off b], rfl, rfl⟩
  · obtain ⟨evs, htrace, hevs⟩ := h.events
    have hnone : ∀ off b, Event.stwr off b ∉ evs := fun off b hmem => hk ⟨off, Kind.eq_write_of_emits_stwr (hevs _ hmem)⟩
    refine ⟨evs, htrace, ?_⟩
    rw [replayStore_none _ _ _ hnone]
    exact h.keeps_store fun off hoff => hk ⟨off, hoff⟩

theorem Chain.storeReplays {K : Kind → Prop} (h : Chain K s t) : StoreReplays s t := by
  induction h with
  | nil s => exact .refl s
  | cons hm _ _ ih => exact hm.storeReplays.trans hm.constant.1 ih

/-- Settles O46: a command is a chain of operations, and the store follows the events of each of them. -/
theorem storeIsReplayOfTrace : Obligations.StoreIsReplayOfTrace := by
  intro i s t h
  obtain ⟨evs, htrace, hstore⟩ := (exec_chain h).storeReplays
  rw [State.since_append htrace]
  exact hstore

/-! ## The canonical form and the frame -/

/-- Settles O49: an idle step changes nothing; a command's operations each keep the form, and the word and `BUSY` are no part of it. -/
theorem stepKeepsStoreCanonical : Obligations.StepKeepsStoreCanonical := by
  intro s t hs h
  obtain ⟨-, rfl⟩ | ⟨w, rest, i, u, -, -, -, hexec, rfl⟩ := step_cases h
  · exact hs
  · exact (exec_chain hexec).keeps (P := State.StoreWf) (fun _ _ _ _ hm => hm.keeps_storeWf) hs

/-- A command leaves every byte it does not write (R62). -/
theorem exec_keeps_storeByte {off : Nat} (h : exec i s = .next t) (hoff : ¬ kindsOf i s (.write off)) :
    t.storeByte off = s.storeByte off := by
  refine (exec_chain h).keeps (P := fun u => u.storeByte off = s.storeByte off) (fun k u v hk hm hu => ?_) rfl
  have hkind : k ≠ .write off := by rintro rfl; exact hoff hk
  exact (hm.keeps_storeByte hkind).trans hu

/-- What a command writes is the marker or inside the table (R62, R63). -/
theorem kindsOf_write_inside {off : Nat} (h : kindsOf i s (.write off)) :
    off = s.cfg.params.markerOff ∨ (s.cfg.params.calBase ≤ off ∧ off ≤ s.cfg.params.calBase + 25) := by
  obtain ⟨-, c, -, -, rfl⟩ | ⟨-, -, c, -, -, rfl⟩ | ⟨-, hmarker | ⟨j, hj, rfl⟩⟩ := h
  · exact .inr (Config.calOff_table s.cfg c)
  · exact .inr (Config.calOff_table s.cfg c)
  · exact .inl hmarker
  · exact .inr ⟨by omega, by omega⟩

/-- Settles O43: the bytes a command writes are those of `kindsOf`, and none of the four clauses speaks of one of them. -/
theorem storeFrame : Obligations.StoreFrame := by
  intro i s t h off
  refine ⟨fun hmarker htable => ?_, ?_, ?_, fun hcalwr htune hstinit => ?_⟩
  · refine exec_keeps_storeByte h fun hwrite => ?_
    obtain heq | ⟨hlow, hhigh⟩ := kindsOf_write_inside hwrite
    · exact hmarker heq
    · omega
  · rintro v d c rfl hc hoff
    refine exec_keeps_storeByte h fun hwrite => hoff ?_
    simpa [kindsOf, hc] using hwrite
  · rintro d c rfl hc hoff
    refine exec_keeps_storeByte h fun hwrite => hoff ?_
    simpa [kindsOf, hc] using hwrite
  · refine exec_keeps_storeByte h fun hwrite => ?_
    obtain ⟨d, c, hi, -⟩ | ⟨v, d, c, hi, -⟩ | ⟨hi, -⟩ := hwrite
    · exact htune d hi
    · exact hcalwr v d hi
    · exact hstinit hi

end Sys2Proof.Machine
end

section
/-! One `STWR` at most in a TUNE, and what that makes of a power loss inside it (spec/20_memory.md R78,
spec/70_reset_and_hazards.md R336). -/

namespace Sys2Proof.Machine

variable {s t u : State} {m n : Nat}

/-! ## Counting the store writes of a TUNE -/

/-- `t` added events to the trace of `s`, at most `n` of them store writes. -/
def AddsWrites (n : Nat) (s t : State) : Prop := ∃ evs, t.trace = s.trace ++ evs ∧ storeWrites evs ≤ n

theorem AddsWrites.refl (s : State) : AddsWrites 0 s s := ⟨[], (List.append_nil _).symm, le_refl 0⟩

theorem AddsWrites.trans (h : AddsWrites m s t) (h' : AddsWrites n t u) : AddsWrites (m + n) s u := by
  obtain ⟨xs, hxs, hx⟩ := h
  obtain ⟨ys, hys, hy⟩ := h'
  exact ⟨xs ++ ys, by rw [hys, hxs, List.append_assoc], by rw [storeWrites_append]; exact Nat.add_le_add hx hy⟩

theorem AddsWrites.mono (h : AddsWrites m s t) (hmn : m ≤ n) : AddsWrites n s t := by
  obtain ⟨evs, htrace, hevs⟩ := h
  exact ⟨evs, htrace, hevs.trans hmn⟩

/-- A chain of operations that write no store adds no store write. -/
theorem Chain.addsWrites_zero {K : Kind → Prop} (h : Chain K s t) (hK : ∀ off, ¬ K (.write off)) : AddsWrites 0 s t := by
  obtain ⟨evs, htrace, hevs⟩ := h.events
  refine ⟨evs, htrace, (storeWrites_none _ fun off b hmem => ?_).le⟩
  obtain ⟨k, hk, hemits⟩ := hevs _ hmem
  obtain rfl := Kind.eq_write_of_emits_stwr hemits
  exact hK off hk

/-- Steps 2 to 5 of a TUNE store nothing (R172). -/
theorem beforeCheck_addsWrites (c : Chan) (s : State) : AddsWrites 0 s (beforeCheck c s) := by
  refine ⟨_, by rw [beforeCheck_trace]; simp only [List.append_assoc]; rfl, ?_⟩
  refine (storeWrites_none _ fun off b hmem => ?_).le
  simp only [List.mem_append, List.mem_singleton] at hmem
  obtain hread | hcp | hflo | hfhi | hcal := hmem
  · cases hread
  · simpa using frame_pins _ _ _ hcp
  · simpa using frame_pins _ _ _ hflo
  · simpa using frame_pins _ _ _ hfhi
  · simpa using applyEvents_kinds _ _ _ hcal

/-- A lock query stores nothing (R162). -/
theorem lockQuery_addsWrites (s : State) : AddsWrites 0 s (lockQuery s) :=
  (lockQuery_chain (K := fun k => k = .query ∨ k = .session) s (.inl rfl) (.inr rfl)).addsWrites_zero (by simp)

/-- A trial stores nothing (R203). -/
theorem trial_addsWrites (v : Cal) (s : State) : AddsWrites 0 s (trial v s) := by
  obtain ⟨evs, htrace, -, hwrites⟩ := trial_events v s
  exact ⟨evs, htrace, hwrites.le⟩

/-- A commit stores one byte (R66, R203). -/
theorem commit_addsWrites (c : Chan) (v : Cal) (s : State) : AddsWrites 1 s (commit c v s) :=
  ⟨_, commit_trace c v s, le_refl 1⟩

/-- A search stores nothing until its first success, and then one byte and ends (R203, R206). -/
theorem calSearch_addsWrites (c : Chan) (vs : List Cal) (s : State) : AddsWrites 1 s (calSearch c vs s) := by
  induction vs generalizing s with
  | nil => exact (AddsWrites.refl s).mono (Nat.zero_le 1)
  | cons v vs ih =>
    unfold calSearch
    split
    · exact (trial_addsWrites v s).trans (commit_addsWrites c v _)
    · exact (trial_addsWrites v s).trans (ih _)

/-- Step 6 stores at most the one byte of its search (R174 to R176). -/
theorem tuneCheck_addsWrites (c : Chan) (s : State) : AddsWrites 1 s (tuneCheck c s) := by
  have hvote : AddsWrites 0 s (tuneVote (s.putTState .lockCheck)) := lockQuery_addsWrites (s.putTState .lockCheck)
  unfold tuneCheck tuneSearch
  split_ifs
  · exact hvote.mono (Nat.zero_le 1)
  · exact hvote.trans (calSearch_addsWrites c _ _)
  · exact (AddsWrites.refl s).mono (Nat.zero_le 1)

/-- Step 7 stores nothing (R172). -/
theorem tuneFinish_addsWrites (s : State) : AddsWrites 0 s (tuneDone (tuneLower s)) := by
  refine ⟨_, tuneFinish_trace s, (storeWrites_none _ fun off b hmem => ?_).le⟩
  simpa using frame_pins _ _ _ hmem

/-- A TUNE stores at most one byte (R178). -/
theorem tune_addsWrites (d : Byte) (s : State) : AddsWrites 1 s (tune d s) := by
  have hnothing : AddsWrites 1 s s := (AddsWrites.refl s).mono (Nat.zero_le 1)
  unfold tune
  split
  · split
    · exact ((beforeCheck_addsWrites _ s).trans (tuneCheck_addsWrites _ _)).trans (tuneFinish_addsWrites _)
    · exact hnothing
  · exact hnothing

/-! ## A cut-off TUNE -/

/-- Events without a store write leave the store. -/
theorem replayStore_of_storeWrites_zero (dflt : Nat → Byte) (evs : List Event) (mem : Memory) (h : storeWrites evs = 0) :
    replayStore dflt evs mem = mem := by
  induction evs with
  | nil => rfl
  | cons e evs ih =>
    cases e with
    | stwr off b => exact absurd h (Nat.succ_ne_zero _)
    | _ => exact ih h

/-- Of a list with at most one store write, the first events replayed give the old store or what the whole list gives: the write is
not among them, or nothing is left to write. -/
theorem replayStore_take (dflt : Nat → Byte) (evs : List Event) (n : Nat) (mem : Memory) (h : storeWrites evs ≤ 1) :
    replayStore dflt (evs.take n) mem = mem ∨ replayStore dflt (evs.take n) mem = replayStore dflt evs mem := by
  rw [← List.take_append_drop n evs, storeWrites_append] at h
  obtain htake | hdrop : storeWrites (evs.take n) = 0 ∨ storeWrites (evs.drop n) = 0 := by omega
  · exact .inl (replayStore_of_storeWrites_zero _ _ _ htake)
  · right
    conv_rhs => rw [← List.take_append_drop n evs, replayStore_append, replayStore_of_storeWrites_zero _ _ _ hdrop]

/-- What a power loss leaves of the store: the old one with the first `n` events of the command replayed (R336). -/
theorem powerLoss_store {i : Instr} (deviceToo : Bool) (n : Nat) (h : exec i s = .next u) :
    ∃ t, powerLoss deviceToo i n s = .next t ∧
      t.store = replayStore s.cfg.params.powerUpByte ((u.since s).take n) s.store := by
  refine ⟨_, by simp only [powerLoss, h]; rfl, ?_⟩
  cases deviceToo <;> rfl

/-- Settles O59: a TUNE has at most one store write, and a replay of part of its events has it or has not. -/
theorem powerLossDuringTuneIsAtomic : Obligations.PowerLossDuringTuneIsAtomic := by
  intro deviceToo d n s
  have hexec : exec (.tune d) s = .next (tune d s) := rfl
  obtain ⟨t, hloss, hstore⟩ := powerLoss_store deviceToo n hexec
  obtain ⟨evs, htrace, hwrites⟩ := tune_addsWrites d s
  have hwhole := storeIsReplayOfTrace _ _ _ hexec
  rw [State.since_append htrace] at hstore hwhole
  refine ⟨t, tune d s, hloss, hexec, ?_⟩
  rw [hstore, hwhole]
  exact replayStore_take _ evs n s.store hwrites

end Sys2Proof.Machine
end

section
/-! `CalRead` in the words of the spec (spec/20_memory.md R63, R65). -/

namespace Sys2Proof.Machine

/-- The packed field of a channel: two bits from `2 * (c % 4)` on (R63, R65). -/
theorem calField_eq (c : Chan) (b : Byte) : calField c b = (b >>> (2 * (c.val % 4))).setWidth 2 := by
  rw [calField, calShift_eq, BitVec.setWidth_eq_extractLsb' (by decide)]

/-- Settles O34: `calRead_eq`, with `CalOff` and `CalShift` as R63 gives them. -/
theorem calReadTakesOneTransaction : Obligations.CalReadTakesOneTransaction := by
  intro c s off
  rw [calRead_eq, State.storedCal, calField_eq, calOff_eq]

end Sys2Proof.Machine
end

section
/-! The whole next state of an accepted TUNE (spec/43_tuning_engine.md R172 to R178, spec/44_calibration.md R203 to R206): `Checked`
says what steps 2 to 6 leave, step 7 writes the charge-pump register once more. First the device (R33), then the mirror, then the
events. -/

namespace Sys2Proof.Machine

variable {c : Chan} {s t u : State} {r : RegIdx}

/-- The four registers a TUNE writes are four (R9). -/
theorem Config.tuned_roles_distinct (cfg : Config) :
    cfg.params.regCp ≠ cfg.params.regFlo ∧ cfg.params.regCp ≠ cfg.params.regFhi ∧ cfg.params.regCp ≠ cfg.params.regCal ∧
    cfg.params.regFlo ≠ cfg.params.regFhi ∧ cfg.params.regFlo ≠ cfg.params.regCal ∧ cfg.params.regFhi ≠ cfg.params.regCal := by
  have hn := Config.roles_nodup cfg
  simp only [List.nodup_cons, List.mem_cons, List.not_mem_nil, or_false, not_or] at hn
  tauto

/-! ## The device after steps 2 to 5 -/

theorem applyCal_agreesAt (v : Cal) (hs : s.AgreesAt r) : (applyCal v s).AgreesAt r := by
  have hchain := applyCal_chain (K := fun k => k = .set ∨ k = .settle) v s (.inl rfl) (.inr rfl)
  exact hchain.keeps (P := State.AgreesAt r) (fun k _ _ hk hm => hm.keeps_agreesAt (by rintro a rfl; simp at hk)) hs

/-- `ApplyCal` of a value that is not active sends the calibration register (R201). -/
theorem applyCal_agreesAt_cal {v : Cal} (h : s.activeCal ≠ v) : (applyCal v s).AgreesAt s.cfg.params.regCal := by
  rw [State.AgreesAt, applyCal_dev_cal, if_neg h]

theorem tuneProgram_cfg (c : Chan) (s : State) : (tuneProgram c (tuneRaise (tuneLookUp c s))).cfg = s.cfg := by
  simp [tuneProgram, tuneRaise, setChargePump, tuneLookUp, calRead]

theorem beforeCheck_regs_eq (c : Chan) (s : State) :
    (beforeCheck c s).regs = (applyCal (s.storedCal c) (tuneProgram c (tuneRaise (tuneLookUp c s)))).regs := by
  simp [beforeCheck, tuneApply, calRead_eq]

theorem beforeCheck_dev_eq (c : Chan) (s : State) :
    (beforeCheck c s).dev = (applyCal (s.storedCal c) (tuneProgram c (tuneRaise (tuneLookUp c s)))).dev := by
  simp [beforeCheck, tuneApply, calRead_eq]

/-- The charge-pump register agrees once its setting has been sent (R172 steps 3 and 7). -/
theorem setChargePump_agreesAt (setting : Byte) (hs : r ≠ s.cfg.params.regCp → s.AgreesAt r) :
    (setChargePump setting s).AgreesAt r :=
  setReg_agreesAt _ _ fun hne => hs (by rintro rfl; exact hne (addrOf_toNat _))

/-- The divider registers agree once the divider has been sent (R172 step 4). -/
theorem tuneProgram_agreesAt (hs : r ≠ s.cfg.params.regFlo → r ≠ s.cfg.params.regFhi → s.AgreesAt r) :
    (tuneProgram c s).AgreesAt r := by
  have hlow : r ≠ s.cfg.params.regFhi →
      (setReg (addrOf s.cfg.params.regFlo) (divLow s.cfg.params.chanDiv[c.val]) s).AgreesAt r := fun hfhi =>
    setReg_agreesAt _ _ fun hne => hs (by rintro rfl; exact hne (addrOf_toNat _)) hfhi
  refine setReg_agreesAt _ _ fun hne => hlow ?_
  rintro rfl
  exact hne (by rw [addrOf_toNat, setReg_cfg])

/-- Charge pump and divider have been sent (R172 steps 3 and 4). -/
theorem beforeCheck_agreesAt (hr : r = s.cfg.params.regCp ∨ r = s.cfg.params.regFlo ∨ r = s.cfg.params.regFhi) :
    (beforeCheck c s).AgreesAt r := by
  have hlook : (tuneLookUp c s).cfg = s.cfg := by simp [tuneLookUp, calRead]
  have hraise (hcp : r = s.cfg.params.regCp) : (tuneRaise (tuneLookUp c s)).AgreesAt r :=
    (setChargePump_agreesAt (tuneLookUp c s).cfg.params.cpFast fun hne => absurd (by rw [hcp, hlook]) hne).congr
      (by simp [tuneRaise]) (by simp [tuneRaise])
  have hcfg : (tuneRaise (tuneLookUp c s)).cfg = s.cfg := by simp [tuneRaise, setChargePump, tuneLookUp, calRead]
  have hprogram : (tuneProgram c (tuneRaise (tuneLookUp c s))).AgreesAt r :=
    tuneProgram_agreesAt fun hflo hfhi => hraise (by rw [hcfg] at hflo hfhi; tauto)
  exact (applyCal_agreesAt (s.storedCal c) hprogram).congr (beforeCheck_regs_eq c s) (beforeCheck_dev_eq c s)

/-- The calibration register has been sent where the stored value was not active (R172 step 5, R201). -/
theorem beforeCheck_agreesAt_cal (h : s.activeCal ≠ s.storedCal c) : (beforeCheck c s).AgreesAt s.cfg.params.regCal := by
  rw [← tuneProgram_activeCal s c] at h
  rw [← tuneProgram_cfg c s]
  exact (applyCal_agreesAt_cal h).congr (beforeCheck_regs_eq c s) (beforeCheck_dev_eq c s)

/-- Nothing else has been sent (R172). -/
theorem beforeCheck_dev (a : Fin 16) (hcp : a.val ≠ s.cfg.params.regCp.val) (hflo : a.val ≠ s.cfg.params.regFlo.val)
    (hfhi : a.val ≠ s.cfg.params.regFhi.val) (hcal : a.val ≠ s.cfg.params.regCal.val ∨ s.activeCal = s.storedCal c) :
    (beforeCheck c s).dev[a.val] = s.dev[a.val] := by
  have hprogram : (tuneProgram c (tuneRaise (tuneLookUp c s))).dev[a.val] = s.dev[a.val] := by
    simp [tuneProgram, tuneRaise, setChargePump, tuneLookUp, calRead, addrOf_toNat, hcp.symm, hflo.symm,
      hfhi.symm]
  have happly : (beforeCheck c s).dev[a.val] =
      (applyCal (s.storedCal c) (tuneProgram c (tuneRaise (tuneLookUp c s)))).dev[a.val] := by
    simp only [beforeCheck_dev_eq]
  rw [happly]
  obtain hcal | hactive := hcal
  · rw [applyCal_dev _ _ a (by rwa [tuneProgram_cfg]), hprogram]
  · rw [applyCal_active ((tuneProgram_activeCal s c).trans hactive), hprogram]

/-! ## Step 6 in one theorem -/

/-- Whether a TUNE searches: powered on and the first query lost (R172, R174). -/
def State.searches (s : State) : Bool := s.poweredOn && !s.vote 0

/-- What its search commits (R203). -/
def State.committed (s : State) : Option Cal := if s.searches then s.winner 1 else none

/-- How many trials it makes (R203). -/
def State.trialCount (s : State) : Nat := if s.searches then trialsOf s.committed else 0

/-- How many lock queries it makes (R172, R203). -/
def State.queryCount (s : State) : Nat := if s.poweredOn then s.trialCount + 1 else 0

/-- Step 6 in every case (R174 to R176). -/
theorem tuneCheck_checked (c : Chan) (hw : s.StoreWf) :
    Checked c s.searches s.committed s.trialCount s.queryCount s (tuneCheck c (beforeCheck c s)) := by
  cases hp : s.poweredOn with
  | false => simpa [State.searches, State.committed, State.trialCount, State.queryCount, hp] using tuneCheck_checked_off c hp
  | true =>
    cases hv : s.vote 0 with
    | true =>
      simpa [State.searches, State.committed, State.trialCount, State.queryCount, hp, hv] using tuneCheck_checked_good c hp hv
    | false =>
      simpa [State.searches, State.committed, State.trialCount, State.queryCount, hp, hv] using tuneCheck_checked_search c hw hp hv

/-! ## Step 7 -/

section
variable (u : State)
@[simp] theorem tuneFinish_cfg : (tuneDone (tuneLower u)).cfg = u.cfg := by simp [tuneDone, tuneLower, setChargePump]
@[simp] theorem tuneFinish_ready : (tuneDone (tuneLower u)).ready = u.ready := by simp [tuneDone, tuneLower, setChargePump]
@[simp] theorem tuneFinish_busy : (tuneDone (tuneLower u)).busy = u.busy := by simp [tuneDone, tuneLower, setChargePump]
@[simp] theorem tuneFinish_cnt : (tuneDone (tuneLower u)).cnt = u.cnt := by simp [tuneDone, tuneLower, setChargePump]
@[simp] theorem tuneFinish_timer : (tuneDone (tuneLower u)).timer = u.timer := by simp [tuneDone, tuneLower, setChargePump]
@[simp] theorem tuneFinish_store : (tuneDone (tuneLower u)).store = u.store := by simp [tuneDone, tuneLower, setChargePump]
@[simp] theorem tuneFinish_curChan : (tuneDone (tuneLower u)).curChan = u.curChan := by simp [tuneDone, tuneLower, setChargePump]
@[simp] theorem tuneFinish_commands : (tuneDone (tuneLower u)).commands = u.commands := by simp [tuneDone, tuneLower, setChargePump]
@[simp] theorem tuneFinish_lockLine : (tuneDone (tuneLower u)).lockLine = u.lockLine := by simp [tuneDone, tuneLower, setChargePump]
@[simp] theorem tuneFinish_drawn : (tuneDone (tuneLower u)).drawn = u.drawn := by simp [tuneDone, tuneLower, setChargePump]
end

theorem tuneFinish_reg (u : State) (i : RegIdx) :
    (tuneDone (tuneLower u)).reg i =
      if i = u.cfg.params.regCp then withChargePump u.cfg.params u.cfg.params.cpIdle (u.reg i) else u.reg i :=
  tuneLower_reg u i

theorem tuneFinish_agreesAt (hu : r ≠ u.cfg.params.regCp → u.AgreesAt r) : (tuneDone (tuneLower u)).AgreesAt r :=
  (setChargePump_agreesAt u.cfg.params.cpIdle hu).congr (by simp [tuneDone, tuneLower]) (by simp [tuneDone, tuneLower])

theorem tuneFinish_dev (a : Fin 16) (ha : a.val ≠ u.cfg.params.regCp.val) :
    (tuneDone (tuneLower u)).dev[a.val] = u.dev[a.val] := by
  simp [tuneDone, tuneLower, setChargePump, addrOf_toNat, ha.symm]

theorem tuneFinish_pins (u : State) :
    (tuneDone (tuneLower u)).pins = ⟨((tuneDone (tuneLower u)).reg u.cfg.params.regCp).getLsbD 7, false, false⟩ := by
  rw [tuneFinish_reg, if_pos rfl]
  simp [tuneDone, tuneLower, setChargePump]

section
variable {searched : Bool} {won : Option Cal} {trials queries : Nat} (H : Checked c searched won trials queries s u)
include H

/-- A register step 6 leaves alone agrees with the device as before. -/
theorem Checked.agreesAt (hr : r ≠ s.cfg.params.regCal) (h : (beforeCheck c s).AgreesAt r) : u.AgreesAt r := by
  have hdev := H.dev ⟨r.val, by omega⟩ (by simpa [Fin.val_inj] using hr)
  unfold State.AgreesAt at *
  rw [H.reg, if_neg (by simp [hr])]
  exact hdev.trans h

/-- The mirror after a TUNE (R172, R205, R206). -/
theorem Checked.reg_finish (i : RegIdx) :
    (tuneDone (tuneLower u)).reg i =
      if i = s.cfg.params.regCp then withChargePump s.cfg.params s.cfg.params.cpIdle (s.reg i)
      else if i = s.cfg.params.regFlo then divLow s.cfg.params.chanDiv[c.val]
      else if i = s.cfg.params.regFhi then divHigh s.cfg.params.chanDiv[c.val]
      else if i = s.cfg.params.regCal then withCalField (if searched then won.getD 0 else s.storedCal c) (s.reg i)
      else s.reg i := by
  obtain ⟨hcf, hch, hcc, hfh, hfc, hhc⟩ := Config.tuned_roles_distinct s.cfg
  rw [tuneFinish_reg, H.cfg, H.reg, beforeCheck_reg]
  by_cases hcp : i = s.cfg.params.regCp
  · subst hcp
    simp [hcf, hch, hcc, withChargePump_twice _ _ _ _ (Config.cpFast_mask s.cfg)]
  by_cases hflo : i = s.cfg.params.regFlo
  · subst hflo
    simp [hcp, hfh, hfc]
  by_cases hfhi : i = s.cfg.params.regFhi
  · subst hfhi
    simp [hcp, hflo, hhc]
  by_cases hcal : i = s.cfg.params.regCal
  · subst hcal
    cases searched <;> simp [hcp, hflo, hfhi, withCalField_twice]
  · simp [hcp, hflo, hfhi, hcal]

/-- What a TUNE leaves beside mirror, device, store and trace: the lines low, the engine idle, the samples taken, counter and timer
without value where it used them (R172, R178). -/
theorem Checked.state_finish :
    tuneDone (tuneLower u) =
      { s with
        regs := (tuneDone (tuneLower u)).regs
        dev := (tuneDone (tuneLower u)).dev
        store := (tuneDone (tuneLower u)).store
        tstate := .idle
        session := .empty
        pins := ⟨((tuneDone (tuneLower u)).reg s.cfg.params.regCp).getLsbD 7, false, false⟩
        cnt := if s.poweredOn then none else s.cnt
        timer := if s.poweredOn || !decide (s.activeCal = s.storedCal c) then none else s.timer
        lockLine := s.lockLine.drop (50 * queries)
        drawn := s.drawn + 50 * queries
        trace := (tuneDone (tuneLower u)).trace } := by
  have hpins := tuneFinish_pins u
  rw [H.cfg] at hpins
  have htimer : u.timer = if s.poweredOn || !decide (s.activeCal = s.storedCal c) then none else s.timer := by
    rw [H.timer, beforeCheck_timer]
    cases s.poweredOn <;> by_cases hactive : s.activeCal = s.storedCal c <;> simp [hactive]
  exact (State.mk.injEq ..).mpr ⟨(tuneFinish_cfg u).trans H.cfg, rfl, (tuneFinish_ready u).trans H.ready, rfl,
    (tuneFinish_busy u).trans H.busy, rfl, hpins, (tuneFinish_cnt u).trans H.cnt, (tuneFinish_timer u).trans htimer, rfl, rfl,
    (tuneFinish_curChan u).trans H.curChan, (tuneFinish_commands u).trans H.commands, (tuneFinish_lockLine u).trans H.lockLine,
    (tuneFinish_drawn u).trans H.drawn, rfl⟩

/-- The device's calibration register after a TUNE: what it was where neither step 5 nor a trial sent a frame (R201, R208). -/
theorem Checked.devCal_finish :
    (tuneDone (tuneLower u)).dev[s.cfg.params.regCal.val]'(by omega) =
      if s.activeCal = s.storedCal c ∧ (searched = false ∨ (s.storedCal c = 3 ∧ won = some 3))
      then s.dev[s.cfg.params.regCal.val]'(by omega) else some ((tuneDone (tuneLower u)).reg s.cfg.params.regCal) := by
  obtain ⟨-, -, hcc, -, hfc, hhc⟩ := Config.tuned_roles_distinct s.cfg
  have hreg : (tuneDone (tuneLower u)).reg s.cfg.params.regCal = u.reg s.cfg.params.regCal := by
    rw [tuneFinish_reg, H.cfg, if_neg hcc.symm]
  have hdev := tuneFinish_dev (u := u) ⟨s.cfg.params.regCal.val, by omega⟩ (by simpa [H.cfg, Fin.val_inj] using hcc.symm)
  rw [hdev, hreg, H.devCal]
  by_cases hsilent : searched = false ∨ (s.storedCal c = 3 ∧ won = some 3)
  · have hkept : u.reg s.cfg.params.regCal = (beforeCheck c s).reg s.cfg.params.regCal := by
      rw [H.reg, beforeCheck_reg, if_pos rfl]
      obtain rfl | ⟨hthree, rfl⟩ := hsilent
      · simp
      · simp [hthree, withCalField_twice]
    rw [if_pos hsilent, hkept]
    by_cases hactive : s.activeCal = s.storedCal c
    · rw [if_pos ⟨hactive, hsilent⟩]
      exact beforeCheck_dev ⟨s.cfg.params.regCal.val, by omega⟩ (by simpa [Fin.val_inj] using hcc.symm)
        (by simpa [Fin.val_inj] using hfc.symm) (by simpa [Fin.val_inj] using hhc.symm) (.inr hactive)
    · rw [if_neg fun h => hactive h.1]
      exact beforeCheck_agreesAt_cal hactive
  · rw [if_neg hsilent, if_neg fun h => hsilent h.2]

/-- The events of a TUNE (R172, R203). -/
theorem Checked.trace_finish :
    (tuneDone (tuneLower u)).trace =
      s.trace ++ [.strd (calOff s.cfg.params c) (s.storeByte (calOff s.cfg.params c))] ++
      frame (addrOf s.cfg.params.regCp) (withChargePump s.cfg.params s.cfg.params.cpFast (s.reg s.cfg.params.regCp)) ++
      frame (addrOf s.cfg.params.regFlo) (divLow s.cfg.params.chanDiv[c.val]) ++
      frame (addrOf s.cfg.params.regFhi) (divHigh s.cfg.params.chanDiv[c.val]) ++ applyEvents (s.storedCal c) s ++
      (if s.poweredOn then voteEvents (s.querySamples 0) else []) ++
      sweepEvents s (withCalField (s.storedCal c) (s.reg s.cfg.params.regCal)) trials ++
      (if won.isSome then
        [.strd (calOff s.cfg.params c) (s.storeByte (calOff s.cfg.params c)),
          .stwr (calOff s.cfg.params c) (u.storeByte (calOff s.cfg.params c))]
       else []) ++
      frame (addrOf s.cfg.params.regCp) (withChargePump s.cfg.params s.cfg.params.cpIdle (s.reg s.cfg.params.regCp)) := by
  obtain ⟨hcf, hch, hcc, -, -, -⟩ := Config.tuned_roles_distinct s.cfg
  have hcp : u.reg s.cfg.params.regCp =
      withChargePump s.cfg.params s.cfg.params.cpFast (s.reg s.cfg.params.regCp) := by
    rw [H.reg, beforeCheck_reg]
    simp [hcf, hch, hcc]
  rw [tuneFinish_trace, H.cfg, hcp, withChargePump_twice _ _ _ _ (Config.cpFast_mask s.cfg), H.trace, beforeCheck_trace,
    beforeCheck_reg, if_pos rfl]

end

/-! ## The outcome in the words of the spec -/

/-- The packed byte with one field replaced, the shift as R63 gives it (R66). -/
theorem calInsert_eq (c : Chan) (v : Cal) (b : Byte) :
    calInsert c v b = (b &&& ~~~((3 : Byte) <<< (2 * (c.val % 4)))) ||| (v.setWidth 8 <<< (2 * (c.val % 4))) := by
  rw [calInsert, calShift_eq]

/-- The trials after step 5 has put `v` in the calibration field: what each finds there (R203). -/
theorem sweepEvents_withCalField (s : State) (v : Cal) (b : Byte) (n : Nat) :
    sweepEvents s (withCalField v b) n = (List.range n).flatMap fun j =>
      trialEvents s.cfg.params.regCal (withCalField (if j = 0 then v else BitVec.ofNat 2 (4 - j)) b) (BitVec.ofNat 2 (3 - j))
        (s.querySamples (j + 1)) := by
  unfold sweepEvents
  congr 1
  funext j
  by_cases hj : j = 0 <;> simp [hj, withCalField_twice]

/-- Settles O29: `Checked` for steps 2 to 6, then step 7; each clause is one of the lemmas above. -/
theorem tuneOutcome : Obligations.TuneOutcome := by
  intro d s h hready hw p c off searched won trials queries held active old new
  have H : Checked c searched won trials queries s (tuneCheck c (beforeCheck c s)) := tuneCheck_checked c hw
  have hoff : calOff s.cfg.params c = off := calOff_eq _ _
  have hnew : ∀ v, packed s c v = new v := fun v => by rw [packed, calInsert_eq, hoff]
  obtain ⟨hcf, hch, hcc, hfh, hfc, hhc⟩ := Config.tuned_roles_distinct s.cfg
  have hexec : exec (.tune d) s = .next (tuneDone (tuneLower (tuneCheck c (beforeCheck c s)))) :=
    congrArg _ (tune_accepted h hready)
  generalize tuneCheck c (beforeCheck c s) = u at H hexec
  clear_value searched won trials queries
  have hpacked : u.storeByte off = won.elim old new := by
    rw [← hoff, H.packedByte, hoff]
    exact congrArg (won.elim old) (funext hnew)
  have happly : applyEvents (s.storedCal c) s = if active (s.storedCal c) then []
      else frame (addrOf p.regCal) (held (s.storedCal c)) ++ [.delay .tApply] := by
    simp [applyEvents, active, held, withCalField, p]
  have hcommit : (if won.isSome then [Event.strd off (s.storeByte off), .stwr off (u.storeByte off)] else []) =
      won.elim [] fun v => [.strd off old, .stwr off (new v)] := by
    rw [hpacked]
    cases won <;> rfl
  have hevents := H.trace_finish
  rw [sweepEvents_withCalField, divLow_eq, divHigh_eq, hoff, happly, hcommit] at hevents
  have hbyte : ∀ a, (tuneDone (tuneLower u)).storeByte a = u.storeByte a :=
    State.storeByte_congr (tuneFinish_cfg u) (tuneFinish_store u)
  have hcfg : (tuneDone (tuneLower u)).cfg = s.cfg := (tuneFinish_cfg u).trans H.cfg
  have hcp : (tuneDone (tuneLower u)).reg p.regCp = withChargePump p p.cpIdle (s.reg p.regCp) := by
    rw [H.reg_finish, if_pos rfl]
  have hcal : (tuneDone (tuneLower u)).reg p.regCal =
      withCalField (if searched then won.getD 0 else s.storedCal c) (s.reg p.regCal) := by
    rw [H.reg_finish, if_neg hcc.symm, if_neg hfc.symm, if_neg hhc.symm, if_pos rfl]
  have hagree : ∀ r, r = p.regCp ∨ r = p.regFlo ∨ r = p.regFhi → (tuneDone (tuneLower u)).AgreesAt r := fun r hr =>
    tuneFinish_agreesAt fun _ => H.agreesAt (by rintro rfl; tauto) (beforeCheck_agreesAt hr)
  refine ⟨_, hexec, ?_, ?_, ?_, ?_, ?_, ?_, ?_, ?_, hagree _ (.inl rfl), hagree _ (.inr (.inl rfl)), hagree _ (.inr (.inr rfl)),
    ?_, ?_, ?_, ?_, ?_⟩
  · exact H.state_finish.trans (by rw [hevents]; cases won <;> rfl)
  · rw [H.reg_finish, if_neg hcf.symm, if_pos rfl, divLow_eq]
  · rw [H.reg_finish, if_neg hch.symm, if_neg hfh.symm, if_pos rfl, divHigh_eq]
  · rw [hcp, withChargePump_inside _ _ _ (Config.cpIdle_mask s.cfg)]
  · rw [hcp, withChargePump_outside _ _ _ (Config.cpIdle_mask s.cfg)]
  · rw [hcal, withCalField_high]
  · rw [State.activeCal, hcfg, hcal, withCalField_low]
  · intro i hicp hiflo hifhi hical
    rw [H.reg_finish, if_neg hicp, if_neg hiflo, if_neg hifhi, if_neg hical]
  · rw [H.devCal_finish]
    refine if_congr ?_ rfl rfl
    simp [active]
  · intro a hacp haflo hafhi hacal
    rw [tuneFinish_dev a (by rw [H.cfg]; exact hacp), H.dev a hacal, beforeCheck_dev a hacp haflo hafhi (.inl hacal)]
  · intro c'
    rw [State.storedCal_congr (tuneFinish_cfg u) (tuneFinish_store u), H.storedCal]
  · rw [hbyte, hpacked]
    cases won <;> rfl
  · intro a ha
    rw [hbyte, H.storeByte a (by rwa [hoff])]

end Sys2Proof.Machine
end

section
/-! SUPPORT. The fields of a command word (spec/30_encoding.md R97), what a mask says of them (R99), and the small numbers that stand
in a wider field, with zeros above them (R98). -/

namespace Sys2Proof

/-! ## Small numbers in a wider field -/

section
variable {m n k : Nat}

/-- The bits from `n` up are zero exactly where the number is below `2 ^ n`. -/
theorem extractLsb'_high_eq_zero_iff (x : BitVec m) (h : m ≤ n + k) : x.extractLsb' n k = 0 ↔ x.toNat < 2 ^ n := by
  have hhigh : x.toNat >>> n < 2 ^ k := by
    rw [Nat.shiftRight_eq_div_pow, Nat.div_lt_iff_lt_mul (by positivity), ← pow_add, Nat.add_comm]
    exact x.isLt.trans_le (Nat.pow_le_pow_right Nat.two_pos h)
  rw [← BitVec.toNat_inj, BitVec.extractLsb'_toNat, Nat.mod_eq_of_lt hhigh, Nat.shiftRight_eq_div_pow]
  simp

theorem extractLsb'_low_setWidth (h : n ≤ m) (v : BitVec n) : (v.setWidth m).extractLsb' 0 n = v := by
  rw [BitVec.extractLsb'_setWidth_of_le (by omega), BitVec.extractLsb'_eq_self]

/-- A narrow number in a wide field leaves the bits above it zero. -/
theorem extractLsb'_high_setWidth (h : n ≤ m) (hk : m ≤ n + k) (v : BitVec n) : (v.setWidth m).extractLsb' n k = 0 := by
  rw [extractLsb'_high_eq_zero_iff _ hk, BitVec.toNat_setWidth_of_le h]
  exact v.isLt

theorem setWidth_extractLsb'_low (x : BitVec m) (hx : x.toNat < 2 ^ n) : (x.extractLsb' 0 n).setWidth m = x := by
  refine BitVec.eq_of_toNat_eq ?_
  rw [BitVec.toNat_setWidth, BitVec.extractLsb'_toNat, Nat.shiftRight_zero, Nat.mod_eq_of_lt hx, Nat.mod_eq_of_lt x.isLt]

theorem setWidth_extractLsb'_of_high_zero (x : BitVec m) (hk : m ≤ n + k) (hx : x.extractLsb' n k = 0) :
    (x.extractLsb' 0 n).setWidth m = x :=
  setWidth_extractLsb'_low x ((extractLsb'_high_eq_zero_iff x hk).mp hx)

/-- The numbers of a narrow field are those below `2 ^ n`. -/
theorem exists_setWidth_eq_iff (h : n ≤ m) (x : BitVec m) : (∃ v : BitVec n, v.setWidth m = x) ↔ x.toNat < 2 ^ n := by
  constructor
  · rintro ⟨v, rfl⟩
    rw [BitVec.toNat_setWidth_of_le h]
    exact v.isLt
  · exact fun hx => ⟨_, setWidth_extractLsb'_low x hx⟩

/-- The lowest bit, as a number of one bit. -/
theorem ofBool_getLsbD_zero (x : BitVec m) : BitVec.ofBool (x.getLsbD 0) = x.extractLsb' 0 1 := by
  ext j hj
  simp [show j = 0 by omega]

/-- The two flags are the numbers below 2. -/
theorem exists_ofBool_setWidth_eq_iff (d : Byte) : (∃ f, (BitVec.ofBool f).setWidth 8 = d) ↔ d.toNat < 2 ^ 1 := by
  constructor
  · rintro ⟨f, rfl⟩
    cases f <;> decide
  · exact fun hd => ⟨d.getLsbD 0, by rw [ofBool_getLsbD_zero, setWidth_extractLsb'_low d hd]⟩

/-- Under a mask of the bits from `n` up, zero is what the numbers below `2 ^ n` give. -/
theorem and_highMask_eq_zero_iff (x : BitVec m) : x &&& (BitVec.allOnes m <<< n) = 0 ↔ x.toNat < 2 ^ n := by
  have hle : x.toNat / 2 ^ n * 2 ^ n < 2 ^ m := (Nat.div_mul_le_self _ _).trans_lt x.isLt
  rw [← BitVec.shiftLeft_ushiftRight, ← BitVec.toNat_inj, BitVec.toNat_shiftLeft, BitVec.toNat_ushiftRight,
    Nat.shiftRight_eq_div_pow, Nat.shiftLeft_eq, Nat.mod_eq_of_lt hle]
  simp
end

/-! ## The fields of a word (R97) -/

section
variable (op : BitVec 4) (a : Addr) (d : Byte)

@[simp] theorem fieldOp_word : fieldOp (word op a d) = op := by
  rw [fieldOp, word, BitVec.append_assoc]
  exact BitVec.extractLsb'_append_eq_left

@[simp] theorem fieldA_word : fieldA (word op a d) = a := by
  rw [fieldA, word, BitVec.extractLsb'_append_eq_of_le (le_refl 8)]
  exact BitVec.extractLsb'_append_eq_right

@[simp] theorem fieldD_word : fieldD (word op a d) = d := BitVec.extractLsb'_append_eq_right

theorem word_fields (w : CmdWord) : word (fieldOp w) (fieldA w) (fieldD w) = w := by
  have hlow : fieldA w ++ fieldD w = w.extractLsb' 0 12 := BitVec.extractLsb'_append_extractLsb'_eq_extractLsb' rfl
  have hall : fieldOp w ++ w.extractLsb' 0 12 = w.extractLsb' 0 16 :=
    BitVec.extractLsb'_append_extractLsb'_eq_extractLsb' rfl
  rw [word, BitVec.append_assoc, hlow]
  exact hall.trans BitVec.extractLsb'_eq_self

/-- A word is its three fields. -/
theorem word_eq_iff {w : CmdWord} : word op a d = w ↔ fieldOp w = op ∧ fieldA w = a ∧ fieldD w = d := by
  constructor
  · rintro rfl
    simp
  · rintro ⟨rfl, rfl, rfl⟩
    exact word_fields w

theorem fieldOp_toNat (w : CmdWord) : (fieldOp w).toNat = w.toNat / 4096 := by
  have := w.isLt
  simp only [fieldOp, BitVec.extractLsb'_toNat, Nat.shiftRight_eq_div_pow]
  omega

theorem fieldA_toNat (w : CmdWord) : (fieldA w).toNat = w.toNat / 256 % 16 := by
  simp [fieldA, Nat.shiftRight_eq_div_pow]

theorem fieldD_toNat (w : CmdWord) : (fieldD w).toNat = w.toNat % 256 := by
  simp [fieldD]

/-- A masked word, field by field (R99). -/
theorem and_word_eq_iff (w : CmdWord) (mop ma : BitVec 4) (md : Byte) :
    w &&& word mop ma md = word op a d ↔ fieldOp w &&& mop = op ∧ fieldA w &&& ma = a ∧ fieldD w &&& md = d := by
  have hand : w &&& word mop ma md = word (fieldOp w &&& mop) (fieldA w &&& ma) (fieldD w &&& md) := by
    conv_lhs => rw [← word_fields w]
    exact BitVec.and_append.trans (congrArg (· ++ (fieldD w &&& md)) BitVec.and_append)
  rw [hand, word_eq_iff]
  simp [eq_comm]
end

end Sys2Proof
end

section
/-! The decoder and the encoder are inverse to each other (spec/30_encoding.md R97 to R99, R104). -/

namespace Sys2Proof

variable {w : CmdWord} {i : Instr}

/-- A row accepts where its must-be-zero condition and its further condition both hold. -/
theorem accept_eq_ok_iff {mbz further : Bool} {why : Reserved} {j : Instr} :
    accept mbz further why j = .ok i ↔ mbz = true ∧ further = true ∧ j = i := by
  cases mbz <;> cases further <;> simp [accept]

/-- Decoding the word of a well-formed command: its row accepts, and its fields are the operands (R98, R104). -/
theorem decode_encode (i : Instr) (h : wellFormed i = true) : decode (encode i) = .ok i := by
  cases i with
  | calapply v =>
    have hmbz := extractLsb'_high_setWidth (m := 8) (k := 6) (by decide) le_rfl v
    have hlow := extractLsb'_low_setWidth (m := 8) (by decide) v
    simp [encode, decode, accept, hmbz, hlow]
  | calwr v d =>
    have hmbz := extractLsb'_high_setWidth (m := 4) (k := 2) (by decide) le_rfl v
    have hlow := extractLsb'_low_setWidth (m := 4) (by decide) v
    have hchannel : isChannel d = true := h
    simp [encode, decode, accept, hmbz, hlow, hchannel]
  | setrdy f => cases f <;> rfl
  | get a | setbits a | clrbits a =>
    have hmirrored : mirrored a = true := h
    simp [encode, decode, accept, hmirrored]
  | calrd d =>
    have hchannel : isChannel d = true := h
    simp [encode, decode, accept, hchannel]
  | _ => simp [encode, decode, accept]

/-- The opcode field read as a number, as the decoder matches it. -/
theorem encode_eq_of_fields {n : Nat} {a : Addr} {d : Byte} (henc : encode i = word (BitVec.ofNat 4 n) a d)
    (hop : (fieldOp w).toNat = n) (ha : fieldA w = a) (hd : fieldD w = d) : encode i = w := by
  rw [henc, word_eq_iff]
  refine ⟨?_, ha, hd⟩
  rw [← hop, BitVec.ofNat_toNat, BitVec.setWidth_eq]

/-- A word that decodes is the word of its command, which is well-formed: in each row the fields are the operands, or the zeros the row
asks for (R98, R99). -/
theorem encode_of_decode (h : decode w = .ok i) : wellFormed i = true ∧ encode i = w := by
  unfold decode at h
  split at h <;> simp only [accept_eq_ok_iff, Except.ok.injEq, Bool.and_eq_true, beq_iff_eq, reduceCtorEq] at h
  case h_1 hop | h_3 hop => -- WRREG, SET
    subst h
    exact ⟨rfl, encode_eq_of_fields rfl hop rfl rfl⟩
  case h_2 hop | h_7 hop | h_12 hop => -- RSTBUS, HASLOCK, STINIT
    obtain ⟨⟨ha, hd⟩, -, rfl⟩ := h
    exact ⟨rfl, encode_eq_of_fields rfl hop ha hd⟩
  case h_4 hop => -- GET
    obtain ⟨hd, hmirrored, rfl⟩ := h
    exact ⟨hmirrored, encode_eq_of_fields rfl hop rfl hd⟩
  case h_5 hop | h_6 hop => -- SETBITS, CLRBITS
    obtain ⟨-, hmirrored, rfl⟩ := h
    exact ⟨hmirrored, encode_eq_of_fields rfl hop rfl rfl⟩
  case h_8 hop => -- TUNE
    obtain ⟨ha, -, rfl⟩ := h
    exact ⟨rfl, encode_eq_of_fields rfl hop ha rfl⟩
  case h_9 hop => -- CALAPPLY
    obtain ⟨⟨ha, hd⟩, -, rfl⟩ := h
    exact ⟨rfl, encode_eq_of_fields rfl hop ha (setWidth_extractLsb'_of_high_zero _ le_rfl hd).symm⟩
  case h_10 hop => -- CALRD
    obtain ⟨ha, hchannel, rfl⟩ := h
    exact ⟨hchannel, encode_eq_of_fields rfl hop ha rfl⟩
  case h_11 hop => -- CALWR
    obtain ⟨ha, hchannel, rfl⟩ := h
    exact ⟨hchannel, encode_eq_of_fields rfl hop (setWidth_extractLsb'_of_high_zero _ le_rfl ha).symm rfl⟩
  case h_13 hop => -- SETRDY
    obtain ⟨⟨ha, hd⟩, -, rfl⟩ := h
    refine ⟨rfl, encode_eq_of_fields rfl hop ha ?_⟩
    rw [ofBool_getLsbD_zero, setWidth_extractLsb'_of_high_zero _ le_rfl hd]

/-- The words that decode to a command: its own, where it is well-formed (R98, R99). -/
theorem decode_eq_ok_iff : decode w = .ok i ↔ wellFormed i = true ∧ encode i = w := by
  constructor
  · exact encode_of_decode
  · rintro ⟨hwf, rfl⟩
    exact decode_encode i hwf

/-- Settles O1: the statement is `decode_encode`. -/
theorem decodeInvertsEncode : Obligations.DecodeInvertsEncode := decode_encode

/-- Settles O2: the statement is `encode_of_decode`. -/
theorem encodeInvertsDecode : Obligations.EncodeInvertsDecode := fun _ _ => encode_of_decode

end Sys2Proof
end

section
/-! The map of the command words (spec/30_encoding.md R98, R99, R101): which fields each row takes, how a mask and a match say so, and
which words no row takes. -/

namespace Sys2Proof

variable (w : CmdWord)

/-! ## The fields each row takes -/

theorem decodes_wrreg : (∃ a d, decode w = .ok (.wrreg a d)) ↔ fieldOp w = 1 := by
  simp [decode_eq_ok_iff, wellFormed, encode, word_eq_iff]

theorem decodes_rstbus : decode w = .ok .rstbus ↔ fieldOp w = 2 ∧ fieldA w = 0 ∧ fieldD w = 0 := by
  simp [decode_eq_ok_iff, wellFormed, encode, word_eq_iff]

theorem decodes_set : (∃ a d, decode w = .ok (.set a d)) ↔ fieldOp w = 3 := by
  simp [decode_eq_ok_iff, wellFormed, encode, word_eq_iff]

theorem decodes_get : (∃ a, decode w = .ok (.get a)) ↔ (fieldOp w = 4 ∧ fieldD w = 0) ∧ (fieldA w).toNat < 9 := by
  simp [decode_eq_ok_iff, wellFormed, encode, word_eq_iff, mirrored, and_comm]

theorem decodes_setbits : (∃ a d, decode w = .ok (.setbits a d)) ↔ fieldOp w = 5 ∧ (fieldA w).toNat < 9 := by
  simp [decode_eq_ok_iff, wellFormed, encode, word_eq_iff, mirrored, and_comm]

theorem decodes_clrbits : (∃ a d, decode w = .ok (.clrbits a d)) ↔ fieldOp w = 6 ∧ (fieldA w).toNat < 9 := by
  simp [decode_eq_ok_iff, wellFormed, encode, word_eq_iff, mirrored, and_comm]

theorem decodes_haslock : decode w = .ok .haslock ↔ fieldOp w = 7 ∧ fieldA w = 0 ∧ fieldD w = 0 := by
  simp [decode_eq_ok_iff, wellFormed, encode, word_eq_iff]

theorem decodes_tune : (∃ d, decode w = .ok (.tune d)) ↔ fieldOp w = 8 ∧ fieldA w = 0 := by
  simp [decode_eq_ok_iff, wellFormed, encode, word_eq_iff]

theorem decodes_calapply : (∃ v, decode w = .ok (.calapply v)) ↔ fieldOp w = 9 ∧ fieldA w = 0 ∧ (fieldD w).toNat < 2 ^ 2 := by
  simp only [decode_eq_ok_iff, wellFormed, encode, word_eq_iff, ← exists_setWidth_eq_iff (show 2 ≤ 8 by decide)]
  simp [eq_comm]

theorem decodes_calrd : (∃ d, decode w = .ok (.calrd d)) ↔ (fieldOp w = 10 ∧ fieldA w = 0) ∧ (fieldD w).toNat < 103 := by
  simp [decode_eq_ok_iff, wellFormed, encode, word_eq_iff, isChannel, and_comm]

theorem decodes_calwr :
    (∃ v d, decode w = .ok (.calwr v d)) ↔ (fieldOp w = 11 ∧ (fieldA w).toNat < 2 ^ 2) ∧ (fieldD w).toNat < 103 := by
  simp only [decode_eq_ok_iff, wellFormed, encode, word_eq_iff, ← exists_setWidth_eq_iff (show 2 ≤ 4 by decide)]
  simp [isChannel, and_comm, eq_comm]

theorem decodes_stinit : decode w = .ok .stinit ↔ fieldOp w = 12 ∧ fieldA w = 0 ∧ fieldD w = 0 := by
  simp [decode_eq_ok_iff, wellFormed, encode, word_eq_iff]

theorem decodes_setrdy : (∃ f, decode w = .ok (.setrdy f)) ↔ fieldOp w = 13 ∧ fieldA w = 0 ∧ (fieldD w).toNat < 2 ^ 1 := by
  simp only [decode_eq_ok_iff, wellFormed, encode, word_eq_iff, ← exists_ofBool_setWidth_eq_iff]
  simp only [true_and, exists_and_left, eq_comm]

/-! ## The masks -/

theorem and_nibble (x : BitVec 4) : x &&& 0xF = x := BitVec.and_allOnes

theorem and_zeros {n : Nat} (x : BitVec n) : x &&& 0 = 0 := BitVec.and_zero

theorem and_byte (x : Byte) : x &&& 0xFF = x := BitVec.and_allOnes

variable (op : BitVec 4)

theorem mask_0xF000 : w &&& word 0xF 0 0 = word op 0 0 ↔ fieldOp w = op := by
  simp only [and_word_eq_iff, and_nibble, and_zeros, and_true]

theorem mask_0xFFFF : w &&& word 0xF 0xF 0xFF = word op 0 0 ↔ fieldOp w = op ∧ fieldA w = 0 ∧ fieldD w = 0 := by
  simp only [and_word_eq_iff, and_nibble, and_byte]

theorem mask_0xF0FF : w &&& word 0xF 0 0xFF = word op 0 0 ↔ fieldOp w = op ∧ fieldD w = 0 := by
  simp only [and_word_eq_iff, and_nibble, and_byte, and_zeros, true_and]

theorem mask_0xFF00 : w &&& word 0xF 0xF 0 = word op 0 0 ↔ fieldOp w = op ∧ fieldA w = 0 := by
  simp only [and_word_eq_iff, and_nibble, and_zeros, and_true]

theorem mask_0xFFFC : w &&& word 0xF 0xF 0xFC = word op 0 0 ↔ fieldOp w = op ∧ fieldA w = 0 ∧ (fieldD w).toNat < 2 ^ 2 := by
  rw [and_word_eq_iff, and_nibble, and_nibble, ← and_highMask_eq_zero_iff]
  rfl

theorem mask_0xFFFE : w &&& word 0xF 0xF 0xFE = word op 0 0 ↔ fieldOp w = op ∧ fieldA w = 0 ∧ (fieldD w).toNat < 2 ^ 1 := by
  rw [and_word_eq_iff, and_nibble, and_nibble, ← and_highMask_eq_zero_iff]
  rfl

theorem mask_0xFC00 : w &&& word 0xF 0xC 0 = word op 0 0 ↔ fieldOp w = op ∧ (fieldA w).toNat < 2 ^ 2 := by
  rw [and_word_eq_iff, and_nibble, and_zeros, ← and_highMask_eq_zero_iff]
  simp only [and_true]
  rfl

/-- Settles O3: each row takes the words whose fields its mask, its match and its further condition ask for. -/
theorem wordSelectsItsRow : Obligations.WordSelectsItsRow := by
  intro w
  have hmirrored : (fieldA w).toNat < 9 ↔ (w >>> 8).toNat % 16 ≤ 8 := by
    rw [fieldA_toNat, BitVec.toNat_ushiftRight, Nat.shiftRight_eq_div_pow, Nat.lt_succ_iff]
  have hchannel : (fieldD w).toNat < 103 ↔ w.toNat % 256 ≤ 102 := by rw [fieldD_toNat, Nat.lt_succ_iff]
  exact ⟨(decodes_wrreg w).trans (mask_0xF000 w 1).symm,
    (decodes_rstbus w).trans (mask_0xFFFF w 2).symm,
    (decodes_set w).trans (mask_0xF000 w 3).symm,
    (decodes_get w).trans (and_congr (mask_0xF0FF w 4).symm hmirrored),
    (decodes_setbits w).trans (and_congr (mask_0xF000 w 5).symm hmirrored),
    (decodes_clrbits w).trans (and_congr (mask_0xF000 w 6).symm hmirrored),
    (decodes_haslock w).trans (mask_0xFFFF w 7).symm,
    (decodes_tune w).trans (mask_0xFF00 w 8).symm,
    (decodes_calapply w).trans (mask_0xFFFC w 9).symm,
    (decodes_calrd w).trans (and_congr (mask_0xFF00 w 10).symm hchannel),
    (decodes_calwr w).trans (and_congr (mask_0xFC00 w 11).symm hchannel),
    (decodes_stinit w).trans (mask_0xFFFF w 12).symm,
    (decodes_setrdy w).trans (mask_0xFFFE w 13).symm⟩

/-! ## The words no row takes -/

/-- A row answers a command where its must-be-zero condition and its further condition hold. -/
theorem exists_accept_eq_ok_iff {mbz further : Bool} {why : Reserved} {j : Instr} :
    (∃ i, accept mbz further why j = .ok i) ↔ mbz = true ∧ further = true := by
  simp [accept_eq_ok_iff]

/-- Settles O4: in each row the must-be-zero fields and the further condition decide, and three opcodes have no row. -/
theorem reservedWordsRejected : Obligations.ReservedWordsRejected := by
  intro w op a d
  have hop : (fieldOp w).toNat = op := fieldOp_toNat w
  have hlt : (fieldOp w).toNat < 16 := (fieldOp w).isLt
  have ha : (fieldA w).toNat = a := fieldA_toNat w
  have hd : (fieldD w).toNat = d := fieldD_toNat w
  have ha0 : fieldA w = 0 ↔ a = 0 := by rw [← ha]; exact BitVec.toNat_inj.symm
  have hd0 : fieldD w = 0 ↔ d = 0 := by rw [← hd]; exact BitVec.toNat_inj.symm
  have ha4 : (fieldA w).extractLsb' 2 2 = 0 ↔ a < 4 := by rw [← ha]; exact extractLsb'_high_eq_zero_iff _ le_rfl
  have hd4 : (fieldD w).extractLsb' 2 6 = 0 ↔ d < 4 := by rw [← hd]; exact extractLsb'_high_eq_zero_iff _ le_rfl
  have hd2 : (fieldD w).extractLsb' 1 7 = 0 ↔ d < 2 := by rw [← hd]; exact extractLsb'_high_eq_zero_iff _ le_rfl
  have hmirrored : mirrored (fieldA w) = true ↔ a < 9 := by rw [mirrored, decide_eq_true_iff, ha]
  have hchannel : isChannel (fieldD w) = true ↔ d < 103 := by rw [isChannel, decide_eq_true_iff, hd]
  clear_value op a d
  rw [← not_exists, decode]
  split <;> rename_i hrow
  case h_1 | h_3 => -- WRREG, SET: every word of theirs
    obtain rfl := hop.symm.trans hrow
    simp
  case h_14 => -- no row
    simp only [imp_false, reduceCtorEq, exists_false, not_false_eq_true, true_iff] at *
    exact .inl (by grind)
  all_goals -- a row with conditions
    obtain rfl := hop.symm.trans hrow
    simp only [exists_accept_eq_ok_iff, Bool.and_eq_true, beq_iff_eq, ha0, hd0, ha4, hd4, hd2, hmirrored, hchannel,
      not_and_or, not_lt]
    simp

end Sys2Proof
end

section
/-! The words the spec writes out, and the operands and words that are refused (spec/30_encoding.md R101, R104). -/

namespace Sys2Proof.Machine

/-- Settles O5: each word is the word of its command, which is well-formed. -/
theorem writtenWordsDecode : Obligations.WrittenWordsDecode :=
  ⟨decode_encode (.set 3 0x8A) rfl, decode_encode (.tune 10) rfl, decode_encode (.calwr 2 101) rfl,
    decode_encode .rstbus rfl, decode_encode (.wrreg 14 0x05) rfl, decode_encode (.get 0) rfl,
    decode_encode (.setbits 0 0x04) rfl, decode_encode (.clrbits 0 0x03) rfl, decode_encode .haslock rfl,
    decode_encode (.calapply 2) rfl, decode_encode (.calrd 101) rfl, decode_encode .stinit rfl,
    decode_encode (.setrdy true) rfl⟩

/-- Settles O7: the port is free, so the step looks at the word, and its reason is the answer. -/
theorem stepRefusesReservedWord : Obligations.StepRefusesReservedWord := by
  intro s w rest why hcommands hbusy hdecode
  simp [step, hcommands, hbusy, hdecode]

theorem mirrorIdx_eq_none {a : Addr} (ha : 9 ≤ a.toNat) : mirrorIdx a = none := dif_neg (not_lt.mpr ha)

theorem chanOf_eq_none {d : Byte} (hd : 103 ≤ d.toNat) : chanOf d = none := dif_neg (not_lt.mpr hd)

/-- Settles O19: there is no mirror element or no channel to go on with. -/
theorem outOfRangeOperandsRefused : Obligations.OutOfRangeOperandsRefused := by
  refine ⟨fun a d s ha => ?_, fun v d s hd => ?_⟩
  · simp [exec, execGet, execSetbits, execClrbits, mirrorIdx_eq_none ha]
  · simp [exec, execCalrd, execCalwr, chanOf_eq_none hd]

end Sys2Proof.Machine
end

section
/-! The pin events of a frame and of the bus reset (spec/30_encoding.md R90 to R92, spec/40_wire_driver.md R124, R125). -/

namespace Sys2Proof.Machine

/-! ## The frame -/

/-- The events of one bit slot: the bit, then a clock strobe (R91). -/
def slotEvents (b : Bool) : List Event := [.pin .data b, .pin .clk true, .pin .clk false]

theorem frame_eq (a : Addr) (v : Byte) :
    frame a v = (frameBits a v).flatMap slotEvents ++ [.pin .latch true, .pin .latch false] := rfl

/-- The frame number `F` (R90): its bits are the frame's, in slot order. -/
theorem frameBits_eq (a : Addr) (v : Byte) : frameBits a v = bitsLsb 12 (a.setWidth 12 ||| (v.setWidth 12 <<< 4)) := by
  simp [frameBits, bitsLsb, List.range, List.range.loop]

theorem frameBits_length (a : Addr) (v : Byte) : (frameBits a v).length = 12 := by simp [frameBits, bitsLsb]

theorem slots_length (bits : List Bool) : (bits.flatMap slotEvents).length = 3 * bits.length := by
  induction bits with
  | nil => rfl
  | cons b bits ih => simp [slotEvents, ih]; omega

/-- Slot `i` of a list of slots carries bit `i`. -/
theorem slots_slot (bits : List Bool) (rest : List Event) (i : Nat) (hi : i < bits.length) :
    ((bits.flatMap slotEvents ++ rest).drop (3 * i)).take 3 = slotEvents bits[i] := by
  induction bits generalizing i with
  | nil => cases hi
  | cons b bits ih =>
    cases i with
    | zero => rfl
    | succ i => exact ih i (Nat.lt_of_succ_lt_succ hi)

/-- Settles O10: a frame is its twelve slots and the latch strobe, and the bits of the slots are those of `F`. -/
theorem frameSlotsCarryF : Obligations.FrameSlotsCarryF := by
  intro a v F
  refine ⟨frame_length a v, fun i => ?_, ?_⟩
  · have hi : i.val < (frameBits a v).length := by rw [frameBits_length]; exact i.isLt
    rw [frame_eq, slots_slot _ _ _ hi]
    simp only [frameBits_eq, bitsLsb, List.getElem_map, List.getElem_range]
    rfl
  · rw [frame_eq, List.drop_left' (by rw [slots_length, frameBits_length])]

/-! ## The bus reset -/

/-- Settles O13: the pin writes of the bus reset are its symbols, and they end with `DATA` high and `CLK` low. -/
theorem rstbusEmitsBusReset : Obligations.RstbusEmitsBusReset := by
  intro s
  have hexec : exec .rstbus s = .next (pinWrites busReset s) := rfl
  rw [hexec, pinWrites_eq]
  simp only [List.append_assoc]
  rfl

end Sys2Proof.Machine
end

section
/-! Responses (spec/30_encoding.md R100): a command that responds ends with `Rsp`, and what it does before that, like everything another
command does, is a chain of operations that do not respond. -/

namespace Sys2Proof.Machine

variable {i : Instr} {s t : State}

/-- Operations that are no `Rsp` add no response. -/
theorem Chain.adds_no_response {K : Kind → Prop} (h : Chain K s t) (hK : ¬ K .rsp) :
    ∃ evs, t.trace = s.trace ++ evs ∧ responses evs = [] := by
  obtain ⟨evs, htrace, hevs⟩ := h.events
  refine ⟨evs, htrace, responses_none _ fun b hmem => ?_⟩
  obtain ⟨k, hk, hemits⟩ := hevs _ hmem
  obtain rfl : k = .rsp := by cases k <;> simp_all [Kind.emits]
  exact hK hk

/-- A command that responds does so at its end, after operations that do not (R100). -/
theorem exec_ends_with_response (h : exec i s = .next t) (hi : kindsOf i s .rsp) :
    ∃ b u, Chain (· ≠ .rsp) s u ∧ t = respond b u := by
  obtain ⟨a, rfl⟩ | rfl | ⟨d, rfl⟩ := hi
  · simp only [exec, execGet] at h
    split at h
    · exact ⟨_, s, .nil s, (next_inj h).symm⟩
    · cases h
  · exact ⟨_, (hasLock s).2, .one (.query s) nofun, (next_inj h).symm⟩
  · simp only [exec, execCalrd] at h
    split at h
    · exact ⟨_, _, calRead_chain _ s nofun, (next_inj h).symm⟩
    · cases h

/-- Settles O45: the last operation of a responding command is its only `Rsp`, and another command has none. -/
theorem responseIsLastEvent : Obligations.ResponseIsLastEvent := by
  intro i s t h responds
  refine ⟨fun hi => ?_, fun hi => ?_⟩
  · obtain ⟨b, u, hchain, rfl⟩ := exec_ends_with_response h hi
    obtain ⟨evs, htrace, hnone⟩ := hchain.adds_no_response (fun hne => hne rfl)
    have hsince : (respond b u).since s = evs ++ [.rsp b] :=
      State.since_append (by rw [respond, State.emit_trace, htrace, List.append_assoc])
    rw [hsince, responses_append, hnone]
    exact ⟨b, rfl, List.getLast?_concat⟩
  · obtain ⟨evs, htrace, hnone⟩ := (exec_chain h).adds_no_response hi
    rwa [State.since_append htrace]

end Sys2Proof.Machine
end

section
/-! One frame on the wire (spec/40_wire_driver.md R121), and the command that sends it alone (R122). -/

namespace Sys2Proof.Machine

/-- A word as R104 writes it: `op << 12 | a << 8 | d`. -/
theorem word_eq_shiftLeft_or (op : BitVec 4) (a : Addr) (d : Byte) :
    word op a d = (op.setWidth 16 <<< 12) ||| (a.setWidth 16 <<< 8) ||| d.setWidth 16 :=
  (BitVec.setWidth_eq _).symm.trans BitVec.setWidth_append_append_eq_shiftLeft_setWidth_or

/-- The bits of a frame, written out (R90). -/
theorem frameBits_eq_list (a : Addr) (v : Byte) :
    frameBits a v =
      [a.getLsbD 0, a.getLsbD 1, a.getLsbD 2, a.getLsbD 3, v.getLsbD 0, v.getLsbD 1, v.getLsbD 2, v.getLsbD 3,
        v.getLsbD 4, v.getLsbD 5, v.getLsbD 6, v.getLsbD 7] := rfl

/-- Settles O11: `wireWrite_eq`, with the slots of the frame written out. -/
theorem wireWriteEmitsOneFrame : Obligations.WireWriteEmitsOneFrame := by
  intro a v s
  rw [wireWrite_eq, frame_eq, frameBits_eq_list, ← List.append_assoc]
  rfl

/-- Settles O12: the word is the one WRREG encodes to, and the command is `WireWrite` alone. -/
theorem wrregSendsFrameOnly : Obligations.WrregSendsFrameOnly := by
  intro a d s
  have hword : encode (.wrreg a d) = 0x1000 ||| (a.setWidth 16 <<< 8) ||| d.setWidth 16 := word_eq_shiftLeft_or 1 a d
  have hexec : exec (.wrreg a d) s = .next (wireWrite a d s) := rfl
  rw [← hword, hexec, wireWrite_eq]
  exact ⟨decode_encode (.wrreg a d) rfl, rfl⟩

end Sys2Proof.Machine
end

section
/-! The register model (spec/41_register_model.md R141 to R145): `Set` as a whole next state, and the four commands, each by its word
and by what it makes of `Set` or of a response. -/

namespace Sys2Proof.Machine

variable {a : Addr}

/-! ## `Set` by the address -/

theorem mirrorIdx_eq_some (ha : a.toNat < 9) : mirrorIdx a = some ⟨a.toNat, ha⟩ := dif_pos ha

theorem regsAfter_eq_dite (a : Addr) (v : Byte) (regs : Vector Byte 9) :
    regsAfter a v regs = if h : a.toNat < 9 then regs.set a.toNat v else regs := by
  by_cases ha : a.toNat < 9
  · simp [regsAfter, mirrorIdx_eq_some ha, ha]
  · simp [regsAfter, mirrorIdx_eq_none (not_lt.mp ha), ha]

/-- `Set` of any address as a whole next state (R141). -/
theorem setReg_eq_dite (a : Addr) (v : Byte) (s : State) :
    setReg a v s =
      { s with
        regs := if h : a.toNat < 9 then s.regs.set a.toNat v else s.regs
        pins := ⟨v.getLsbD 7, false, false⟩
        dev := s.dev.set a.toNat (some v)
        trace := s.trace ++ frame a v } := by
  rw [setReg_eq, wireWrite_eq, regsAfter_eq_dite]

/-! ## The words and the commands -/

/-- A word in the written form of R104 decodes to the well-formed command with its fields. -/
theorem decode_shiftLeft_or {i : Instr} {op : BitVec 4} {d : Byte} (henc : encode i = word op a d) (hwf : wellFormed i = true) :
    decode ((op.setWidth 16 <<< 12) ||| (a.setWidth 16 <<< 8) ||| d.setWidth 16) = .ok i := by
  rw [← word_eq_shiftLeft_or, ← henc]
  exact decode_encode i hwf

theorem exec_set (a : Addr) (d : Byte) (s : State) : exec (.set a d) s = .next (setReg a d s) := rfl

theorem exec_get (ha : a.toNat < 9) (s : State) : exec (.get a) s = .next (respond s.regs[a.toNat] s) := by
  simp [exec, execGet, mirrorIdx_eq_some ha, State.reg]

theorem exec_setbits (ha : a.toNat < 9) (d : Byte) (s : State) :
    exec (.setbits a d) s = .next (setReg a (s.regs[a.toNat] ||| d) s) := by
  simp [exec, execSetbits, mirrorIdx_eq_some ha, State.reg]

theorem exec_clrbits (ha : a.toNat < 9) (d : Byte) (s : State) :
    exec (.clrbits a d) s = .next (setReg a (s.regs[a.toNat] &&& ~~~d) s) := by
  simp [exec, execClrbits, mirrorIdx_eq_some ha, State.reg]

/-! ## The obligations -/

/-- Settles O14: the statement is `setReg_eq_dite`. -/
theorem setWritesThroughAndMirrors : Obligations.SetWritesThroughAndMirrors := setReg_eq_dite

/-- Settles O15: SET is well-formed for every address, and the command is `Set`. -/
theorem setCommandResult : Obligations.SetCommandResult := by
  intro a d s
  refine ⟨decode_shiftLeft_or (op := 3) rfl rfl, ?_⟩
  rw [exec_set, setReg_eq_dite]

/-- Settles O16: the word has `d` zero, and the command is the response alone. -/
theorem getAnswersTheMirror : Obligations.GetAnswersTheMirror := by
  intro a s ha
  have hword : encode (.get a) = 0x4000 ||| (a.setWidth 16 <<< 8) := (word_eq_shiftLeft_or 4 a 0).trans BitVec.or_zero
  rw [← hword]
  exact ⟨decode_encode (.get a) (decide_eq_true ha), exec_get ha s⟩

/-- Settles O17: the address is mirrored, so the command is `Set(a, R[a] | d)` with the mirror's element written. -/
theorem setbitsResult : Obligations.SetbitsResult := by
  intro a d s ha
  refine ⟨decode_shiftLeft_or (op := 5) rfl (decide_eq_true ha), ?_⟩
  rw [exec_setbits ha, setReg_eq_dite, dif_pos ha]

/-- Settles O18: the address is mirrored, so the command is `Set(a, R[a] & ~d)` with the mirror's element written. -/
theorem clrbitsResult : Obligations.ClrbitsResult := by
  intro a d s ha
  refine ⟨decode_shiftLeft_or (op := 6) rfl (decide_eq_true ha), ?_⟩
  rw [exec_clrbits ha, setReg_eq_dite, dif_pos ha]

end Sys2Proof.Machine
end

section
/-! The Lock Detector (spec/42_lock_detector.md R161 to R163): HASLOCK as a whole next state, the samples a listed lock line gives,
and what the vote depends on. -/

namespace Sys2Proof.Machine

/-- HASLOCK as a whole next state (R162): one lock query, then one response. -/
theorem exec_haslock (s : State) :
    exec .haslock s = .next
      { s with
        cnt := none
        timer := none
        lockLine := s.lockLine.drop 50
        drawn := s.drawn + 50
        trace := s.trace ++ voteEvents (s.samples 50) ++ [.rsp (boolByte (majority (s.samples 50)))] } := by
  have hexec : exec .haslock s = .next (respond (boolByte (hasLock s).1) (hasLock s).2) := rfl
  rw [hexec, hasLock_eq]
  rfl

/-- The response byte of a query, by the count of its high samples (R162). -/
theorem boolByte_majority (bits : List Bool) : boolByte (majority bits) = if 25 < bits.count true then 0x01 else 0x00 := by
  simp [boolByte, majority]

/-- A lock line listed for exactly `n` samples gives its list, and no free bit (R161). -/
theorem State.samples_eq_lockLine {s : State} {n : Nat} (h : s.lockLine.length = n) : s.samples n = s.lockLine := by
  refine List.ext_getElem (by rw [State.samples_length, h]) fun k _ hk => ?_
  simp [State.samples, State.lockBit, hk]

/-- The majority is a matter of the count, not of the order (R163). -/
theorem majority_eq_of_perm {xs ys : List Bool} (h : xs.Perm ys) : majority xs = majority ys := by
  rw [majority, majority, h.count_eq]

/-- A tie is no majority (R163). -/
theorem majority_eq_false_of_tie {bits : List Bool} (h : bits.count true = 25) : majority bits = false := by
  simp [majority, h]

/-! ## The obligations -/

/-- Settles O20: the statement is `exec_haslock`, with the response byte written by the count. -/
theorem haslockVotes : Obligations.HaslockVotes := by
  intro s
  rw [exec_haslock, boolByte_majority]
  rfl

/-- Settles O21: the samples of a query whose input list has length 50 are that list, and its new events record them. -/
theorem anySampleSequenceMayOccur : Obligations.AnySampleSequenceMayOccur := by
  intro s bits hlen
  have hsamples : ({ s with lockLine := bits } : State).samples 50 = bits := State.samples_eq_lockLine hlen
  refine ⟨_, exec_haslock _, ?_, rfl, rfl, rfl, rfl⟩
  rw [hsamples, State.since_append (List.append_assoc _ _ _), sampled_append, sampled_voteEvents]
  exact List.append_nil bits

/-- Settles O22: the answer is the majority of the samples, which reordering keeps and a tie denies. -/
theorem voteIgnoresOrder : Obligations.VoteIgnoresOrder := by
  intro s t hperm
  rw [hasLock_result, hasLock_result]
  exact ⟨majority_eq_of_perm hperm, majority_eq_false_of_tie⟩

end Sys2Proof.Machine
end

section
/-! TUNE as a run of its state machine (spec/43_tuning_engine.md R171 to R173): each transition by the state it starts from, then the
whole path, powered off and powered on. -/

namespace Sys2Proof.Machine

variable {c : Chan} {s u : State}

theorem exec_tune (d : Byte) (s : State) : exec (.tune d) s = .next (tune d s) := rfl

/-- A rejected TUNE (R171). -/
theorem tune_rejected {d : Byte} (h : s.ready = false ∨ 103 ≤ d.toNat) : tune d s = s := by
  obtain hready | hd := h
  · unfold tune
    split
    · simp [hready]
    · rfl
  · simp [tune, chanOf_eq_none hd]

/-- Settles O23: neither branch of the guard runs a step. -/
theorem tuneRejectedIsNoOp : Obligations.TuneRejectedIsNoOp := by
  intro d s h
  rw [exec_tune, tune_rejected h]

/-! ## The transitions up to the lock check -/

theorem tuneEnter_session (c : Chan) (s : State) :
    (tuneEnter c s).session = ⟨some c, some (s.storedCal c), some true, s.session.lock⟩ := by
  simp [tuneEnter, tuneRaise, setChargePump, tuneLookUp, calRead]
  rfl

theorem tuneProgram_session (c : Chan) (s : State) : (tuneProgram c s).session = s.session := by simp [tuneProgram]

theorem tuneAdvance_enter (c : Chan) (s : State) : tuneAdvance (tuneEnter c s) = tuneProgram c (tuneEnter c s) :=
  tuneAdvance_chargePumpHigh (by rw [tuneEnter_session]) (by rw [tuneEnter_session]) rfl

/-- Step 5 applies the value step 2 put in `S.cal` (R172). -/
theorem tuneAdvance_program (c : Chan) (s : State) : tuneAdvance (tuneProgram c (tuneEnter c s)) = beforeCheck c s :=
  tuneAdvance_frequencyProgrammed (by rw [tuneProgram_session, tuneEnter_session])
    (by rw [tuneProgram_session, tuneEnter_session]; rfl) rfl

theorem tuneAdvance_beforeCheck (c : Chan) (s : State) :
    tuneAdvance (beforeCheck c s) =
      if s.poweredOn then (beforeCheck c s).putTState .lockCheck else tuneLower (beforeCheck c s) := by
  rw [tuneAdvance_calibrationApplied (by rw [beforeCheck_session]) (by rw [beforeCheck_session]) (beforeCheck_tstate c s),
    beforeCheck_poweredOn]

/-! ## The transitions from the lock check on -/

/-- The session state names channel `c` and some calibration value, as it does from step 2 on (R29, R172). -/
def State.Tunes (c : Chan) (s : State) : Prop := s.session.chan = some c ∧ s.session.cal.isSome

theorem beforeCheck_tunes (c : Chan) (s : State) : (beforeCheck c s).Tunes c := by simp [State.Tunes]

theorem tuneVote_tunes (hs : s.Tunes c) : (tuneVote s).Tunes c := by simpa [State.Tunes, tuneVote] using hs

theorem tuneSearch_tunes (hs : s.Tunes c) : (tuneSearch c s).Tunes c := by
  unfold tuneSearch
  split
  · exact hs
  · obtain ⟨-, -, -, -, -, -, hchan, -, hcal, -⟩ := calSearch_frame c Config.sweep s
    exact ⟨hchan.trans hs.1, hcal hs.2⟩

theorem tuneAdvance_vote (hs : s.Tunes c) (hstate : s.tstate = .lockCheck) : tuneAdvance s = tuneVote s := by
  obtain ⟨hchan, hcal⟩ := hs
  obtain ⟨v, hv⟩ := Option.isSome_iff_exists.mp hcal
  exact tuneAdvance_lockCheck hchan hv hstate

theorem lockQuery_lock (s : State) : (lockQuery s).session.lock = some (s.vote 0) := by rw [lockQuery_session, State.vote_zero]

theorem tuneVote_lock (s : State) : (tuneVote s).session.lock = some (s.vote 0) := lockQuery_lock s

theorem tuneVote_tstate (s : State) : (tuneVote s).tstate = if s.vote 0 then .lockGood else .calibrationSearch := by
  simp only [tuneVote, lockQuery_lock]
  cases s.vote 0 <;> rfl

/-- After the vote the engine searches where `S.lock` is not 1, and lowers the charge pump (R173, R175, R176). -/
theorem tuneAdvance_voted (hs : s.Tunes c) : tuneAdvance (tuneVote s) = tuneLower (tuneSearch c (tuneVote s)) := by
  obtain ⟨hchan, hcal⟩ := tuneVote_tunes hs
  obtain ⟨v, hv⟩ := Option.isSome_iff_exists.mp hcal
  have hstate := tuneVote_tstate s
  have hlock := tuneVote_lock s
  cases hvote : s.vote 0 with
  | true => rw [tuneAdvance_lockGood hchan hv (by rw [hstate, hvote]; rfl), tuneSearch, if_pos (by rw [hlock, hvote])]
  | false =>
    rw [tuneAdvance_calibrationSearch hchan hv (by rw [hstate, hvote]; rfl), tuneSearch, if_neg (by rw [hlock, hvote]; decide)]

theorem tuneAdvance_lower (hs : s.Tunes c) : tuneAdvance (tuneLower s) = tuneDone (tuneLower s) := by
  obtain ⟨hchan, hcal⟩ := hs
  obtain ⟨v, hv⟩ := Option.isSome_iff_exists.mp hcal
  exact tuneAdvance_chargePumpLow (by rw [tuneLower_session]; exact hchan) (by rw [tuneLower_session]; exact hv) rfl

/-! ## The whole path -/

theorem tuneRun_eq_iterate (n : Nat) (s : State) : tuneRun n s = tuneAdvance^[n] s := by
  induction n generalizing s with
  | zero => rfl
  | succ n ih => exact ih (tuneAdvance s)

/-- The entry transition and the six after it. -/
def tunePath (c : Chan) (s : State) : List State := List.iterate tuneAdvance (tuneEnter c s) 7

theorem tunePath_eq_map_tuneRun (c : Chan) (s : State) :
    tunePath c s = (List.range 7).map fun n => tuneRun n (tuneEnter c s) := by
  simp only [tunePath, tuneRun_eq_iterate, List.range_map_iterate]

theorem getLast?_tunePath (c : Chan) (s : State) : (tunePath c s).getLast? = some (tuneRun 6 (tuneEnter c s)) := rfl

/-- Powered off: steps 2 to 5, step 7, `Idle` (R173, R174). -/
theorem tunePath_off (hp : s.poweredOn = false) :
    tunePath c s =
      [tuneEnter c s, tuneProgram c (tuneEnter c s), beforeCheck c s, tuneLower (beforeCheck c s),
        tuneDone (tuneLower (beforeCheck c s)), tuneDone (tuneLower (beforeCheck c s)), tuneDone (tuneLower (beforeCheck c s))] := by
  simp only [tunePath, List.iterate, tuneAdvance_enter, tuneAdvance_program, tuneAdvance_beforeCheck, hp, Bool.false_eq_true,
    if_false, tuneAdvance_lower (beforeCheck_tunes c s), tuneAdvance_done]

/-- Powered on: between steps 5 and 7 the lock check, then what its vote leads to (R173). -/
theorem tunePath_on (hp : s.poweredOn = true) :
    tunePath c s =
      [tuneEnter c s, tuneProgram c (tuneEnter c s), beforeCheck c s, (beforeCheck c s).putTState .lockCheck,
        tuneVote ((beforeCheck c s).putTState .lockCheck), tuneLower (tuneCheck c (beforeCheck c s)),
        tuneDone (tuneLower (tuneCheck c (beforeCheck c s)))] := by
  have htunes : ((beforeCheck c s).putTState .lockCheck).Tunes c := beforeCheck_tunes c s
  have hcheck : tuneCheck c (beforeCheck c s) = tuneSearch c (tuneVote ((beforeCheck c s).putTState .lockCheck)) :=
    if_pos (by rw [beforeCheck_poweredOn]; exact hp)
  simp only [tunePath, List.iterate, tuneAdvance_enter, tuneAdvance_program, tuneAdvance_beforeCheck, hp, if_true,
    tuneAdvance_vote htunes rfl, tuneAdvance_voted htunes, tuneAdvance_lower (tuneSearch_tunes (tuneVote_tunes htunes)), hcheck]

/-- The seven steps end where the path ends (R172, R173). -/
theorem tuneRun_six_enter (c : Chan) (s : State) : tuneRun 6 (tuneEnter c s) = tuneAccepted c s := by
  refine Option.some.inj ((getLast?_tunePath c s).symm.trans ?_)
  cases hp : s.poweredOn with
  | false =>
    rw [tunePath_off hp, tuneAccepted_eq, tuneCheck_off (by rw [beforeCheck_poweredOn]; exact hp)]
    rfl
  | true =>
    rw [tunePath_on hp, tuneAccepted_eq]
    rfl

/-- Settles O24: an accepted TUNE is its seven steps, and those are the run. -/
theorem tuneEqualsStateMachine : Obligations.TuneEqualsStateMachine := by
  intro d s h hready
  rw [exec_tune, tune_accepted h hready, tuneRun_six_enter]

/-- Settles O25: the states of the two paths, the fifth of the powered-on one being where the first vote leads. -/
theorem tuneVisitsItsStates : Obligations.TuneVisitsItsStates := by
  intro c s visited
  have hvisited : visited = (tunePath c s).map State.tstate := by rw [tunePath_eq_map_tuneRun, List.map_map]; rfl
  have hvote : ((beforeCheck c s).putTState .lockCheck).vote 0 = s.vote 0 :=
    (State.vote_congr (by simp) (by simp) 0).trans (beforeCheck_vote s c 0)
  rw [hvisited]
  cases hp : s.poweredOn with
  | false =>
    rw [tunePath_off hp, if_pos rfl]
    rfl
  | true =>
    rw [tunePath_on hp, if_neg (by decide)]
    simp only [List.map_cons, tuneVote_tstate, hvote]
    cases s.vote 0 <;> rfl

end Sys2Proof.Machine
end

section
/-! The events of an accepted TUNE that does not search (spec/43_tuning_engine.md R174, R175). -/

namespace Sys2Proof.Machine

variable {c : Chan} {s u : State}

theorem exec_tune_accepted {d : Byte} (h : d.toNat < 103) (hready : s.ready = true) :
    exec (.tune d) s = .next (tuneDone (tuneLower (tuneCheck ⟨d.toNat, h⟩ (beforeCheck ⟨d.toNat, h⟩ s)))) :=
  congrArg _ (tune_accepted h hready)

/-- The events of steps 2 to 5 in the words of the spec (R172, R201). -/
def prestageEvents (c : Chan) (s : State) : List Event :=
  let p := s.cfg.params
  let off := p.calBase + c.val / 4
  [.strd off (s.storeByte off)] ++
    frame (addrOf p.regCp) ((s.reg p.regCp &&& ~~~p.cpMask) ||| p.cpFast) ++
    frame (addrOf p.regFlo) (p.chanDiv[c.val].setWidth 8) ++
    frame (addrOf p.regFhi) ((p.chanDiv[c.val] >>> 8).setWidth 8) ++
    (if s.activeCal = s.storedCal c then []
     else frame (addrOf p.regCal) ((s.reg p.regCal &&& 0xFC) ||| (s.storedCal c).setWidth 8) ++ [.delay .tApply])

/-- The frame of step 7 (R172). -/
def idleFrame (s : State) : List Event :=
  let p := s.cfg.params
  frame (addrOf p.regCp) ((s.reg p.regCp &&& ~~~p.cpMask) ||| p.cpIdle)

theorem beforeCheck_trace_prestage (c : Chan) (s : State) : (beforeCheck c s).trace = s.trace ++ prestageEvents c s := by
  rw [beforeCheck_trace, calOff_eq, divLow_eq, divHigh_eq]
  simp only [prestageEvents, List.append_assoc]
  rfl

/-- Where step 6 does not search, only its query comes between the prestage and step 7 (R174, R175). -/
theorem Checked.trace_unsearched {queries : Nat} (H : Checked c false none 0 queries s u) :
    (tuneDone (tuneLower u)).trace =
      s.trace ++ (prestageEvents c s ++ (if s.poweredOn then voteEvents (s.samples 50) else []) ++ idleFrame s) := by
  have htrace := H.trace_finish
  rw [← beforeCheck_trace, beforeCheck_trace_prestage] at htrace
  rw [htrace, State.querySamples_zero]
  simp [sweepEvents, idleFrame, withChargePump]

/-- Settles O26: powered off, step 6 does nothing. -/
theorem tunePoweredOffOnlyPrestages : Obligations.TunePoweredOffOnlyPrestages := by
  intro d s h hready hp p c off
  have H := tuneCheck_checked_off c hp
  have hcheck : tuneCheck c (beforeCheck c s) = beforeCheck c s := tuneCheck_off (by rw [beforeCheck_poweredOn]; exact hp)
  refine ⟨_, exec_tune_accepted h hready, ?_, ?_, ?_, ?_⟩
  · rw [H.trace_unsearched, hp]
    simp only [Bool.false_eq_true, if_false, List.append_nil, prestageEvents, idleFrame, List.append_assoc]
    rfl
  · rw [tuneFinish_store, hcheck, beforeCheck_store]
  · rw [tuneFinish_lockLine, hcheck, beforeCheck_lockLine]
  · rw [tuneFinish_drawn, hcheck, beforeCheck_drawn]

/-- The prestage reads the table, drives the pins and settles after an apply (R172). -/
theorem prestageEvents_kinds (c : Chan) (s : State) :
    ∀ e ∈ prestageEvents c s, (∃ off b, e = .strd off b) ∨ (∃ line level, e = .pin line level) ∨ e = .delay .tApply := by
  intro e he
  simp only [prestageEvents, List.mem_append, List.mem_singleton] at he
  obtain (((hread | hcp) | hflo) | hfhi) | hcal := he
  · exact .inl ⟨_, _, hread⟩
  · exact .inr (.inl (frame_pins _ _ _ hcp))
  · exact .inr (.inl (frame_pins _ _ _ hflo))
  · exact .inr (.inl (frame_pins _ _ _ hfhi))
  · exact .inr (applyEvents_kinds (s.storedCal c) s e hcal)

/-- Settles O27: the first vote is good, so step 6 is its query; no event of the list is a store write or a search settle. -/
theorem tuneLockGoodNeverSearches : Obligations.TuneLockGoodNeverSearches := by
  intro d s h hready hp hcount p c off
  have hvote : s.vote 0 = true := decide_eq_true hcount
  have H := tuneCheck_checked_good c hp hvote
  have hcheck := tuneCheck_good (c := c) (s := beforeCheck c s) (by rw [beforeCheck_poweredOn]; exact hp)
    (by rw [beforeCheck_vote]; exact hvote)
  have htrace := H.trace_unsearched
  rw [hp, if_pos rfl] at htrace
  have hkinds : ∀ e ∈ prestageEvents c s ++ voteEvents (s.samples 50) ++ idleFrame s,
      (∀ off b, e ≠ .stwr off b) ∧ e ≠ .delay .tSearch := by
    intro e he
    obtain (hpre | hsample) | hidle := by simpa only [List.mem_append] using he
    · obtain ⟨_, _, rfl⟩ | ⟨_, _, rfl⟩ | rfl := prestageEvents_kinds c s e hpre <;> simp
    · obtain ⟨_, rfl⟩ | rfl := voteEvents_kinds _ e hsample <;> simp
    · obtain ⟨_, _, rfl⟩ := frame_pins _ _ e hidle
      simp
  refine ⟨_, exec_tune_accepted h hready, ?_, ?_, ?_, ?_, ?_⟩
  · rw [htrace]
    simp only [prestageEvents, idleFrame, List.append_assoc]
    rfl
  · rw [State.since_append htrace]
    exact storeWrites_none _ fun off b hmem => (hkinds _ hmem).1 off b rfl
  · rw [State.since_append htrace]
    exact fun hmem => (hkinds _ hmem).2 rfl
  · rw [tuneFinish_store, hcheck]
    simp
  · rw [tuneFinish_drawn, H.drawn]

end Sys2Proof.Machine
end

section
/-! The nominal delay of a TUNE (spec/43_tuning_engine.md R179, spec/44_calibration.md R208): one apply settle, one query, four
trials. -/

namespace Sys2Proof.Machine

variable {s t u : State} {m n : Nat}

/-- `t` added events to the trace of `s` that wait at most `n` microseconds in all (R8, R339). -/
def AddsDelay (n : Nat) (s t : State) : Prop := ∃ evs, t.trace = s.trace ++ evs ∧ delayTotal evs ≤ n

theorem AddsDelay.refl (n : Nat) (s : State) : AddsDelay n s s := ⟨[], (List.append_nil _).symm, Nat.zero_le n⟩

theorem AddsDelay.trans (h : AddsDelay m s t) (h' : AddsDelay n t u) : AddsDelay (m + n) s u := by
  obtain ⟨xs, hxs, hx⟩ := h
  obtain ⟨ys, hys, hy⟩ := h'
  exact ⟨xs ++ ys, by rw [hys, hxs, List.append_assoc], by rw [delayTotal_append]; exact Nat.add_le_add hx hy⟩

/-- Steps 2 to 5 wait for one apply at most (R172, R201). -/
theorem beforeCheck_addsDelay (c : Chan) (s : State) : AddsDelay 175000 s (beforeCheck c s) := by
  refine ⟨_, by rw [beforeCheck_trace]; simp only [List.append_assoc]; rfl, ?_⟩
  simpa [delayTotal_append, delayTotal_frame, delayTotal] using delayTotal_applyEvents (s.storedCal c) s

/-- A lock query waits 50 sample intervals (R162). -/
theorem lockQuery_addsDelay (s : State) : AddsDelay 125000 s (lockQuery s) :=
  ⟨_, lockQuery_trace s, by rw [delayTotal_voteEvents, State.samples_length]⟩

/-- A search waits for four trials at most (R203, R208). -/
theorem calSearch_addsDelay (c : Chan) (s : State) : AddsDelay 3200000 s (calSearch c Config.sweep s) :=
  calSearch_events c Config.sweep s

/-- Step 6 waits for its query and its search (R172). -/
theorem tuneCheck_addsDelay (c : Chan) (s : State) : AddsDelay 3325000 s (tuneCheck c s) := by
  have hvote : AddsDelay 125000 s (tuneVote (s.putTState .lockCheck)) := lockQuery_addsDelay (s.putTState .lockCheck)
  have hsearch : ∀ u, AddsDelay 3200000 u (tuneSearch c u) := fun u => by
    unfold tuneSearch
    split
    · exact .refl _ u
    · exact calSearch_addsDelay c u
  unfold tuneCheck
  split
  · exact hvote.trans (hsearch _)
  · exact .refl _ s

/-- Step 7 does not wait (R172). -/
theorem tuneFinish_addsDelay (s : State) : AddsDelay 0 s (tuneDone (tuneLower s)) :=
  ⟨_, tuneFinish_trace s, (delayTotal_frame _ _).le⟩

theorem tune_addsDelay (d : Byte) (s : State) : AddsDelay 3500000 s (tune d s) := by
  unfold tune
  split
  · split
    · exact ((beforeCheck_addsDelay _ s).trans (tuneCheck_addsDelay _ _)).trans (tuneFinish_addsDelay _)
    · exact .refl _ s
  · exact .refl _ s

/-- Settles O31: 175 ms before step 6, 3325 ms in it, nothing after it. -/
theorem tuneDelayBounded : Obligations.TuneDelayBounded := by
  intro d s
  obtain ⟨evs, htrace, hdelay⟩ := tune_addsDelay d s
  exact ⟨_, exec_tune d s, by rw [State.since_append htrace]; exact hdelay⟩

end Sys2Proof.Machine
end

section
/-! Calibration apply and its trials (spec/44_calibration.md R201 to R204): CALAPPLY as a whole next state, what makes a second one
necessary, and one trial of the search. -/

namespace Sys2Proof.Machine

variable {s t : State}

/-! ## CALAPPLY (R201) -/

theorem exec_calapply (v : Cal) (s : State) : exec (.calapply v) s = .next (applyCal v s) := rfl

/-- `Set` at the address of a mirrored register as a whole next state (R141). -/
theorem setReg_addrOf (r : RegIdx) (v : Byte) (s : State) :
    setReg (addrOf r) v s =
      { s with
        regs := s.regs.set r.val v
        pins := ⟨v.getLsbD 7, false, false⟩
        dev := s.dev.set r.val (some v)
        trace := s.trace ++ frame (addrOf r) v } := by
  rw [setReg_eq, wireWrite_eq, regsAfter_addrOf]
  simp only [addrOf_toNat]

/-- Settles O32: `ApplyCal` does nothing where the value is active, and else is the write-through and the settle. -/
theorem calapplyResult : Obligations.CalapplyResult := by
  intro v s r b
  rw [exec_calapply, State.activeCal_eq]
  split_ifs with hactive
  · rw [applyCal_active hactive]
  · rw [applyCal_inactive hactive, setReg_addrOf]
    rfl

/-! ## A second CALAPPLY (R202) -/

/-- `ApplyCal` of a value that is not active sends one frame and waits once (R201). -/
theorem applyCal_since {v : Cal} (h : s.activeCal ≠ v) :
    (applyCal v s).since s =
      frame (addrOf s.cfg.params.regCal) ((s.reg s.cfg.params.regCal &&& 0xFC) ||| v.setWidth 8) ++ [.delay .tApply] := by
  rw [State.since_append (applyCal_trace v s), applyEvents, if_neg h]
  rfl

/-- A byte sent through the mirror to the calibration register makes its low two bits the active value (R95). -/
theorem setReg_cal_activeCal (x : Byte) (s : State) :
    (setReg (addrOf s.cfg.params.regCal) x s).activeCal = x.setWidth 2 := by
  rw [← State.activeCal_eq, setReg_cfg, setReg_reg, if_pos rfl]

/-- CALAPPLY sees a byte that `Set` has put in the calibration register: where its field differs, one frame with its upper bits, one
settle (R202). -/
theorem applyCal_since_setReg_cal {v : Cal} {x : Byte} (h : x.setWidth 2 ≠ v) :
    (applyCal v (setReg (addrOf s.cfg.params.regCal) x s)).since (setReg (addrOf s.cfg.params.regCal) x s) =
      frame (addrOf s.cfg.params.regCal) ((x &&& 0xFC) ||| v.setWidth 8) ++ [.delay .tApply] := by
  rw [applyCal_since (by rwa [setReg_cal_activeCal]), setReg_cfg, setReg_reg, if_pos rfl]

/-- A bare frame leaves the active value: the mirror is not written (R122). -/
theorem wireWrite_activeCal (a : Addr) (b : Byte) (s : State) : (wireWrite a b s).activeCal = s.activeCal :=
  State.activeCal_congr (wireWrite_cfg a b s) (wireWrite_regs a b s)

theorem exec_setbits_addrOf (r : RegIdx) (d : Byte) (s : State) :
    exec (.setbits (addrOf r) d) s = .next (setReg (addrOf r) (s.reg r ||| d) s) := by
  rw [exec_setbits (by rw [addrOf_toNat]; exact r.isLt)]
  simp only [addrOf_toNat, State.reg]

theorem exec_clrbits_addrOf (r : RegIdx) (d : Byte) (s : State) :
    exec (.clrbits (addrOf r) d) s = .next (setReg (addrOf r) (s.reg r &&& ~~~d) s) := by
  rw [exec_clrbits (by rw [addrOf_toNat]; exact r.isLt)]
  simp only [addrOf_toNat, State.reg]

/-- Settles O33: CALAPPLY leaves its value active, so only what changes the mirrored field makes the next one send: SET, SETBITS and
CLRBITS through `Set`, and not WRREG. -/
theorem calapplyIdempotent : Obligations.CalapplyIdempotent := by
  intro v s t h r sent
  obtain rfl := next_inj h
  have hactive : (applyCal v s).activeCal = v := applyCal_activeCal v s
  have hcal : r = (applyCal v s).cfg.params.regCal := by rw [applyCal_cfg]
  refine ⟨?_, fun hv => applyCal_active hv, fun hv => applyCal_since hv, ?_, ?_⟩
  · rw [exec_calapply, applyCal_active hactive]
  · intro b x i u hi hu hx
    have hset : exec i (applyCal v s) = .next (setReg (addrOf r) x (applyCal v s)) := by
      obtain ⟨rfl, rfl⟩ | ⟨rfl, rfl⟩ | ⟨rfl, rfl⟩ := hi
      · exact exec_set _ _ _
      · exact exec_setbits_addrOf r b _
      · exact exec_clrbits_addrOf r b _
    obtain rfl := next_inj (hset.symm.trans hu)
    refine ⟨_, exec_calapply v _, ?_⟩
    simp only [sent, hcal]
    exact applyCal_since_setReg_cal hx
  · intro b u hu
    obtain rfl := next_inj (s := wireWrite (addrOf r) b (applyCal v s)) hu
    rw [exec_calapply, applyCal_active (by rw [wireWrite_activeCal, hactive])]

/-! ## A trial (R203, R204) -/

/-- Settles O30: the events of a trial are those of its apply, its settle and its vote. -/
theorem trialSettlesThenVotes : Obligations.TrialSettlesThenVotes := by
  intro v s p
  refine ⟨trial_trace v s, trial_activeCal v s, ?_, trial_store v s⟩
  rw [trial_session, State.vote_zero]
  rfl

end Sys2Proof.Machine
end

section
/-! A TUNE whose first query and four trials all fail (spec/44_calibration.md R206): step 6 is the four trials of the sweep, with
nothing committed. -/

namespace Sys2Proof.Machine

variable {c : Chan} {s t : State}

/-- A search whose four trials fail commits nothing (R206). -/
theorem State.winner_eq_none {k : Nat} (h : ∀ j < 4, s.vote (k + j) = false) : s.winner k = none := by
  have h0 : s.vote k = false := h 0 (by decide)
  simp [State.winner, h0, h 1, h 2, h 3]

/-- Step 6 where every query fails: the four trials, and no commit (R206). -/
theorem tuneCheck_all_fail (c : Chan) (hp : s.poweredOn = true) (hfail : ∀ k < 5, s.vote k = false) :
    tuneCheck c (beforeCheck c s) = sweptTo 4 (searchStart c s) := by
  have hlost : ∀ j < 4, (searchStart c s).vote (0 + j) = false := fun j hj => by
    rw [Nat.zero_add, State.vote_shift (s := s) (by simp [searchStart]) (by simp [searchStart])]
    exact hfail (j + 1) (by omega)
  rw [tuneCheck_bad (by rw [beforeCheck_poweredOn]; exact hp) (by rw [beforeCheck_vote]; exact hfail 0 (by decide)),
    ← searchStart, calSearch_sweep, State.winner_eq_none hlost]

/-- The trials of a search store nothing (R203). -/
theorem sweptTo_addsWrites (n : Nat) (s : State) : AddsWrites 0 s (sweptTo n s) := by
  induction n with
  | zero => exact .refl s
  | succ n ih => exact ih.trans (trial_addsWrites _ _)

/-- Nothing is stored between step 5 and the first trial (R172). -/
theorem searchStart_addsWrites (c : Chan) (s : State) : AddsWrites 0 (beforeCheck c s) (searchStart c s) :=
  lockQuery_addsWrites ((beforeCheck c s).putTState .lockCheck)

theorem AddsWrites.storeWrites_since (h : AddsWrites 0 s t) : storeWrites (t.since s) = 0 := by
  obtain ⟨evs, htrace, hevs⟩ := h
  rw [State.since_append htrace]
  exact Nat.le_zero.mp hevs

/-- Step 7 leaves the active calibration value (R172). -/
theorem tuneFinish_activeCal (s : State) : (tuneDone (tuneLower s)).activeCal = s.activeCal := by
  obtain ⟨-, -, hne, -, -, -⟩ := Config.tuned_roles_distinct s.cfg
  rw [State.activeCal, State.activeCal, tuneFinish_cfg, tuneFinish_reg, if_neg hne.symm]

/-- A response event is emitted by a response only. -/
theorem Kind.eq_rsp_of_emits_rsp {k : Kind} {b : Byte} (h : k.emits (.rsp b)) : k = .rsp := by
  cases k <;> simp_all [Kind.emits]

/-- A TUNE reports nothing (R100). -/
theorem exec_tune_no_response {d : Byte} (h : exec (.tune d) s = .next t) (b : Byte) : Event.rsp b ∉ t.since s := by
  intro hmem
  obtain ⟨k, hkind, hemits⟩ := (exec_events h).2 _ hmem
  obtain rfl := Kind.eq_rsp_of_emits_rsp hemits
  simp [kindsOf] at hkind

/-- Settles O28: step 6 is four trials, the last of which leaves value 0 active; none of them stores anything. -/
theorem tuneAllTrialsFail : Obligations.TuneAllTrialsFail := by
  intro d s h hready hp hfail
  have hexec := exec_tune_accepted h hready
  rw [tuneCheck_all_fail _ hp hfail] at hexec
  generalize (⟨d.toNat, h⟩ : Chan) = c at hexec
  have W : Swept c none 4 s (sweptTo 4 (searchStart c s)) := sweptTo_swept c none s
  have hwrites : AddsWrites 0 s (tuneDone (tuneLower (sweptTo 4 (searchStart c s)))) :=
    (((beforeCheck_addsWrites c s).trans (searchStart_addsWrites c s)).trans (sweptTo_addsWrites 4 _)).trans
      (tuneFinish_addsWrites _)
  refine ⟨_, hexec, ?_, ?_, hwrites.storeWrites_since, exec_tune_no_response hexec, ?_⟩
  · rw [tuneFinish_activeCal]
    exact trial_activeCal 0 _
  · rw [tuneFinish_store, W.store]
  · rw [tuneFinish_drawn, W.drawn]

end Sys2Proof.Machine
end

section
/-! The store commands on one channel and the bring-up flag (spec/45_persistent_store.md R234, R235, R238, R239): CALRD is `CalRead`
and a response, CALWR is `CalWrite`, each by its word and its whole next state. -/

namespace Sys2Proof.Machine

variable {d : Byte} {s : State}

/-! ## The operands -/

theorem chanOf_eq_some (hd : d.toNat < 103) : chanOf d = some ⟨d.toNat, hd⟩ := dif_pos hd

theorem chanOf_ofNat (c : Chan) : chanOf (BitVec.ofNat 8 c.val) = some c := by
  have hc : (BitVec.ofNat 8 c.val).toNat = c.val := Nat.mod_eq_of_lt (by omega)
  simp [chanOf, hc]

/-- A word whose `a` is zero, as R104 writes it. -/
theorem word_zero_eq_shiftLeft_or (op : BitVec 4) (d : Byte) : word op 0 d = (op.setWidth 16 <<< 12) ||| d.setWidth 16 := by
  simp [word_eq_shiftLeft_or]

/-! ## The fields of a packed byte (R63) -/

/-- The field of a channel, zero-extended: the shifted byte under the mask 3 (R65). -/
theorem calField_setWidth (c : Chan) (b : Byte) : (calField c b).setWidth 8 = (b >>> (2 * (c.val % 4))) &&& 3 := by
  rw [calField_eq]
  generalize b >>> (2 * (c.val % 4)) = x
  have hmask : (x &&& 3).toNat = x.toNat % 4 := Nat.and_two_pow_sub_one_eq_mod x.toNat 2
  apply BitVec.eq_of_toNat_eq
  rw [BitVec.toNat_setWidth, BitVec.toNat_setWidth, hmask]
  omega

/-- The two top bits of a packed byte are the field of every channel with remainder 3, so of channel 3. -/
theorem shiftRight_six_eq_calField (b : Byte) : b >>> 6 = (calField 3 b).setWidth 8 := by
  have hsmall : (b >>> 6).toNat < 2 ^ 2 := by
    rw [BitVec.toNat_ushiftRight, Nat.shiftRight_eq_div_pow]
    omega
  exact (setWidth_extractLsb'_low (b >>> 6) hsmall).symm

/-! ## CALRD and CALWR -/

theorem exec_calrd {c : Chan} (hc : chanOf d = some c) (s : State) :
    exec (.calrd d) s = .next (respond ((s.storedCal c).setWidth 8) (calRead c s).2) := by
  simp [exec, execCalrd, hc, calRead_eq]

theorem exec_calwr {c : Chan} (hc : chanOf d = some c) (v : Cal) (s : State) :
    exec (.calwr v d) s = .next (calWrite c v s) := by
  simp [exec, execCalwr, hc]

/-- Settles O35: `calRead_eq`, then the response. -/
theorem calrdResult : Obligations.CalrdResult := by
  intro d s hd off
  have hword : encode (.calrd d) = 0xA000 ||| d.setWidth 16 := word_zero_eq_shiftLeft_or 10 d
  rw [← hword]
  refine ⟨decode_encode (.calrd d) (decide_eq_true hd), ?_⟩
  rw [exec_calrd (chanOf_eq_some hd), calRead_eq, State.storedCal, calField_setWidth, calOff_eq]
  simp [respond, State.emit, off]

/-- Settles O36: `calWrite_eq`, and what the store reads as after it. -/
theorem calwrResult : Obligations.CalwrResult := by
  intro v d s hd hw off b
  have hdecode : decode (0xB000 ||| (v.setWidth 16 <<< 8) ||| d.setWidth 16) = .ok (.calwr v d) := by
    have hv : (v.setWidth 4).setWidth 16 = v.setWidth 16 := BitVec.setWidth_setWidth (by decide)
    rw [← hv]
    exact decode_shiftLeft_or (op := 11) rfl (decide_eq_true hd)
  have hpacked : packed s ⟨d.toNat, hd⟩ v = b := calInsert_eq ..
  have hbyte := calWrite_storeByte ⟨d.toNat, hd⟩ v s hw.1
  refine ⟨hdecode, _, exec_calwr (chanOf_eq_some hd) v s, calOff_eq .., ?_, fun a ha => ?_, ?_⟩
  · rw [hbyte, if_pos rfl, hpacked]
  · rw [hbyte, if_neg ha]
  · rw [calWrite_eq, hpacked]

/-- `CalWrite` keeps the pad bits of byte 25: no channel has its field there (R62, R239). -/
theorem calWrite_pad (c : Chan) (v : Cal) (hw : s.StoreWf) :
    (calWrite c v s).storeByte (s.cfg.params.calBase + 25) >>> 6 = s.storeByte (s.cfg.params.calBase + 25) >>> 6 := by
  rw [calWrite_storeByte c v s hw.1]
  split_ifs with hoff
  · have hfield : c.val % 4 ≠ 3 := by rw [calOff_eq] at hoff; omega
    rw [packed, ← hoff, shiftRight_six_eq_calField, calField_calInsert_other c 3 v _ hfield, ← shiftRight_six_eq_calField]
  · rfl

/-- Settles O37: the marker is outside the table, and the pad field is no channel's. -/
theorem calwrRoundTrip : Obligations.CalwrRoundTrip := by
  intro v c s hw
  refine ⟨_, exec_calwr (chanOf_ofNat c) v s, calWrite_storedCal c v s hw.1, ?_, calWrite_pad c v hw⟩
  refine calWrite_storeByte_other c v s _ fun hmarker => ?_
  have houtside := Config.marker_outside_table s.cfg
  have htable := Config.calOff_table s.cfg c
  omega

/-! ## SETRDY -/

/-- Settles O40: the word has `a` zero and the flag for `d`, and the command is the write of `READY`. -/
theorem setrdyResult : Obligations.SetrdyResult := by
  intro f s
  have hword : encode (.setrdy f) = 0xD000 ||| (BitVec.ofBool f).setWidth 16 := by
    have hf : ((BitVec.ofBool f).setWidth 8).setWidth 16 = (BitVec.ofBool f).setWidth 16 :=
      BitVec.setWidth_setWidth (by decide)
    rw [← hf]
    exact word_zero_eq_shiftLeft_or 13 _
  rw [← hword]
  exact ⟨decode_encode (.setrdy f) rfl, rfl⟩

end Sys2Proof.Machine
end

section
/-! STINIT (spec/45_persistent_store.md R236, R237): trust on a valid marker, the reset procedure on a mismatched one. -/

namespace Sys2Proof.Machine

variable {s : State}

/-! ## The default table (R67) -/

/-- Of four two-bit fields packed into a byte each is read back: at its two places the other three have no bit (R63, R67). -/
theorem field_of_four (w x y z : Cal) (r : Fin 4) :
    ((w.setWidth 8 ||| x.setWidth 8 <<< 2 ||| y.setWidth 8 <<< 4 ||| z.setWidth 8 <<< 6 : Byte) >>> (2 * r.val)).setWidth 2 =
      ![w, x, y, z] r := by
  fin_cases r <;> ext i hi <;> interval_cases i <;> simp

/-- A field of a default byte is the default of its number, pad field included (R67). -/
theorem calField_defByte (p : Params) (c : Chan) (k : Nat) : calField c (defByte p k) = defCal p (4 * k + c.val % 4) := by
  have hr : c.val % 4 < 4 := Nat.mod_lt _ (by decide)
  rw [calField_eq, defByte, field_of_four _ _ _ _ ⟨c.val % 4, hr⟩]
  generalize c.val % 4 = r at hr
  interval_cases r <;> rfl

/-- The number 103 of the pad field is in the top band (R67, D11). -/
theorem defCal_pad (c : Config) : defCal c.params 103 = 0 := by
  obtain ⟨-, -, -, hb0⟩ := Config.bands c
  exact if_pos hb0

/-- Channel 0 is in the bottom band (R67). -/
theorem defCal_zero (c : Config) : defCal c.params 0 = 3 := by
  obtain ⟨hb2, hb1, hb0, -⟩ := Config.bands c
  rw [defCal, if_neg (by omega), if_neg (by omega), if_neg (by omega)]

theorem defByte_pad (c : Config) : defByte c.params 25 >>> 6 = 0 := by
  have hpad : calField 3 (defByte c.params 25) = 0 := (calField_defByte _ 3 25).trans (defCal_pad c)
  rw [shiftRight_six_eq_calField, hpad]
  rfl

/-! ## The reset procedure (R237) -/

/-- The store after `StReset`: the default bytes in the table, the marker, and every other byte as it was. -/
theorem stReset_storeByte (hw : s.StoreWf) (off : Nat) :
    (stReset s).storeByte off =
      if s.cfg.params.calBase ≤ off ∧ off < s.cfg.params.calBase + 26 then defByte s.cfg.params (off - s.cfg.params.calBase)
      else if off = s.cfg.params.markerOff then s.cfg.params.markerVal else s.storeByte off := by
  have hmarked := Memory.wf_write (v := s.cfg.params.markerVal) hw (Config.marker_inside s.cfg)
  obtain ⟨-, hbytes, -⟩ :=
    writeDefaults_spec Config.calBytes 0 (memWrite s.cfg.params.markerOff s.cfg.params.markerVal s) hmarked.1
  have hmarker : (memWrite s.cfg.params.markerOff s.cfg.params.markerVal s).storeByte off =
      if off = s.cfg.params.markerOff then s.cfg.params.markerVal else s.storeByte off :=
    State.storeByte_putStore s _ _ _ hw.1
  rw [stReset, hbytes, hmarker]
  rfl

/-- `StReset` as a whole next state: store and trace, the marker first and the table in ascending order. -/
theorem stReset_eq (hw : s.StoreWf) :
    stReset s =
      { s with
        store := (stReset s).store
        trace := s.trace ++ .stwr s.cfg.params.markerOff s.cfg.params.markerVal ::
          (List.range 26).map fun k => .stwr (s.cfg.params.calBase + k) (defByte s.cfg.params k) } := by
  have hmarked := Memory.wf_write (v := s.cfg.params.markerVal) hw (Config.marker_inside s.cfg)
  obtain ⟨-, -, hstate⟩ :=
    writeDefaults_spec Config.calBytes 0 (memWrite s.cfg.params.markerOff s.cfg.params.markerVal s) hmarked.1
  exact hstate.trans (by simp [stReset, Config.calBytes])

/-! ## STINIT (R236) -/

theorem exec_stinit (s : State) :
    exec .stinit s = .next
      (if s.StoreValid then (memRead s.cfg.params.markerOff s).2 else stReset (memRead s.cfg.params.markerOff s).2) := rfl

/-- Settles O38: the command is the read of the marker alone. -/
theorem stinitTrustsValidMarker : Obligations.StinitTrustsValidMarker := by
  intro s h
  have hmarker : s.storeByte s.cfg.params.markerOff = s.cfg.params.markerVal := h
  rw [exec_stinit, if_pos h, ← hmarker]
  rfl

/-- Settles O39: the command is the read of the marker and `StReset`; `band` and `byte` of the statement are `defCal` and `defByte`. -/
theorem stinitResetsInvalidStore : Obligations.StinitResetsInvalidStore := by
  intro s hw h p band byte
  have hband : band = defCal p := rfl
  have hdef : byte = defByte p := rfl
  clear_value byte band
  subst hband hdef
  have hbyte : ∀ off, (stReset (memRead p.markerOff s).2).storeByte off =
      if p.calBase ≤ off ∧ off < p.calBase + 26 then defByte p (off - p.calBase)
      else if off = p.markerOff then p.markerVal else s.storeByte off :=
    stReset_storeByte (s := (memRead p.markerOff s).2) hw
  have hstate := stReset_eq (s := (memRead p.markerOff s).2) hw
  have hexec := exec_stinit s
  rw [if_neg h] at hexec
  generalize stReset (memRead p.markerOff s).2 = t at hbyte hstate hexec
  have hcfg : t.cfg = s.cfg := by rw [hstate, memRead_cfg]
  have htable : ∀ k < 26, t.storeByte (p.calBase + k) = defByte p k := fun k hk => by
    rw [hbyte, if_pos (by omega), Nat.add_sub_cancel_left]
  have hother : ∀ off, off < p.calBase ∨ p.calBase + 25 < off →
      t.storeByte off = if off = p.markerOff then p.markerVal else s.storeByte off := fun off hoff => by
    rw [hbyte, if_neg (by omega)]
  have hcal : ∀ c : Chan, t.storedCal c = defCal p c.val := fun c => by
    rw [State.storedCal, hcfg, calOff_eq, htable _ (by omega), calField_defByte, Nat.div_add_mod]
  refine ⟨t, hexec, ?_, hcal, (hcal 0).trans (defCal_zero s.cfg), htable, ?_, fun off hmarker hoff => ?_, ?_⟩
  · rw [State.StoreValid, hcfg, hother _ (Config.marker_outside_table s.cfg), if_pos rfl]
  · rw [htable 25 (by decide), defByte_pad]
  · rw [hother off hoff, if_neg hmarker]
  · simpa using hstate

end Sys2Proof.Machine
end

section
/-! The surrounding software on the power bits and the channel (spec/46_host_wrappers.md R260 to R269): `goOffline`, each channel
operation as the `setChannel` it comes to, or as nothing, and `setChannel` as a served TUNE with what it does to `CUR_CHAN`. -/

namespace Sys2Proof.Machine

variable {n f : Nat} {c : Chan} {d : Byte} {s t : State}

/-! ## `goOffline` (R268) -/

/-- A device whose registers hold what the writes of `goOffline` make of them is powered off (R268). -/
theorem poweredOff_of_offline (hcfg : t.cfg = s.cfg) (hreg : ∀ r, t.reg r = regAfter s.cfg.params.host.offline r (s.reg r)) :
    t.poweredOn = false := by
  rw [State.poweredOn, hcfg, hreg, bne_eq_false_iff_eq]
  exact (Config.host_power s.cfg _).1

/-- Settles O55: the register writes complete, and leave in `REG_PWR` what the constraint on them says. -/
theorem goOfflinePowersOff : Obligations.GoOfflinePowersOff := by
  intro s
  obtain ⟨t, hnext, hcfg, -, -, hreg⟩ := issueWrites_spec s.cfg.params.host.offline s
  exact ⟨t, hnext, poweredOff_of_offline hcfg hreg⟩

/-! ## A served TUNE (R171, R262) -/

/-- What a served TUNE answers. -/
def servedTune (d : Byte) (s : State) : State := (tune d (s.putBusy true)).putBusy false

theorem serve_tune (d : Byte) (s : State) : serve (.tune d) s = .next (servedTune d s) := rfl

/-- TUNE is no SETRDY, so it keeps `READY` (R26). -/
theorem tune_ready (d : Byte) (s : State) : (tune d s).ready = s.ready := by
  by_contra hne
  obtain ⟨f, hf⟩ := readyWrittenOnlyBySetrdy _ _ _ (exec_tune d s) hne
  cases hf

@[simp] theorem servedTune_ready (d : Byte) (s : State) : (servedTune d s).ready = s.ready := tune_ready d _

/-- With `READY = 0` a served TUNE only ends with `BUSY = 0` (R171). -/
theorem servedTune_of_not_ready (hready : s.ready = false) : servedTune d s = { s with busy := false } := by
  have hrejected : tune d (s.putBusy true) = s.putBusy true := tune_rejected (.inl hready)
  rw [servedTune, hrejected]
  rfl

/-! ## `setChannel` (R260, R262) and `setFrequency` (R263) -/

theorem setChannel_eq (h : n < 103) (s : State) :
    setChannel n s = .next (if s.ready then (servedTune (BitVec.ofNat 8 n) s).putCurChan ⟨n, h⟩
      else servedTune (BitVec.ofNat 8 n) s) := by
  rw [setChannel, dif_pos h, serve_tune, andThen_next, servedTune_ready]

theorem setChannel_of_ready (h : n < 103) (hready : s.ready = true) :
    setChannel n s = .next ((servedTune (BitVec.ofNat 8 n) s).putCurChan ⟨n, h⟩) := by
  rw [setChannel_eq h, if_pos hready]

theorem setChannel_of_not_ready (h : n < 103) (hready : s.ready = false) :
    setChannel n s = .next { s with busy := false } := by
  rw [setChannel_eq h, servedTune_of_not_ready hready, hready]
  rfl

theorem setChannel_out_of_range (h : 103 ≤ n) (s : State) : setChannel n s = .next s := dif_neg (by omega)

/-- From 875 on, `setFrequency` is `setChannel` of the channel the division gives (R263). -/
theorem setFrequency_of_le (hf : 875 ≤ f) (s : State) : setFrequency f s = setChannel ((f - 875) / 2) s :=
  if_neg (Nat.not_lt.mpr hf)

theorem setFrequency_below (hf : f < 875) (s : State) : setFrequency f s = .next s := if_pos hf

theorem setFrequency_even (n : Nat) (s : State) : setFrequency (875 + 2 * n) s = setChannel n s := by
  rw [setFrequency_of_le (by omega), show (875 + 2 * n - 875) / 2 = n by omega]

/-- The odd step above a channel's frequency is dropped by the division (R263). -/
theorem setFrequency_odd (n : Nat) (s : State) : setFrequency (876 + 2 * n) s = setChannel n s := by
  rw [setFrequency_of_le (by omega), show (876 + 2 * n - 875) / 2 = n by omega]

/-- `getFrequency` reads the channel just written (R264). -/
theorem getFrequency_putCurChan (c : Chan) (s : State) : getFrequency (s.putCurChan c) = .ok (875 + 2 * c.val) := rfl

/-! ## `channelUp` and `channelDown` (R265) -/

theorem channelUp_below_top (hcur : s.curChan = some c) (hc : c.val < 102) : channelUp s = setChannel (c.val + 1) s := by
  simp only [channelUp, hcur, if_pos hc]

theorem channelUp_at_top (hcur : s.curChan = some 102) : channelUp s = .next s := by
  simp only [channelUp, hcur]
  rfl

theorem channelDown_above_bottom (hcur : s.curChan = some c) (hc : 0 < c.val) : channelDown s = setChannel (c.val - 1) s := by
  simp only [channelDown, hcur, if_pos hc]

theorem channelDown_at_bottom (hcur : s.curChan = some 0) : channelDown s = .next s := by
  simp only [channelDown, hcur]
  rfl

/-- With no value in `CUR_CHAN` the three operations that read it are refused (R261). -/
theorem channel_reads_refused (hcur : s.curChan = none) :
    getFrequency s = .error .noCurrentChannel ∧ channelUp s = .refused .noCurrentChannel ∧
    channelDown s = .refused .noCurrentChannel := by
  simp only [getFrequency, channelUp, channelDown, hcur, and_self]

/-! ## The obligations -/

/-- Settles O57: `setFrequency`, `channelUp` and `channelDown` are each a `setChannel`, and that is a served TUNE and, with
`READY = 1`, the write of `CUR_CHAN`. -/
theorem channelOperations : Obligations.ChannelOperations := by
  refine ⟨fun n s h hready => ?_, fun n s h hready => ?_, fun c s hready hcur => ⟨fun hc => ?_, fun hc => ?_⟩,
    fun c s hready hcur => ⟨fun hc => ?_, fun hc => ?_⟩, fun s => channel_reads_refused⟩
  · have hset := setChannel_of_ready h hready
    exact ⟨servedTune (BitVec.ofNat 8 n) s, _, serve_tune _ s, rfl, hset, getFrequency_putCurChan ⟨n, h⟩ _,
      (setFrequency_even n s).trans hset, (setFrequency_odd n s).trans hset⟩
  · have hset := setChannel_of_not_ready h hready
    exact ⟨hset, (setFrequency_even n s).trans hset, (setFrequency_odd n s).trans hset⟩
  · have hset := setChannel_of_ready (n := c.val + 1) (by omega) hready
    refine ⟨_, (channelUp_below_top hcur hc).trans hset, hset, (getFrequency_putCurChan _ _).trans (congrArg _ ?_)⟩
    change 875 + 2 * (c.val + 1) = _
    omega
  · have hset := setChannel_of_ready (n := c.val - 1) (by omega) hready
    refine ⟨_, (channelDown_above_bottom hcur hc).trans hset, hset, (getFrequency_putCurChan _ _).trans (congrArg _ ?_)⟩
    change 875 + 2 * (c.val - 1) = _
    omega
  · exact (channelUp_below_top hcur hc).trans (setChannel_of_not_ready (by omega) hready)
  · exact (channelDown_above_bottom hcur hc).trans (setChannel_of_not_ready (by omega) hready)

/-- Settles O58: the argument or the channel is outside the range each operation tests for. -/
theorem wrapperClampsAreNoOps : Obligations.WrapperClampsAreNoOps := by
  refine ⟨fun n s h => setChannel_out_of_range h s, fun f s h => ?_, fun s => channelUp_at_top, fun s => channelDown_at_bottom,
    fun n s h => dif_neg (by omega), fun n s h => dif_neg (by omega)⟩
  obtain hlow | hhigh := h
  · exact setFrequency_below hlow s
  · rw [setFrequency_of_le (by omega)]
    exact setChannel_out_of_range (by omega) s

end Sys2Proof.Machine
end

section
/-! What a command answers (spec/60_exceptions.md R290) and what a step with no command does (spec/70_reset_and_hazards.md R323). -/

namespace Sys2Proof.Machine

/-- Settles O8: the first case of `step`. -/
theorem stepWithoutCommandIdles : Obligations.StepWithoutCommandIdles := by
  intro s hcommands
  rw [step, hcommands]

/-- A well-formed command answers a next state: the operand that `wellFormed` bounds has a mirror element or a channel, and the other
commands have nothing to refuse (R99, R290). -/
theorem exec_of_wellFormed {i : Instr} (h : wellFormed i = true) (s : State) : ∃ t, exec i s = .next t := by
  cases i with
  | get a => exact ⟨_, exec_get (of_decide_eq_true h) s⟩
  | setbits a d => exact ⟨_, exec_setbits (of_decide_eq_true h) d s⟩
  | clrbits a d => exact ⟨_, exec_clrbits (of_decide_eq_true h) d s⟩
  | calrd d => exact ⟨_, exec_calrd (chanOf_eq_some (of_decide_eq_true h)) s⟩
  | calwr v d => exact ⟨_, exec_calwr (chanOf_eq_some (of_decide_eq_true h)) v s⟩
  | _ => exact ⟨_, rfl⟩

/-- A refused command is the command of no word: a word decodes to well-formed commands only (R101). -/
theorem decode_ne_of_refused {i : Instr} {s : State} {r : Refusal} (h : exec i s = .refused r) (w : CmdWord) :
    decode w ≠ .ok i := by
  intro hdecode
  obtain ⟨t, hnext⟩ := exec_of_wellFormed (encode_of_decode hdecode).1 s
  rw [h] at hnext
  cases hnext

/-- Settles O9: `exec_of_wellFormed`, no reason for a fault, and `decode_ne_of_refused`. -/
theorem definedCommandsComplete : Obligations.DefinedCommandsComplete :=
  ⟨fun _ s h => exec_of_wellFormed h s, fun _ _ => nofun, fun _ _ _ => decode_ne_of_refused⟩

end Sys2Proof.Machine
end

section
/-! Bring-up (spec/70_reset_and_hazards.md R326) in its four parts: bus reset and STINIT, the nine SETs, the device commands, SETRDY. -/

namespace Sys2Proof.Machine

variable {s t : State}

/-- A command that answers a next state is served, with `BUSY = 0` at the end (R28). -/
theorem serve_of_exec {i : Instr} (h : exec i (s.putBusy true) = .next t) : serve i s = .next (t.putBusy false) := by
  rw [serve, h]

theorem State.StoreValid.congr (hs : s.StoreValid) (hcfg : t.cfg = s.cfg) (hstore : t.store = s.store) : t.StoreValid := by
  unfold State.StoreValid
  rw [State.storeByte_congr hcfg hstore, hcfg]
  exact hs

/-- STINIT leaves the marker valid, trusted or just written (R236, R237). -/
theorem exec_stinit_storeValid (hw : s.StoreWf) : ∃ t, exec .stinit s = .next t ∧ t.StoreValid := by
  by_cases hvalid : s.StoreValid
  · exact ⟨_, stinitTrustsValidMarker s hvalid, hvalid⟩
  · obtain ⟨t, hnext, hmarker, -⟩ := stinitResetsInvalidStore s hw hvalid
    exact ⟨t, hnext, hmarker⟩

/-- The bus reset leaves the store as it was, so the STINIT after it finds the canonical form it needs. -/
theorem issueAll_rstbus_stinit (hw : s.StoreWf) : ∃ t, issueAll [.rstbus, .stinit] s = .next t ∧ t.StoreValid := by
  have hbus : (pinWrites busReset (s.putBusy true)).StoreWf := (Micro.bus (s.putBusy true)).keeps_storeWf hw
  obtain ⟨t, hstinit, hvalid⟩ :=
    exec_stinit_storeValid (s := ((pinWrites busReset (s.putBusy true)).putBusy false).putBusy true) hbus
  refine ⟨t.putBusy false, ?_, hvalid⟩
  rw [issueAll, serve_of_exec (t := pinWrites busReset (s.putBusy true)) rfl, andThen_next, issueAll, serve_of_exec hstinit]
  rfl

/-- SETRDY 1, served, writes `READY` and nothing else that a claim after bring-up reads (R238). -/
theorem issueAll_setrdy (s : State) : issueAll [.setrdy true] s = .next { s with ready := true, busy := false } := rfl

/-- Settles O56: STINIT makes the marker valid, the nine SETs the mirror, the device commands touch neither, and SETRDY ends it. -/
theorem bringUpEstablishesPremises : Obligations.BringUpEstablishesPremises := by
  intro vals device s hw habove
  obtain ⟨s₁, hreset, hvalid⟩ := issueAll_rstbus_stinit hw
  obtain ⟨s₂, hpush, hcfg₂, hstore₂, -, hvals, hmirror, -⟩ := issueAll_pushAll vals s₁
  obtain ⟨s₃, hsets, hcfg₃, hstore₃, hregs₃, hdev₃⟩ := issueAll_deviceSets device s₂ habove
  have hrun : bringUp vals device s = .next { s₃ with ready := true, busy := false } := by
    rw [bringUp, bringUpCommands, issueAll_append, issueAll_append, issueAll_append, hreset, andThen_next, hpush, andThen_next,
      hsets, andThen_next, issueAll_setrdy]
  have hvalid₃ : s₃.StoreValid := hvalid.congr (hcfg₃.trans hcfg₂) (hstore₃.trans hstore₂)
  have hmirror₃ : s₃.MirrorTrue := fun r => by rw [hdev₃, hmirror, State.reg_congr hregs₃]
  exact ⟨_, hrun, rfl, hvalid₃, hmirror₃, hregs₃.trans hvals⟩

end Sys2Proof.Machine
end

section
/-! Power loss inside the store reset (spec/70_reset_and_hazards.md R334, R336): after the read and the write of the marker, the first
two events, the marker is valid over the table as it was. -/

namespace Sys2Proof.Machine

variable {s t : State}

/-- A power loss leaves the configuration (R9). -/
theorem powerLoss_cfg {deviceToo : Bool} {i : Instr} {n : Nat} (h : powerLoss deviceToo i n s = .next t) : t.cfg = s.cfg := by
  unfold powerLoss at h
  split at h
  · obtain rfl := next_inj h
    cases deviceToo <;> rfl
  · cases h
  · cases h

/-- On a mismatched marker STINIT first reads it and then writes it (R236, R237). -/
theorem exec_stinit_first_events (hw : s.StoreWf) (hmarker : ¬ s.StoreValid) :
    ∃ u, exec .stinit s = .next u ∧ (u.since s).take 2 =
      [.strd s.cfg.params.markerOff (s.storeByte s.cfg.params.markerOff), .stwr s.cfg.params.markerOff s.cfg.params.markerVal] := by
  have hexec := exec_stinit s
  rw [if_neg hmarker] at hexec
  have htrace := congrArg State.trace (stReset_eq (s := (memRead s.cfg.params.markerOff s).2) hw)
  rw [memRead_trace, List.append_assoc] at htrace
  refine ⟨_, hexec, ?_⟩
  rw [State.since_append htrace]
  rfl

/-- The store after a power loss between the marker's write and the table's first: the valid marker, every other byte as it was. -/
theorem powerLoss_after_marker_storeByte (deviceToo : Bool) (hw : s.StoreWf) (hmarker : ¬ s.StoreValid) :
    ∃ t, powerLoss deviceToo .stinit 2 s = .next t ∧ t.cfg = s.cfg ∧ ∀ off, t.storeByte off =
      if off = s.cfg.params.markerOff then s.cfg.params.markerVal else s.storeByte off := by
  obtain ⟨u, hexec, hevents⟩ := exec_stinit_first_events hw hmarker
  obtain ⟨t, hloss, hstore⟩ := powerLoss_store deviceToo 2 hexec
  rw [hevents] at hstore
  have hcfg := powerLoss_cfg hloss
  refine ⟨t, hloss, hcfg, fun off => ?_⟩
  rw [State.storeByte_congr (s := s.putStore s.cfg.params.markerOff s.cfg.params.markerVal) hcfg hstore]
  exact State.storeByte_putStore s _ _ _ hw.1

/-- Power-on under `CFG_TEST` with every store byte 0xFF (R10): a mismatched marker over a table that reads 3 everywhere. -/
def allOnesStore : State := .powerOn (.cfgTest Params.blankStore rfl)

theorem allOnesStore_storeWf : allOnesStore.StoreWf := ⟨.nil, fun _ hc => absurd hc List.not_mem_nil⟩

/-- Settles O60: from `allOnesStore`, power lost after the marker's write leaves channel 102 its 3, where the default is 0. -/
theorem storeResetIsNotAtomic : Obligations.StoreResetIsNotAtomic := by
  have hmarker : ¬ allOnesStore.StoreValid := by decide
  obtain ⟨t, hloss, hcfg, hbyte⟩ := powerLoss_after_marker_storeByte false allOnesStore_storeWf hmarker
  refine ⟨2, allOnesStore, t, 102, allOnesStore_storeWf, hmarker, hloss, ?_, ?_⟩
  · rw [State.StoreValid, hcfg, hbyte, if_pos rfl]
  · have hkept : t.storedCal 102 = allOnesStore.storedCal 102 := by
      rw [State.storedCal, hcfg, hbyte, if_neg (by decide), State.storedCal]
    rw [hkept, hcfg]
    decide

end Sys2Proof.Machine
end
